-- ==== Sys2Proof/Word.lean ====
section
/-! DEFINITION. The word types: bytes, 24-bit addresses, the 16-bit result (`spec/00_scope.md` R4, R6). -/

namespace Sys2Proof

/-- A byte: 8 bits, unsigned, bit 0 least significant (R6). -/
abbrev Byte := BitVec 8

/-- A flash byte address operand, 24 bits (`ADDR_W`, R4). -/
abbrev Addr := BitVec 24

/-- The codec's `result` register, 16 bits (R11). -/
abbrev Half := BitVec 16

end Sys2Proof
end

