-- ==== Sys2Proof/Config.lean ====
section
/-! DEFINITION. What an implementation fixes (the parameters of `spec/00_scope.md` R4) and the values the spec
leaves free (`spec/93_implementation_defined.md` Part 1): constants with no body, so that no proof can see them. -/

namespace Sys2Proof

/-- `PAGE_SIZE`, `SECTOR_SIZE`, `BLOCK_SIZE` (R4). -/
abbrev pageSize : Nat := 256
abbrev sectorSize : Nat := 4096
abbrev blockSize : Nat := 65536

/-- One valid block-protect encoding and the contiguous range of blocks it protects: blocks
`first` to `first + count - 1` (R4 `BP_VALID`, `BP_MAP`; R53). -/
structure BpRange where
  bp : BitVec 4
  first : Nat
  count : Nat
deriving DecidableEq, Repr

/-- The parameters of one part, fixed for a whole run (R4, R5, R29). `BP_VALID` is the set of `bp` values of
`bpTable`, `BP_MAP` their ranges. -/
structure Part where
  nBlocks : Nat
  mfrId : Byte
  devId : Byte
  memType : Byte
  capacity : Byte
  expectedDeviceId : Byte
  expectedJedec16 : Half
  bpTable : List BpRange
  wrsrBusy : Bool
  welClearsOnReject : Bool
deriving DecidableEq, Repr

/-- `TOTAL_SIZE`, by construction a multiple of `BLOCK_SIZE` (R4, R5). -/
def Part.totalSize (p : Part) : Nat := p.nBlocks * blockSize

/-- `N_SECTORS` and `N_PAGES`: exact divisions of `TOTAL_SIZE` (R4, R5). -/
def Part.nSectors (p : Part) : Nat := p.totalSize / sectorSize
def Part.nPages (p : Part) : Nat := p.totalSize / pageSize

/-- The constraints R4 puts on the parameters: `0 < TOTAL_SIZE <= 2^24`, exactly 11 distinct valid
block-protect encodings, each range inside the array. -/
def Part.wf (p : Part) : Bool :=
  decide (0 < p.nBlocks) && decide (p.nBlocks ≤ 256) && decide (p.bpTable.length = 11) &&
    decide (p.bpTable.map BpRange.bp).Nodup && p.bpTable.all fun r => decide (r.first + r.count ≤ p.nBlocks)

/-! ## The launch parameters: free (DESIGN CHOICE, log 11, 20) -/

/-- `N_BLOCKS - 1` of the part at hand. -/
opaque Config.blocksLessOne : Fin 256
opaque Config.mfrId : Byte
opaque Config.devId : Byte
opaque Config.memType : Byte
opaque Config.capacity : Byte
opaque Config.expectedDeviceId : Byte
opaque Config.expectedJedec16 : Half
/-- Which five of the sixteen 4-bit values are NOT valid block-protect encodings, each as a position in what is left. -/
opaque Config.bpDropA : Fin 16
opaque Config.bpDropB : Fin 15
opaque Config.bpDropC : Fin 14
opaque Config.bpDropD : Fin 13
opaque Config.bpDropE : Fin 12
/-- First protected block and number of protected blocks of each encoding, before they are cut to the array. -/
opaque Config.bpFirst : BitVec 4 → Nat
opaque Config.bpCount : BitVec 4 → Nat
/-- The level of the device's write-protect pin at launch. -/
opaque Config.wpAtLaunch : Bool

def Config.nBlocks : Nat := Config.blocksLessOne.val + 1

/-- `BP_VALID`: 11 of the 16 values (R4, R23). -/
def Config.bpValid : List (BitVec 4) :=
  ((((((List.range 16).map (BitVec.ofNat 4)).eraseIdx Config.bpDropA.val).eraseIdx Config.bpDropB.val).eraseIdx
    Config.bpDropC.val).eraseIdx Config.bpDropD.val).eraseIdx Config.bpDropE.val

/-- The contiguous range of blocks that the encoding `v` protects, inside the array (R4 `BP_MAP`). -/
def Config.bpRange (v : BitVec 4) : BpRange :=
  { bp := v
    first := min (Config.bpFirst v) Config.nBlocks
    count := min (Config.bpCount v) (Config.nBlocks - min (Config.bpFirst v) Config.nBlocks) }

/-- The part at launch: every parameter free but the two Booleans whose default R4 gives. -/
def Config.part : Part :=
  { nBlocks := Config.nBlocks
    mfrId := Config.mfrId
    devId := Config.devId
    memType := Config.memType
    capacity := Config.capacity
    expectedDeviceId := Config.expectedDeviceId
    expectedJedec16 := Config.expectedJedec16
    bpTable := Config.bpValid.map Config.bpRange
    wrsrBusy := true
    welClearsOnReject := false }

/-! ## Free values (draws), each applied to the model's counter `State.clock` (DESIGN CHOICE, log 5 to 9) -/

/-- The `i`-th byte drawn at count `c` (U1, U2, U4, U6). -/
opaque Config.draw : Nat → Nat → Byte
/-- How long the internal operation lasts that starts at count `c`: a finite time without a bound, in the model's moments
(R57, R116; DESIGN CHOICE, log 5). -/
opaque Config.duration : Nat → Nat
/-- Whether the device takes a WREN, WRDI, DP or RDP whose selection began before a completion and ended after it (U16). -/
opaque Config.lateTaken : Nat → Bool
/-- Status Register, power-down state and array contents of a device whose state is unspecified (U5 to U9, U11). -/
opaque Config.lostSr : Nat → Byte
opaque Config.lostPd : Nat → Bool
opaque Config.lostCells : Nat → List (Nat × Byte)

end Sys2Proof
end

