-- ==== Sys2Proof/Syntax.lean ====
section
/-! DEFINITION. The instructions: the 14 flash operations of `spec/30_encoding.md` R72, one constructor per row of
`spec/opcode_table.json`, with the operands R79 says each uses; and a request as the host presents it (R87). -/

namespace Sys2Proof

/-- The operation selector, the codec's register `op` (R14, R72). -/
inductive Op where
  | wren | wrdi | rdsr | wrsr | read | fastRead | pp | se | be | ce | dp | rdp | rddevid | rdjedec
deriving DecidableEq, Repr

/-- An operation with its operands (R79, R85, R87). -/
inductive Instr where
  /-- Write Enable (R120). -/
  | wren
  /-- Write Disable (R122). -/
  | wrdi
  /-- Read Status (R124). -/
  | rdsr
  /-- Write Status (R126). -/
  | wrsr (srIn : Byte)
  /-- Read Data (R140). -/
  | read (addr : Addr) (n : Nat)
  /-- Fast Read (R142). -/
  | fastRead (addr : Addr) (n : Nat)
  /-- Page Program (R150): the table lists `addr`, `n` and `payload`. -/
  | pp (addr : Addr) (n : Nat) (payload : List Byte)
  /-- Sector Erase (R152). -/
  | se (addr : Addr)
  /-- Block Erase (R154). -/
  | be (addr : Addr)
  /-- Chip Erase (R156). -/
  | ce
  /-- Power Down (R170). -/
  | dp
  /-- Release Power Down (R172). -/
  | rdp
  /-- Read Device ID (R180). -/
  | rddevid
  /-- Read JEDEC ID (R182). -/
  | rdjedec
deriving DecidableEq, Repr

/-- The operation of an instruction (R72). -/
def Instr.op : Instr → Op
  | .wren => .wren
  | .wrdi => .wrdi
  | .rdsr => .rdsr
  | .wrsr _ => .wrsr
  | .read _ _ => .read
  | .fastRead _ _ => .fastRead
  | .pp _ _ _ => .pp
  | .se _ => .se
  | .be _ => .be
  | .ce => .ce
  | .dp => .dp
  | .rdp => .rdp
  | .rddevid => .rddevid
  | .rdjedec => .rdjedec

/-- The operand `addr`; 0 where the operation uses none. -/
def Instr.addr : Instr → Addr
  | .read a _ => a
  | .fastRead a _ => a
  | .pp a _ _ => a
  | .se a => a
  | .be a => a
  | .wren => 0
  | .wrdi => 0
  | .rdsr => 0
  | .wrsr _ => 0
  | .ce => 0
  | .dp => 0
  | .rdp => 0
  | .rddevid => 0
  | .rdjedec => 0

/-- The operand `sr_in`; 0 where the operation uses none. -/
def Instr.srIn : Instr → Byte
  | .wrsr v => v
  | .wren => 0
  | .wrdi => 0
  | .rdsr => 0
  | .read _ _ => 0
  | .fastRead _ _ => 0
  | .pp _ _ _ => 0
  | .se _ => 0
  | .be _ => 0
  | .ce => 0
  | .dp => 0
  | .rdp => 0
  | .rddevid => 0
  | .rdjedec => 0

/-- The length operand `n`; 0 where the operation uses none. -/
def Instr.n : Instr → Nat
  | .read _ k => k
  | .fastRead _ k => k
  | .pp _ k _ => k
  | .wren => 0
  | .wrdi => 0
  | .rdsr => 0
  | .wrsr _ => 0
  | .se _ => 0
  | .be _ => 0
  | .ce => 0
  | .dp => 0
  | .rdp => 0
  | .rddevid => 0
  | .rdjedec => 0

/-- The operand `payload`; empty where the operation uses none. -/
def Instr.payload : Instr → List Byte
  | .pp _ _ p => p
  | .wren => []
  | .wrdi => []
  | .rdsr => []
  | .wrsr _ => []
  | .read _ _ => []
  | .fastRead _ _ => []
  | .se _ => []
  | .be _ => []
  | .ce => []
  | .dp => []
  | .rdp => []
  | .rddevid => []
  | .rdjedec => []

/-- The four operands of a request, used by its operation or not (R14, R87). -/
structure Operands where
  addr : Addr
  srIn : Byte
  n : Nat
  payload : List Byte
deriving DecidableEq, Repr

/-- A request `(op, addr, sr_in, n, payload)` (R87), the operation by its code on the port: its opcode (DESIGN CHOICE,
log 4). -/
structure Request where
  code : Byte
  operands : Operands
deriving DecidableEq, Repr

end Sys2Proof
end

