-- ==== Sys2Proof/WellFormed.lean ====
section
/-! DEFINITION. The one check a request must pass to be accepted: the guard of S-ACCEPT
(`spec/40_bracket_sequencer.md` R102). The codec checks nothing else, of no operation (R3, R102). -/

namespace Sys2Proof

/-- "when `op' = PP`, `|payload'| = n'`" (R102); every other request is well formed. -/
def Instr.wellFormed : Instr → Bool
  | .pp _ n payload => decide (payload.length = n)
  | .wren => true
  | .wrdi => true
  | .rdsr => true
  | .wrsr _ => true
  | .read _ _ => true
  | .fastRead _ _ => true
  | .se _ => true
  | .be _ => true
  | .ce => true
  | .dp => true
  | .rdp => true
  | .rddevid => true
  | .rdjedec => true

end Sys2Proof
end

