-- ==== Sys2Proof/Decode.lean ====
section
/-! DEFINITION. The frame encoding of `spec/30_encoding.md`: opcodes and formats (R70 to R77), transfer descriptors
(R79), the framer's `frame`, the decoder `decode` of one selection (R83), the encoder, and the table-word form the
host asks for. -/

namespace Sys2Proof

/-! ## Address field (R73) -/

def addrHi (a : Addr) : Byte := a.extractLsb' 16 8
def addrMid (a : Addr) : Byte := a.extractLsb' 8 8
def addrLo (a : Addr) : Byte := a.extractLsb' 0 8

/-- "Inverse: `addr = (FB[1] << 16) | (FB[2] << 8) | FB[3]`" (R73). -/
def addrOf (hi mid lo : Byte) : Addr :=
  (hi.setWidth 24 <<< 16) ||| (mid.setWidth 24 <<< 8) ||| lo.setWidth 24

/-! ## Opcode map (R72) -/

def Op.opcode : Op → Byte
  | .wren => 0x06
  | .wrdi => 0x04
  | .rdsr => 0x05
  | .wrsr => 0x01
  | .read => 0x03
  | .fastRead => 0x0B
  | .pp => 0x02
  | .se => 0x20
  | .be => 0xD8
  | .ce => 0xC7
  | .dp => 0xB9
  | .rdp => 0xAB
  | .rddevid => 0x90
  | .rdjedec => 0x9F

/-- The 14 operations, in the order of R72's table. -/
def Op.all : List Op :=
  [.wren, .wrdi, .rdsr, .wrsr, .read, .fastRead, .pp, .se, .be, .ce, .dp, .rdp, .rddevid, .rdjedec]

/-- "byte 0 alone selects the operation" (R72); none for the other 242 values (R82). -/
def Op.ofOpcode (b : Byte) : Option Op := Op.all.find? fun o => o.opcode == b

/-- The five frame formats (R71). -/
inductive Format where
  | f1 | f2 | f3 | f4 | f5
deriving DecidableEq, Repr

def Op.format : Op → Format
  | .wren => .f1
  | .wrdi => .f1
  | .rdsr => .f1
  | .wrsr => .f2
  | .read => .f3
  | .fastRead => .f4
  | .pp => .f3
  | .se => .f3
  | .be => .f3
  | .ce => .f1
  | .dp => .f1
  | .rdp => .f1
  | .rddevid => .f5
  | .rdjedec => .f1

/-- The length of a frame of each format in bytes (R71, R77). -/
def Format.length : Format → Nat
  | .f1 => 1
  | .f2 => 2
  | .f3 => 4
  | .f4 => 5
  | .f5 => 4

/-- The framer's function `frame(op, addr, sr_in)` (R71, with R73 to R76). -/
def frame (op : Op) (addr : Addr) (srIn : Byte) : List Byte :=
  match op.format with
  | .f1 => [op.opcode]
  | .f2 => [op.opcode, srIn]
  | .f3 => [op.opcode, addrHi addr, addrMid addr, addrLo addr]
  | .f4 => [op.opcode, addrHi addr, addrMid addr, addrLo addr, 0x00]
  | .f5 => [op.opcode, 0x00, 0x00, 0x00]

/-- The transfer after the frame (R79). -/
inductive Transfer where
  | none
  | read (length : Nat)
  | write
deriving DecidableEq, Repr

/-- `xfer(op)`, with the length operand `n` for the operations that use it (R79). -/
def Op.xfer (o : Op) (n : Nat) : Transfer :=
  match o with
  | .wren => .none
  | .wrdi => .none
  | .rdsr => .read 1
  | .wrsr => .none
  | .read => .read n
  | .fastRead => .read n
  | .pp => .write
  | .se => .none
  | .be => .none
  | .ce => .none
  | .dp => .none
  | .rdp => .none
  | .rddevid => .read 2
  | .rdjedec => .read 3

/-! ## Decoding (R83) -/

/-- Why a byte stream is none of the 14 frames: R83's INVALID, by name. -/
inductive DecodeError where
  /-- No byte at all. -/
  | empty
  /-- Byte 0 is none of the 14 opcodes. -/
  | unknownOpcode (b : Byte)
  /-- The stream has not the length its opcode fixes. -/
  | badLength (op : Op)
  /-- The fifth byte of a Fast Read frame is not 0x00. -/
  | badDummy (d : Byte)
  /-- Bytes 1 to 3 of a Read Device ID frame are not all 0x00. -/
  | badZeros
deriving DecidableEq, Repr

/-- A one-byte frame: the opcode and nothing after it. -/
def decodeF1 (op : Op) (i : Instr) : List Byte → Except DecodeError Instr
  | [] => .ok i
  | _ :: _ => .error (.badLength op)

/-- A four-byte frame whose three last bytes are an address. -/
def decodeF3 (op : Op) (i : Addr → Instr) : List Byte → Except DecodeError Instr
  | [hi, mid, lo] => .ok (i (addrOf hi mid lo))
  | _ => .error (.badLength op)

/-- The bytes after the opcode, for each opcode (R83). `n` is the count of the read that follows, "not in the
frame". -/
def decodeRest (op : Op) (n : Nat) (rest : List Byte) : Except DecodeError Instr :=
  match op with
  | .wren => decodeF1 .wren .wren rest
  | .wrdi => decodeF1 .wrdi .wrdi rest
  | .rdsr => decodeF1 .rdsr .rdsr rest
  | .wrsr =>
    match rest with
    | [v] => .ok (.wrsr v)
    | _ => .error (.badLength .wrsr)
  | .read => decodeF3 .read (fun a => .read a n) rest
  | .fastRead =>
    match rest with
    | [hi, mid, lo, d] => if d = 0x00 then .ok (.fastRead (addrOf hi mid lo) n) else .error (.badDummy d)
    | _ => .error (.badLength .fastRead)
  | .pp =>
    match rest with
    | hi :: mid :: lo :: payload => .ok (.pp (addrOf hi mid lo) payload.length payload)
    | _ => .error (.badLength .pp)
  | .se => decodeF3 .se .se rest
  | .be => decodeF3 .be .be rest
  | .ce => decodeF1 .ce .ce rest
  | .dp => decodeF1 .dp .dp rest
  | .rdp => decodeF1 .rdp .rdp rest
  | .rddevid =>
    match rest with
    | [z1, z2, z3] => if z1 = 0x00 ∧ z2 = 0x00 ∧ z3 = 0x00 then .ok .rddevid else .error .badZeros
    | _ => .error (.badLength .rddevid)
  | .rdjedec => decodeF1 .rdjedec .rdjedec rest

/-- `decode(S)` (R83): the operation and operands of the bytes of one selection. -/
def decode (stream : List Byte) (n : Nat) : Except DecodeError Instr :=
  match stream with
  | [] => .error .empty
  | b :: rest =>
    match Op.ofOpcode b with
    | some op => decodeRest op n rest
    | none => .error (.unknownOpcode b)

/-! ## Encoding -/

/-- The bytes a request puts on the wire: its frame, then (Page Program) its payload (R71, R77). -/
def encode (i : Instr) : List Byte := frame i.op i.addr i.srIn ++ i.payload

/-! ## Requests (R87) -/

/-- What S-ACCEPT latches for the operation `i`: the operands `i` uses (R79), and for the others what stands on the port's
operand lines (R102 latches all four; DESIGN CHOICE, log 17). -/
def Instr.latched (i : Instr) (port : Operands) : Operands :=
  match i with
  | .wren => port
  | .wrdi => port
  | .rdsr => port
  | .wrsr srIn => { port with srIn := srIn }
  | .read addr n => { port with addr := addr, n := n }
  | .fastRead addr n => { port with addr := addr, n := n }
  | .pp addr n payload => { port with addr := addr, n := n, payload := payload }
  | .se addr => { port with addr := addr }
  | .be addr => { port with addr := addr }
  | .ce => port
  | .dp => port
  | .rdp => port
  | .rddevid => port
  | .rdjedec => port

/-- The operation a request asks for, with the operands it uses (R79); none for a code that is none of the 14 (R82). -/
def Request.instr (r : Request) : Option Instr :=
  (Op.ofOpcode r.code).map fun op =>
    match op with
    | .wren => .wren
    | .wrdi => .wrdi
    | .rdsr => .rdsr
    | .wrsr => .wrsr r.operands.srIn
    | .read => .read r.operands.addr r.operands.n
    | .fastRead => .fastRead r.operands.addr r.operands.n
    | .pp => .pp r.operands.addr r.operands.n r.operands.payload
    | .se => .se r.operands.addr
    | .be => .be r.operands.addr
    | .ce => .ce
    | .dp => .dp
    | .rdp => .rdp
    | .rddevid => .rddevid
    | .rdjedec => .rdjedec

/-- Operand lines at rest (DESIGN CHOICE, log 17). -/
def Operands.rest : Operands := { addr := 0, srIn := 0, n := 0, payload := [] }

/-- A request for `i`, the operand lines that `i` does not use at rest. -/
def Instr.request (i : Instr) : Request := { code := i.op.opcode, operands := i.latched Operands.rest }

/-- A request with an unused code: 0x00 is none of the 14 opcodes. -/
def Request.unused : Request := { code := 0x00, operands := Operands.rest }

/-! ## The opcode table's words -/

/-- `k` bytes of the number `w`, most significant byte first: R71 numbers a frame "as one unsigned number whose
most significant byte is byte 0". -/
def bytesOfWord : Nat → Nat → List Byte
  | 0, _ => []
  | k + 1, w => BitVec.ofNat 8 (w / 256 ^ k) :: bytesOfWord k w

/-- The frame a table row of `nbits` bits with value `w` stands for; a row with fewer bits than its opcode's frame
is completed with zero bytes (DESIGN CHOICE, log 28). -/
def streamOfWord (nbits w : Nat) : List Byte :=
  let bytes := bytesOfWord (nbits / 8) w
  match bytes with
  | [] => []
  | b :: _ =>
    match Op.ofOpcode b with
    | some op => bytes ++ List.replicate (op.format.length - bytes.length) 0x00
    | none => bytes

/-- The instruction the decoder reads from a table word; the operands that are in no frame (`n`, `payload`) are
zero and empty. -/
def decodeTableWord (nbits w : Nat) : Option Instr :=
  match decode (streamOfWord nbits w) 0 with
  | .ok i => some i
  | .error _ => none

end Sys2Proof
end

