-- ==== Sys2Proof/Machine/State.lean ====
section
/-! DEFINITION. The state: the codec's registers (`spec/10_state.md` R11), the reference device (R20 to R30), the
launch parameters (R4), the environment's inputs, and the reasons a step can stop. -/

namespace Sys2Proof.Machine

/-- `phase`: where the bracket stands (R18). -/
inductive Phase where
  | idle | assert | frame | xfer | deassert
deriving DecidableEq, Repr

/-- The chip-select level (R12). -/
inductive Level where
  | low | high
deriving DecidableEq, Repr

/-- A transport event (R101). -/
inductive Event where
  /-- `SEL(level)`. -/
  | sel (level : Level)
  /-- `WR(L, k)`. -/
  | wr (bytes : List Byte) (k : Nat)
  /-- `RD(m, k, D)`. -/
  | rd (m k : Nat) (data : List Byte)
deriving DecidableEq, Repr

/-- What the transport answers to one `write` or `read` call (R101; DESIGN CHOICE, log 1). A count can never pass the
request. -/
inductive Answer where
  /-- The count equals the request. -/
  | exact
  /-- At most `k` bytes are moved. -/
  | upTo (k : Nat)
  /-- The call never returns (R118, U15). -/
  | never
deriving DecidableEq, Repr

/-- What the transport answers to one `select` call (R7, R101; DESIGN CHOICE, log 30): it returns nothing. -/
inductive SelectAnswer where
  /-- The call returns. -/
  | returns
  /-- The call never returns (R118, R206 iii, U15). -/
  | never
deriving DecidableEq, Repr

/-- What happens at the machine's boundary in one step (DESIGN CHOICE, log 2, 3). -/
inductive Input where
  /-- The host presents nothing. -/
  | wait
  /-- The host makes a blocking call: the operation runs to its end in this step (R55, R108). -/
  | call (r : Request)
  /-- The host presents a request on the port: S-ACCEPT alone (R102). -/
  | present (r : Request)
  /-- The device takes the step DEV-COMPLETE, if it is enabled (R116). -/
  | complete
  /-- The codec's reset input is applied (R210). -/
  | reset
  /-- The level of the device's write-protect pin, `WP_ACTIVE` (R54). -/
  | writeProtect (active : Bool)
deriving DecidableEq, Repr

/-- Why a run has gone wrong (R206; `spec/93_implementation_defined.md`). From then on the device's state is
unspecified (DESIGN CHOICE, log 8, 9, 10). -/
inductive GoneWrong where
  /-- An operation ended with `err != 0` (U7). -/
  | transportIncomplete
  /-- A Page Program of 0 or more than 256 bytes reached the device (U5). -/
  | programLength
  /-- A program or erase at `addr >= TOTAL_SIZE` reached the device (U6). -/
  | addressOutside
  /-- A selection whose bytes are none of the 14 frames (U8). -/
  | invalidStream
  /-- An operation consulted protection under a BP value outside `BP_VALID` (U9). -/
  | bpInvalid
  /-- A codec reset cut a selection short (U11). -/
  | resetCut
deriving DecidableEq, Repr

/-- The flash array: (address, byte) pairs, addresses strictly rising, none 0xFF; an unlisted address reads as
0xFF (`Memory.wf`; DESIGN CHOICE, log 14). -/
abbrev Memory := List Host.Cell

/-- The codec's registers (R11). -/
structure Codec where
  phase : Phase
  cs : Level
  op : Op
  addr : Addr
  srIn : Byte
  n : Nat
  payload : List Byte
  fb : List Byte
  resp : List Byte
  cntFrame : Nat
  cntXfer : Nat
  err : Byte
  done : Bool
  result : Half
deriving DecidableEq, Repr

/-- The reference device (R20 to R30, R54). `sel` and `selBusy` are the bookkeeping of R30 and R115. -/
structure Device where
  sr : Byte
  flash : Memory
  pd : Bool
  sel : Option (List Byte)
  selBusy : Bool
  wp : Bool
deriving DecidableEq, Repr

/-- The whole machine. `port` is what the host drives on the operand lines of the request port (DESIGN CHOICE, log 17);
`trace` is the trace of R101, oldest event first; `wrong` the mark of R206; `clock` the
model's own counter of draws (DESIGN CHOICE, log 7); `due` the model's own moment at which the internal operation in
progress is over (DESIGN CHOICE, log 5). -/
structure State where
  codec : Codec
  dev : Device
  part : Part
  wrong : Option GoneWrong
  port : Operands
  inputs : List Input
  answers : List Answer
  selects : List SelectAnswer
  clock : Nat
  due : Nat
  trace : List Event
deriving DecidableEq, Repr

/-- Reasons the machine stops with a fault. -/
inductive Fault where
  /-- Raised by S-ASSERT, S-FRAME, S-XFER and S-DEASSERT when the transport's call never returns: "the codec stays in that
  phase for ever" (R118, R206 iii, U15). Safe: the run goes no further. -/
  | transportHang
deriving DecidableEq, Repr

/-- Reasons the model gives no meaning. -/
inductive Refusal where
  /-- Raised by `exec` for an instruction that has no meaning yet. Safe. No arm of `exec` raises it. -/
  | notModelled (mnemonic : String)
deriving DecidableEq, Repr

/-- The outcome of a step of this machine. -/
abbrev Result := Host.Outcome State Fault Refusal

/-- The codec's registers after reset (R31). Operand latches and `FB` are unspecified there: DESIGN CHOICE, log 15. -/
def Codec.reset : Codec :=
  { phase := .idle
    cs := .high
    op := .wren
    addr := 0
    srIn := 0
    n := 0
    payload := []
    fb := [0x06]
    resp := []
    cntFrame := 0
    cntXfer := 0
    err := 0x00
    done := false
    result := 0x0000 }

/-- The device at launch (R32). SR bits 0 and 1 and `pd`: PRESUMED, log 12; the other SR bits (log 13), the array
(log 14) and `selBusy` (log 29): DESIGN CHOICE. The pin: free, log 20. -/
def Device.launch : Device :=
  { sr := 0x00
    flash := []
    pd := false
    sel := none
    selBusy := false
    wp := Config.wpAtLaunch }

/-- The machine right after reset: no input given yet, the operand lines at rest, a perfect transport (DESIGN CHOICE,
log 1, 3, 5, 17, 30). -/
def State.reset : State :=
  { codec := Codec.reset
    dev := Device.launch
    part := Config.part
    wrong := none
    port := Operands.rest
    inputs := []
    answers := []
    selects := []
    clock := 0
    due := 0
    trace := [] }

end Sys2Proof.Machine
end

