-- ==== Sys2Proof/Machine/Flags.lean ====
section
/-! DEFINITION. The Status Register decoder (`spec/41_status_commands.md` R128 to R137), the write mask (R26), the
condition flag `busy` (R16) and the decoded `result` (R17, R107). -/

namespace Sys2Proof.Machine

/-! ## Extraction (R128 to R132) -/

/-- "status field extraction: `(s >> p) & m`", in 8 bits (R8). -/
def srField (p : Nat) (m s : Byte) : Byte := (s >>> p) &&& m

def srWip (s : Byte) : Byte := srField 0 0x01 s
def srWel (s : Byte) : Byte := srField 1 0x01 s
def srBp (s : Byte) : Byte := srField 2 0x0F s
def srRsv (s : Byte) : Byte := srField 6 0x01 s
def srSrp (s : Byte) : Byte := srField 7 0x01 s

/-! ## Injection (R133 to R136) -/

/-- "status field injection: `(s & ~(m << p)) | ((f & m) << p)`, all in 8 bits" (R8). -/
def srInject (p : Nat) (m s f : Byte) : Byte := (s &&& ~~~(m <<< p)) ||| ((f &&& m) <<< p)

def srSetWip (s b : Byte) : Byte := srInject 0 0x01 s b
def srSetWel (s b : Byte) : Byte := srInject 1 0x01 s b
def srSetBp (s p : Byte) : Byte := srInject 2 0x0F s p
def srSetSrp (s b : Byte) : Byte := srInject 7 0x01 s b

/-- `SR_compose(s0, b, p)`: the byte a caller should give to WRSR (R137). -/
def srCompose (s0 b p : Byte) : Byte := (s0 &&& 0x40) ||| ((b &&& 1) <<< 7) ||| ((p &&& 0x0F) <<< 2)

/-- `SR_WMASK`, the bits Write Status writes (R26). -/
def srWmask : Byte := 0xBC

/-- `SR <- (SR & ~0xBC) | (s & 0xBC)` (R26, R127). -/
def srWritten (sr s : Byte) : Byte := (sr &&& ~~~srWmask) ||| (s &&& srWmask)

/-! ## The device's flags -/

/-- WIP, WEL and SRP of the device as conditions (R21, R22, R25). -/
def Device.wip (d : Device) : Bool := srWip d.sr == 1
def Device.wel (d : Device) : Bool := srWel d.sr == 1
def Device.srp (d : Device) : Bool := srSrp d.sr == 1

/-- The 4-bit value of BP[3:0] (R23). -/
def Device.bp (d : Device) : BitVec 4 := (srBp d.sr).setWidth 4

/-- `sr_locked = (SR[7] = 1) and WP_ACTIVE` (R54). -/
def Device.srLocked (d : Device) : Bool := d.srp && d.wp

/-! ## The codec's flags and result -/

/-- `busy = (phase != IDLE)` (R16). -/
def Codec.busy (c : Codec) : Bool := c.phase != .idle

/-- The two error codes (R191). -/
def errNone : Byte := 0x00
def errTransportIncomplete : Byte := 0x01

/-- `(T << 8) | C` in 16 bits (R8, R182). -/
def jedecCombine (t c : Byte) : Half := (t.setWidth 16 <<< 8) ||| c.setWidth 16

/-- `decode_result(op, resp)` (R107, R17). -/
def decodeResult (op : Op) (resp : List Byte) : Half :=
  match op with
  | .rdsr => (resp.getD 0 0).setWidth 16
  | .rddevid => (resp.getD 1 0).setWidth 16
  | .rdjedec => jedecCombine (resp.getD 1 0) (resp.getD 2 0)
  | .wren => 0x0000
  | .wrdi => 0x0000
  | .wrsr => 0x0000
  | .read => 0x0000
  | .fastRead => 0x0000
  | .pp => 0x0000
  | .se => 0x0000
  | .be => 0x0000
  | .ce => 0x0000
  | .dp => 0x0000
  | .rdp => 0x0000

/-- The caller's identity tests after RDDEVID and RDJEDEC (R184). -/
def deviceIdExpected (p : Part) (result : Half) : Bool := result.setWidth 8 == p.expectedDeviceId
def jedecExpected (p : Part) (result : Half) : Bool := result == p.expectedJedec16

/-- "the expected chip model" (R29). -/
def expectedModel (p : Part) : Bool :=
  p.devId == p.expectedDeviceId && jedecCombine p.memType p.capacity == p.expectedJedec16

end Sys2Proof.Machine
end

