-- ==== Sys2Proof/Machine/Operands.lean ====
section
/-! DEFINITION. Addresses inside the array: the unit holding an address (`spec/20_memory.md` R41) and the page-wrap
target of a programmed byte (R47). -/

namespace Sys2Proof.Machine

/-- `page(a)`, `sector(a)`, `block(a)` (R41). -/
def page (a : Addr) : Nat := (a >>> 8).toNat
def sector (a : Addr) : Nat := (a >>> 12).toNat
def block (a : Addr) : Nat := (a >>> 16).toNat

/-- First address of the page, sector and block of `a` (R41, R8). -/
def pageBase (a : Addr) : Addr := a &&& 0xFFFF00#24
def sectorBase (a : Addr) : Addr := a &&& 0xFFF000#24
def blockBase (a : Addr) : Addr := a &&& 0xFF0000#24

/-- `target(addr, i) = (addr & 0xFFFF00) | ((addr[7:0] + i) mod 256)`, the sum in naturals (R47, R8). -/
def target (addr : Addr) (i : Nat) : Addr :=
  pageBase addr ||| BitVec.ofNat 24 (((addrLo addr).toNat + i) % 256)

end Sys2Proof.Machine
end

