-- ==== Sys2Proof/Machine/Ops.lean ====
section
/-! DEFINITION. The named operations over the flash array (`spec/20_memory.md` R63), the transport's write side
(R101, R115), the one exception TransportIncomplete (`spec/60_exceptions.md` R190 to R198), the loss of the device's
state (R192, R206) and DEV-COMPLETE (R116). -/

namespace Sys2Proof.Machine

/-! ## The flash array -/

/-- What an erased byte holds (R27), and what an unlisted address reads as (DESIGN CHOICE, log 14). -/
def erased : Byte := 0xFF

/-- The canonical form: addresses strictly rising, no listed byte equal to 0xFF. -/
def Memory.wf : Memory → Bool
  | [] => true
  | (a, v) :: m => v != erased && m.all (fun c => decide (a < c.1)) && Memory.wf m

/-- `flash[a]`. -/
def Memory.read : Memory → Nat → Byte
  | [], _ => erased
  | (b, v) :: m, a => if a = b then v else Memory.read m a

/-- The cell `(a, v)` in front of `m`, unless an unlisted address reads as `v` anyway. -/
def Memory.cell (a : Nat) (v : Byte) (m : Memory) : Memory := if v = erased then m else (a, v) :: m

/-- `flash[a] <- v`, in canonical form. -/
def Memory.write : Memory → Nat → Byte → Memory
  | [], a, v => Memory.cell a v []
  | (b, w) :: m, a, v =>
    if a < b then Memory.cell a v ((b, w) :: m)
    else if a = b then Memory.cell a v m
    else (b, w) :: Memory.write m a v

/-- `MemErase(base, size)` (R63). -/
def Memory.erase (m : Memory) (base size : Nat) : Memory :=
  m.filter fun c => !(decide (base ≤ c.1) && decide (c.1 < base + size))

/-- An array with the given contents at the addresses that exist; the first mention of an address holds. -/
def Memory.ofCells (totalSize : Nat) : List (Nat × Byte) → Memory
  | [] => []
  | (a, v) :: cs =>
    if a < totalSize then (Memory.ofCells totalSize cs).write a v else Memory.ofCells totalSize cs

/-- `m` draws, each byte drawn separately (U2). -/
def draws (clock m : Nat) : List Byte := (List.range m).map (Config.draw clock)

/-- `MemRead(addr, n)`: byte `i` is `flash[addr + i]` below `TOTAL_SIZE` and a draw beyond (R63, R52). -/
def memRead (p : Part) (clock : Nat) (flash : Memory) (addr : Addr) (n : Nat) : List Byte :=
  (List.range n).map fun i =>
    if addr.toNat + i < p.totalSize then flash.read (addr.toNat + i) else Config.draw clock i

/-- `MemWrite` from payload byte `i` on (R63): a target that was not 0xFF gets a draw (U4). -/
def memWriteFrom (clock : Nat) (addr : Addr) : Nat → List Byte → Memory → Memory
  | _, [], m => m
  | i, b :: bs, m =>
    memWriteFrom clock addr (i + 1) bs
      (m.write (target addr i).toNat (if m.read (target addr i).toNat = erased then b else Config.draw clock i))

/-- `MemWrite(addr, n, v)` (R63); needs `1 <= n <= 256` and `addr < TOTAL_SIZE`. -/
def memWrite (clock : Nat) (addr : Addr) (payload : List Byte) (m : Memory) : Memory :=
  memWriteFrom clock addr 0 payload m

/-! ## Protection (R53) -/

/-- The range of the stored BP value; none where it is outside `BP_VALID`. -/
def bpLookup (p : Part) (bp : BitVec 4) : Option BpRange := p.bpTable.find? fun r => r.bp == bp

/-- `prot(b)`: `b` is in the range. -/
def bpProtects (r : BpRange) (b : Nat) : Bool := decide (r.first ≤ b) && decide (b < r.first + r.count)

/-- `prot(b)` for at least one block of the part (R53, R157). -/
def bpProtectsAny (r : BpRange) (nBlocks : Nat) : Bool := (List.range nBlocks).any (bpProtects r)

/-! ## A run that has gone wrong -/

/-- "the run is marked gone wrong; device state unspecified from there on" (U7): `SR`, `pd` and the array are free.
The selection bookkeeping and the pin are not state of the chip (R30, R54). -/
def Device.unknown (p : Part) (clock : Nat) (d : Device) : Device :=
  { d with
    sr := Config.lostSr clock
    pd := Config.lostPd clock
    flash := Memory.ofCells p.totalSize (Config.lostCells clock) }

/-- Count one use of the free values, so that the next use is fresh (DESIGN CHOICE, log 7). -/
def State.ticked (s : State) : State := { s with clock := s.clock + 1 }

/-- Mark the run gone wrong for the reason `w` (the first reason stays) and lose the device's state. -/
def State.lose (w : GoneWrong) (s : State) : State :=
  { s with wrong := s.wrong.or (some w), dev := s.dev.unknown s.part s.clock, clock := s.clock + 1 }

/-! ## Taking the exception, and returning from it -/

/-- `raise TransportIncomplete` (R190, R197): `err <- 0x01`. The counts are written by the step that raises it; `phase` is
not touched, no step is skipped. The run is marked where the operation ends (R192, R206; `deviceActs`). -/
def raiseTransportIncomplete (s : State) : State :=
  { s with codec := { s.codec with err := errTransportIncomplete } }

/-- The test of every returned count against the request (R113). -/
def checkCount (k requested : Nat) (s : State) : State := if k < requested then raiseTransportIncomplete s else s

/-- There is no return instruction: the next acceptance clears the flags and results (R198, R102). -/
def Codec.cleared (c : Codec) : Codec :=
  { c with resp := [], cntFrame := 0, cntXfer := 0, err := errNone, done := false, result := 0x0000 }

/-! ## The transport's select and write (R101, R115) -/

/-- Append an event to the trace. -/
def State.emit (e : Event) (s : State) : State := { s with trace := s.trace ++ [e] }

/-- The count the transport returns for a request of `req` bytes; none where the call never returns (R101, U15). -/
def Answer.count (a : Answer) (req : Nat) : Option Nat :=
  match a with
  | .exact => some req
  | .upTo k => some (min k req)
  | .never => none

/-- The transport's answer to the next call: exact where none is given (R9; DESIGN CHOICE, log 1). -/
def State.nextAnswer (s : State) : Answer := s.answers.headD .exact

/-- The state once the transport has given its next answer. -/
def State.answered (s : State) : State := { s with answers := s.answers.tail }

/-- The transport's answer to the next select call: it returns where none is given (R9; DESIGN CHOICE, log 30). -/
def State.nextSelect (s : State) : SelectAnswer := s.selects.headD .returns

/-- The state once a select call has returned: its event, one answer used (R101). -/
def State.selected (level : Level) (s : State) : State := { (s.emit (.sel level)) with selects := s.selects.tail }

/-- The device on `SEL(LOW)` (R115). -/
def Device.selectLow (d : Device) : Device := { d with sel := some [], selBusy := d.wip }

/-- The device on `WR(L, k)`, given `take(k, L)` (R115). -/
def Device.hear (bytes : List Byte) (d : Device) : Device := { d with sel := d.sel.map (· ++ bytes) }

/-- `k <- BusWrite(L)` (R7): the count and the state after the event `WR(L, k)`. -/
def busWrite (bytes : List Byte) (s : State) : Option (Nat × State) :=
  match s.nextAnswer.count bytes.length with
  | none => none
  | some k => some (k, { (s.answered.emit (.wr bytes k)) with dev := s.dev.hear (bytes.take k) })

/-! ## DEV-COMPLETE (R116) -/

/-- `SR[0] <- 0; SR[1] <- 0`. -/
def Device.finish (d : Device) : Device := { d with sr := srSetWel (srSetWip d.sr 0) 0 }

/-- DEV-COMPLETE, where its guard WIP = 1 holds; in a run gone wrong the device's state is drawn anew. -/
def devComplete (s : State) : State :=
  if s.wrong.isSome then { s with dev := s.dev.unknown s.part s.clock, clock := s.clock + 1 }
  else if s.dev.wip then { s with dev := s.dev.finish }
  else s

/-- The model's order of moments: every event and every count of the clock is one. -/
def State.moment (s : State) : Nat := s.clock + s.trace.length

/-- The device once an effect rule has been applied. An internal operation that starts here is over after a free, finite
time: so DEV-COMPLETE comes eventually (R116, weak fairness; DESIGN CHOICE, log 5). -/
def State.acted (d : Device) (s : State) : State :=
  { s with
    dev := d
    clock := s.clock + 1
    due := if d.wip && !s.dev.wip then s.moment + Config.duration s.clock else s.due }

/-- A gap in which no input says whether the device completes: it does once its operation is over (R116 "interleaved
freely"; DESIGN CHOICE, log 5). -/
def gap (s : State) : State :=
  if s.wrong.isNone && s.dev.wip && decide (s.due ≤ s.moment) then devComplete s else s

end Sys2Proof.Machine
end

