-- ==== Sys2Proof/Machine/Device.lean ====
section
/-! DEFINITION. The reference device (agent: device): its response to a read and its effect at `SEL(HIGH)` for each
of the 14 operations (`spec/41_status_commands.md` to `spec/45_identification_commands.md`), with the silent
ignoring of `spec/40_bracket_sequencer.md` R117. -/

namespace Sys2Proof.Machine

/-! ## Responses: what a read of `n` bytes gets from an awake, listening device, or draws -/

/-- The device answers a read other than RDSR: awake, and not busy when the selection began (R117). -/
def Device.listening (d : Device) : Bool := !d.pd && !d.selBusy

/-- R125: the current SR, whatever WIP is; a draw in power-down. -/
def respondRdsr (clock n : Nat) (d : Device) : List Byte := if d.pd then draws clock n else [d.sr]

/-- R144, common to READ and FAST_READ (R141, R143). -/
def respondArray (p : Part) (clock : Nat) (addr : Addr) (n : Nat) (d : Device) : List Byte :=
  if d.listening then memRead p clock d.flash addr n else draws clock n

/-- R181. -/
def respondRddevid (p : Part) (clock n : Nat) (d : Device) : List Byte :=
  if d.listening then [p.mfrId, p.devId] else draws clock n

/-- R183. -/
def respondRdjedec (p : Part) (clock n : Nat) (d : Device) : List Byte :=
  if d.listening then [p.mfrId, p.memType, p.capacity] else draws clock n

/-- The response of the decoded operation. The operations that answer nothing give draws (DESIGN CHOICE, log 26). -/
def respond (p : Part) (clock n : Nat) (i : Instr) (d : Device) : List Byte :=
  match i with
  | .rdsr => respondRdsr clock n d
  | .read addr _ => respondArray p clock addr n d
  | .fastRead addr _ => respondArray p clock addr n d
  | .rddevid => respondRddevid p clock n d
  | .rdjedec => respondRdjedec p clock n d
  | .wren => draws clock n
  | .wrdi => draws clock n
  | .wrsr _ => draws clock n
  | .pp _ _ _ => draws clock n
  | .se _ => draws clock n
  | .be _ => draws clock n
  | .ce => draws clock n
  | .dp => draws clock n
  | .rdp => draws clock n

/-- The device's response to the stream of the current selection (R115); draws for a run gone wrong (U7) and for
a stream that is no frame. -/
def deviceResponse (s : State) (m : Nat) : List Byte :=
  if s.wrong.isSome then draws s.clock m
  else
    match decode (s.dev.sel.getD []) m with
    | .ok i => respond s.part s.clock m i s.dev
    | .error _ => draws s.clock m

/-- The `m` bytes `D` of a read that moved `k`: "valid at index `< k`" (R101), draws elsewhere (U1). -/
def received (clock m k : Nat) (response : List Byte) : List Byte :=
  (List.range m).map fun i => if i < k then response.getD i (Config.draw clock i) else Config.draw clock i

/-! ## Effects at `SEL(HIGH)` -/

/-- The in-progress test of WREN, WRDI, DP, RDP: WIP as sampled at `SEL(LOW)`; where the internal operation ended
inside the selection, both outcomes (R117, U16; DESIGN CHOICE, log 6). -/
def Device.heeds (clock : Nat) (d : Device) : Bool :=
  if d.selBusy then (!d.wip && Config.lateTaken clock) else true

/-- R121. -/
def effectWren (clock : Nat) (d : Device) : Device :=
  if !d.pd && d.heeds clock then { d with sr := srSetWel d.sr 1 } else d

/-- R123. -/
def effectWrdi (clock : Nat) (d : Device) : Device :=
  if !d.pd && d.heeds clock then { d with sr := srSetWel d.sr 0 } else d

/-- R125: no device state changes. -/
def effectRdsr (d : Device) : Device := d

/-- The start of an internal operation: WIP set, WEL kept until completion (R21, R127, R158). -/
def Device.startBusy (d : Device) : Device := { d with sr := srSetWip d.sr 1 }

/-- Awake, not busy when the selection began, WEL = 1: what R127 and R158 share. -/
def Device.writable (d : Device) : Bool := !d.pd && !d.selBusy && d.wel

/-- R127. -/
def effectWrsr (p : Part) (v : Byte) (d : Device) : Device :=
  if d.writable && !d.srLocked then
    if p.wrsrBusy then Device.startBusy { d with sr := srWritten d.sr v }
    else { d with sr := srSetWel (srWritten d.sr v) 0 }
  else d

/-- R141, R143, R144: a read changes nothing. -/
def effectRead (d : Device) : Device := d
def effectFastRead (d : Device) : Device := d

/-- A rejection for protection alone (R158, `WEL_CLEARS_ON_REJECT`). -/
def Device.rejected (p : Part) (d : Device) : Device :=
  if p.welClearsOnReject then { d with sr := srSetWel d.sr 0 } else d

/-- Acceptance of a program or erase (R158). `isProtected` is asked of the range of the stored BP value;
`accepted` is the change on acceptance. A BP value outside `BP_VALID` has no meaning here (R53, U9). -/
def ifAccepted (p : Part) (isProtected : BpRange → Bool) (accepted : Except GoneWrong Device) (d : Device) :
    Except GoneWrong Device :=
  if d.writable then
    match bpLookup p d.bp with
    | none => .error .bpInvalid
    | some r => if isProtected r then .ok (d.rejected p) else accepted
  else .ok d

/-- As `ifAccepted`, for an operation at an address: outside the array it has no meaning (R51, U6; DEDUCED, log 21). -/
def ifAcceptedAt (p : Part) (addr : Addr) (accepted : Except GoneWrong Device) (d : Device) :
    Except GoneWrong Device :=
  if d.writable && decide (p.totalSize ≤ addr.toNat) then .error .addressOutside
  else ifAccepted p (fun r => bpProtects r (block addr)) accepted d

/-- R151. -/
def effectPp (p : Part) (clock : Nat) (addr : Addr) (payload : List Byte) (d : Device) : Except GoneWrong Device :=
  ifAcceptedAt p addr
    (if payload.length = 0 ∨ 256 < payload.length then .error .programLength
     else .ok (Device.startBusy { d with flash := memWrite clock addr payload d.flash })) d

/-- R153. -/
def effectSe (p : Part) (addr : Addr) (d : Device) : Except GoneWrong Device :=
  ifAcceptedAt p addr
    (.ok (Device.startBusy { d with flash := d.flash.erase (sectorBase addr).toNat sectorSize })) d

/-- R155. -/
def effectBe (p : Part) (addr : Addr) (d : Device) : Except GoneWrong Device :=
  ifAcceptedAt p addr
    (.ok (Device.startBusy { d with flash := d.flash.erase (blockBase addr).toNat blockSize })) d

/-- R157. -/
def effectCe (p : Part) (d : Device) : Except GoneWrong Device :=
  ifAccepted p (fun r => bpProtectsAny r p.nBlocks)
    (.ok (Device.startBusy { d with flash := d.flash.erase 0 p.totalSize })) d

/-- R171. -/
def effectDp (clock : Nat) (d : Device) : Device :=
  if !d.pd && d.heeds clock then { d with pd := true } else d

/-- R173. -/
def effectRdp (clock : Nat) (d : Device) : Device := if d.heeds clock then { d with pd := false } else d

/-- R181, R183: no device state changes. -/
def effectRddevid (d : Device) : Device := d
def effectRdjedec (d : Device) : Device := d

/-- The effect rule of the decoded operation. -/
def effect (p : Part) (clock : Nat) (i : Instr) (d : Device) : Except GoneWrong Device :=
  match i with
  | .wren => .ok (effectWren clock d)
  | .wrdi => .ok (effectWrdi clock d)
  | .rdsr => .ok (effectRdsr d)
  | .wrsr v => .ok (effectWrsr p v d)
  | .read _ _ => .ok (effectRead d)
  | .fastRead _ _ => .ok (effectFastRead d)
  | .pp addr _ payload => effectPp p clock addr payload d
  | .se addr => effectSe p addr d
  | .be addr => effectBe p addr d
  | .ce => effectCe p d
  | .dp => .ok (effectDp clock d)
  | .rdp => .ok (effectRdp clock d)
  | .rddevid => .ok (effectRddevid d)
  | .rdjedec => .ok (effectRdjedec d)

/-- The device on `SEL(HIGH)`: it takes `decode(sel)` and applies the effect rule (R115). An operation that ends with
`err != 0` (R192, U7; DESIGN CHOICE, log 9), a stream that is no frame, and an operation without meaning (U5, U6, U8,
U9; DESIGN CHOICE, log 8) mark the run. -/
def deviceActs (s : State) : State :=
  if s.wrong.isSome then { s with dev := s.dev.unknown s.part s.clock, clock := s.clock + 1 }
  else if s.codec.err ≠ errNone then s.lose .transportIncomplete
  else
    match decode (s.dev.sel.getD []) 0 with
    | .error _ => s.lose .invalidStream
    | .ok i =>
      match effect s.part s.clock i s.dev with
      | .ok d => s.acted d
      | .error w => s.lose w

/-- `SEL(HIGH)` on the device's side: the effect, and `sel` set to none (R115). -/
def deviceDeselected (s : State) : State :=
  { (deviceActs s) with dev := { (deviceActs s).dev with sel := none } }

end Sys2Proof.Machine
end

