-- ==== Sys2Proof/Machine/Bracket.lean ====
section
/-! DEFINITION. The chip-select sequencer (`spec/40_bracket_sequencer.md`): the five steps R102 to R107 and R118, the
operation as a whole (R108), and the codec's reset (`spec/70_reset_and_hazards.md` R210). -/

namespace Sys2Proof.Machine

/-- S-ACCEPT's guard (R102, R110). -/
def acceptable (i : Instr) (s : State) : Bool := decide (s.codec.phase = .idle) && i.wellFormed

/-- S-ACCEPT (R102): step (a), no event. The operands `i` uses are its own, the others those on the port (log 17). -/
def sAccept (i : Instr) (s : State) : State :=
  { s with
    codec :=
      { s.codec.cleared with
        op := i.op
        addr := (i.latched s.port).addr
        srIn := (i.latched s.port).srIn
        n := (i.latched s.port).n
        payload := (i.latched s.port).payload
        fb := frame i.op (i.latched s.port).addr (i.latched s.port).srIn
        phase := .assert } }

/-- A step that makes a select call: it is taken where the call returns, and the codec hangs where it never does (R118,
U15; log 19, 30). -/
def onSelect (taken : State → State) (s : State) : Result :=
  match s.nextSelect with
  | .returns => .next (taken s)
  | .never => .fault .transportHang

/-- The event and the writes of S-ASSERT (R103), and the device's (R115). -/
def asserted (s : State) : State :=
  { (s.selected .low) with
    codec := { s.codec with cs := .low, phase := .frame }
    dev := s.dev.selectLow }

/-- S-ASSERT (R103): step (b), `SEL(LOW)`. -/
def sAssert (s : State) : Result := onSelect asserted s

/-- The phase after the frame: XFER if `xfer(op) != NONE`, else DEASSERT (R104). -/
def phaseAfterFrame (t : Transfer) : Phase :=
  match t with
  | .none => .deassert
  | .read _ => .xfer
  | .write => .xfer

/-- S-FRAME (R104): step (c), `WR(FB, k)`. -/
def sFrame (s : State) : Result :=
  match busWrite s.codec.fb s with
  | none => .fault .transportHang
  | some (k, t) =>
    .next (checkCount k s.codec.fb.length
      { t with codec := { t.codec with cntFrame := k, phase := phaseAfterFrame (s.codec.op.xfer s.codec.n) } })

/-- `(k, D) <- BusRead(m)` (R7): the event `RD(m, k, D)`, `D` from the device's response (R115). -/
def busRead (m : Nat) (s : State) : Option (Nat × List Byte × State) :=
  match s.nextAnswer.count m with
  | none => none
  | some k =>
    let data := received s.clock m k (deviceResponse s m)
    some (k, data, (s.answered.emit (.rd m k data)).ticked)

/-- S-XFER, read kind (R105): step (d). -/
def sXferRead (m : Nat) (s : State) : Result :=
  match busRead m s with
  | none => .fault .transportHang
  | some (k, data, t) =>
    .next (checkCount k m { t with codec := { t.codec with resp := data, cntXfer := k, phase := .deassert } })

/-- S-XFER, write kind (R106): step (d). -/
def sXferWrite (s : State) : Result :=
  match busWrite s.codec.payload s with
  | none => .fault .transportHang
  | some (k, t) => .next (checkCount k s.codec.n { t with codec := { t.codec with cntXfer := k, phase := .deassert } })

/-- S-XFER. No step is enabled for an operation without a transfer (R118: XFER is never reached then). -/
def sXfer (s : State) : Result :=
  match s.codec.op.xfer s.codec.n with
  | .none => .next s
  | .read m => sXferRead m s
  | .write => sXferWrite s

/-- The event and the writes of S-DEASSERT (R107), and the device's (R115). -/
def deasserted (s : State) : State :=
  { (deviceDeselected (s.selected .high)) with
    codec :=
      { s.codec with
        cs := .high
        result := decodeResult s.codec.op s.codec.resp
        done := true
        phase := .idle } }

/-- S-DEASSERT (R107): step (e), `SEL(HIGH)`. -/
def sDeassert (s : State) : Result := onSelect deasserted s

/-- The one step enabled in each phase (R118); in IDLE, without a request, the codec waits. -/
def tick (s : State) : Result :=
  match s.codec.phase with
  | .idle => .next s
  | .assert => sAssert s
  | .frame => sFrame s
  | .xfer => sXfer s
  | .deassert => sDeassert s

/-- Sequencer steps until IDLE, at most `fuel` of them, the device free to complete before each (R116). -/
def runBracket : Nat → State → Result
  | 0, s => .next s
  | fuel + 1, s =>
    if s.codec.phase = .idle then .next s
    else
      match tick (gap s) with
      | .next t => runBracket fuel t
      | .fault r => .fault r
      | .refused r => .refused r

/-- An operation from acceptance to `done` (R108): at most four sequencer steps after S-ACCEPT. A request that is
not acceptable has "no step and no effect" (R110; DESIGN CHOICE, log 22). -/
def operate (i : Instr) (s : State) : Result :=
  if acceptable i s then runBracket 4 (sAccept i s) else .next s

/-- A request on the port: S-ACCEPT alone (R102), or nothing (R110). -/
def presentRequest (i : Instr) (s : State) : State := if acceptable i s then sAccept i s else s

/-- The codec's reset (R210): no event, the device not reached; while an operation is in flight its selection is
cut short and the device's state is unspecified (U11). A run from reset has an empty trace (DESIGN CHOICE, log 10). -/
def codecReset (s : State) : State :=
  let cut := if s.codec.phase = .idle then s.ticked else s.lose .resetCut
  { cut with codec := Codec.reset, dev := { cut.dev with sel := none }, trace := [] }

end Sys2Proof.Machine
end

