-- ==== Sys2Proof/Machine/IdentificationCommands.lean ====
section
/-! DEFINITION. The identification operations (`spec/45_identification_commands.md`). Nothing is compared with the
expected constants: validation is the caller's (R184). -/

namespace Sys2Proof.Machine

/-- RDDEVID: frame `[0x90, 0, 0, 0]`, two bytes read, `result` the second (R180, R181, `respondRddevid`). -/
def execRddevid (s : State) : Result := operate .rddevid s

/-- RDJEDEC: frame `[0x9F]`, three bytes read, `result = (T << 8) | C` (R182, R183, `respondRdjedec`). -/
def execRdjedec (s : State) : Result := operate .rdjedec s

end Sys2Proof.Machine
end

