-- ==== Sys2Proof/Machine/PowerCommands.lean ====
section
/-! DEFINITION. The power operations (`spec/44_power_commands.md`). -/

namespace Sys2Proof.Machine

/-- DP: frame `[0xB9]` (R170); power-down entered (R171, `effectDp`). -/
def execDp (s : State) : Result := operate .dp s

/-- RDP: frame `[0xAB]` (R172); power-down left (R173, `effectRdp`). -/
def execRdp (s : State) : Result := operate .rdp s

end Sys2Proof.Machine
end

