-- ==== Sys2Proof/Machine/ProgramEraseCommands.lean ====
section
/-! DEFINITION. The program and erase operations (`spec/43_program_erase_commands.md`). -/

namespace Sys2Proof.Machine

/-- PP: frame `[0x02, addr]`, payload written (R150); the page programmed (R151, `effectPp`). -/
def execPp (addr : Addr) (n : Nat) (payload : List Byte) (s : State) : Result := operate (.pp addr n payload) s

/-- SE: frame `[0x20, addr]` (R152); the sector erased (R153, `effectSe`). -/
def execSe (addr : Addr) (s : State) : Result := operate (.se addr) s

/-- BE: frame `[0xD8, addr]` (R154); the block erased (R155, `effectBe`). -/
def execBe (addr : Addr) (s : State) : Result := operate (.be addr) s

/-- CE: frame `[0xC7]` (R156); the whole array erased (R157, `effectCe`). -/
def execCe (s : State) : Result := operate .ce s

end Sys2Proof.Machine
end

