-- ==== Sys2Proof/Machine/ReadCommands.lean ====
section
/-! DEFINITION. The read operations (`spec/42_read_commands.md`). -/

namespace Sys2Proof.Machine

/-- READ: frame `[0x03, addr]`, `n` bytes read (R140, R141, R144, `respondArray`). -/
def execRead (addr : Addr) (n : Nat) (s : State) : Result := operate (.read addr n) s

/-- FAST_READ: frame `[0x0B, addr, 0x00]`, `n` bytes read (R142, R143, R144, `respondArray`). -/
def execFastRead (addr : Addr) (n : Nat) (s : State) : Result := operate (.fastRead addr n) s

end Sys2Proof.Machine
end

