-- ==== Sys2Proof/Machine/StatusCommands.lean ====
section
/-! DEFINITION. The status operations (`spec/41_status_commands.md`). Each runs the bracket R108 with its own frame and
transfer (`frame`, `Op.xfer`); its device rule is in `Device.lean`. -/

namespace Sys2Proof.Machine

/-- WREN: frame `[0x06]`, no transfer (R120); WEL set (R121, `effectWren`). -/
def execWren (s : State) : Result := operate .wren s

/-- WRDI: frame `[0x04]`, no transfer (R122); WEL cleared (R123, `effectWrdi`). -/
def execWrdi (s : State) : Result := operate .wrdi s

/-- RDSR: frame `[0x05]`, one byte read, `result` the status byte (R124, R125, `respondRdsr`). -/
def execRdsr (s : State) : Result := operate .rdsr s

/-- WRSR: frame `[0x01, sr_in]`, no transfer (R126); SRP and BP written (R127, `effectWrsr`). -/
def execWrsr (srIn : Byte) (s : State) : Result := operate (.wrsr srIn) s

end Sys2Proof.Machine
end

