-- ==== Sys2Proof/Machine/Dispatch.lean ====
section
/-! DEFINITION. One arm per operation of `spec/opcode_table.json`. -/

namespace Sys2Proof.Machine

def exec (i : Instr) (s : State) : Host.Outcome State Fault Refusal :=
  match i with
  | .wren => Sys2Proof.Machine.execWren s
  | .wrdi => Sys2Proof.Machine.execWrdi s
  | .rdsr => Sys2Proof.Machine.execRdsr s
  | .wrsr srIn => Sys2Proof.Machine.execWrsr srIn s
  | .read addr n => Sys2Proof.Machine.execRead addr n s
  | .fastRead addr n => Sys2Proof.Machine.execFastRead addr n s
  | .pp addr n payload => Sys2Proof.Machine.execPp addr n payload s
  | .se addr => Sys2Proof.Machine.execSe addr s
  | .be addr => Sys2Proof.Machine.execBe addr s
  | .ce => Sys2Proof.Machine.execCe s
  | .dp => Sys2Proof.Machine.execDp s
  | .rdp => Sys2Proof.Machine.execRdp s
  | .rddevid => Sys2Proof.Machine.execRddevid s
  | .rdjedec => Sys2Proof.Machine.execRdjedec s

end Sys2Proof.Machine
end

