-- ==== Sys2Proof/Machine/Step.lean ====
section
/-! DEFINITION. One step of the machine: the next input of its boundary is taken (DESIGN CHOICE, log 2, 3). -/

namespace Sys2Proof.Machine

/-- A request for one of the 14 operations is run to its end; one whose code is none of them "is not accepted (no step)"
(R82; DESIGN CHOICE, log 22). -/
def stepCall (r : Request) (s : State) : Host.Outcome State Fault Refusal :=
  match r.instr with
  | some i => exec i s
  | none => .next s

/-- As `stepCall`, for S-ACCEPT alone. -/
def stepPresent (r : Request) (s : State) : State :=
  match r.instr with
  | some i => presentRequest i s
  | none => s

/-- One step. A request drives the operand lines (DESIGN CHOICE, log 17). Without any input left the device may still
complete on its own (R116) and the sequencer goes on. -/
def step (s : State) : Host.Outcome State Fault Refusal :=
  match s.inputs with
  | [] => tick (gap s).ticked
  | .wait :: rest => tick { s with inputs := rest }
  | .call r :: rest => stepCall r { s with inputs := rest, port := r.operands }
  | .present r :: rest => .next (stepPresent r { s with inputs := rest, port := r.operands })
  | .complete :: rest => .next (devComplete { s with inputs := rest })
  | .reset :: rest => .next (codecReset { s with inputs := rest })
  | .writeProtect active :: rest => .next { s with inputs := rest, dev := { s.dev with wp := active } }

/-- The request a table word stands for; an unused code where the decoder refuses the word (DESIGN CHOICE, log 28). -/
def requestOfWord (nbits w : Nat) : Request :=
  match decodeTableWord nbits w with
  | some i => i.request
  | none => Request.unused

/-- `s` with the host about to call the operation of a table word, the codec in IDLE (DESIGN CHOICE, log 28). -/
def State.withFetchWord (s : State) (nbits w : Nat) : State :=
  { s with
    inputs := .call (requestOfWord nbits w) :: s.inputs
    codec := { s.codec with phase := .idle } }

end Sys2Proof.Machine
end

