-- ==== Sys2Proof/Safety.lean ====
section
/-! DEFINITION. The words claims are made in: a run gone wrong (`spec/60_exceptions.md` R206), the chip-select
discipline (`spec/40_bracket_sequencer.md` R109), the invariants of the device, and the end of an operation. -/

namespace Sys2Proof.Machine

/-! ## Gone wrong (R206) -/

/-- The premise every claim about a run takes (R192): nothing has gone wrong. -/
def State.Ok (s : State) : Prop := s.wrong = none

/-- The transport of the reference environment: every count equals the request, every select call returns (R9). -/
def State.PerfectTransport (s : State) : Prop :=
  (∀ a ∈ s.answers, a = Answer.exact) ∧ ∀ a ∈ s.selects, a = SelectAnswer.returns

/-- Ready for an operation in the reference environment: IDLE, perfect transport, nothing gone wrong, no internal
operation in progress (the caller's duties R214, R217, R222). -/
def State.Ready (s : State) : Prop :=
  s.codec.phase = .idle ∧ s.PerfectTransport ∧ s.Ok ∧ s.dev.wip = false

/-! ## Weak fairness of DEV-COMPLETE (R57, R116) -/

/-- An infinite run of the machine. -/
def IsRun (r : Nat → State) : Prop := ∀ n, step (r n) = .next (r (n + 1))

/-- DEV-COMPLETE is enabled (R116), in a run in which the device's state is specified (R192). -/
def CompletionEnabled (s : State) : Prop := s.Ok ∧ s.dev.wip = true

/-- DEV-COMPLETE, and nothing else in an unmarked run, ends its own being enabled: "a device with WIP = 1 eventually takes
this step" (R116) says that it is never enabled for ever. -/
def WeaklyFair (r : Nat → State) : Prop := ∀ n, ∃ m, n ≤ m ∧ ¬CompletionEnabled (r m)

/-! ## The end of an operation (R108) -/

/-- The codec at `done = 1` after the operation `i`, all of whose counts were exact: every register of it, the events it
added to the trace, and what no operation touches (R102 to R108). The operand latches hold what the port had for `i`
(`Instr.latched`; log 17). -/
structure Finished (s t : State) (i : Instr) (frameBytes response : List Byte) (moved : Nat) (value : Half)
    (events : List Event) : Prop where
  phase : t.codec.phase = .idle
  cs : t.codec.cs = .high
  op : t.codec.op = i.op
  addr : t.codec.addr = (i.latched s.port).addr
  srIn : t.codec.srIn = (i.latched s.port).srIn
  n : t.codec.n = (i.latched s.port).n
  payload : t.codec.payload = (i.latched s.port).payload
  fb : t.codec.fb = frameBytes
  resp : t.codec.resp = response
  cntFrame : t.codec.cntFrame = frameBytes.length
  cntXfer : t.codec.cntXfer = moved
  err : t.codec.err = 0x00
  done : t.codec.done = true
  result : t.codec.result = value
  trace : t.trace = s.trace ++ events
  part : t.part = s.part
  port : t.port = s.port
  inputs : t.inputs = s.inputs
  answers : t.answers = s.answers.drop (events.length - 2)
  selects : t.selects = s.selects.drop 2

/-- The device after an operation that leaves its chip state alone: only the selection bookkeeping of R115 is
written (WIP was 0 at `SEL(LOW)`). -/
def Device.untouched (d : Device) : Device := { d with sel := none, selBusy := false }

/-! ## Chip-select discipline (R109) -/

/-- Where the bus stands after a trace: deselected, or selected with `k` transfers made. -/
inductive BusMode where
  | high
  | low (transfers : Nat)
deriving DecidableEq, Repr

/-- One more event: `SEL(LOW)` and `SEL(HIGH)` alternate, transfers only while selected, one or two in each
selection (R109 ii, iii, iv). -/
def busNext (m : BusMode) (e : Event) : Option BusMode :=
  match m, e with
  | .high, .sel .low => some (.low 0)
  | .low k, .sel .high => if k = 1 ∨ k = 2 then some .high else none
  | .low k, .wr _ _ => if k < 2 then some (.low (k + 1)) else none
  | .low k, .rd _ _ _ => if k < 2 then some (.low (k + 1)) else none
  | .high, .sel .high => none
  | .high, .wr _ _ => none
  | .high, .rd _ _ _ => none
  | .low _, .sel .low => none

/-- The mode after a whole trace, none where the discipline is broken. -/
def busScan (trace : List Event) : Option BusMode :=
  trace.foldl (fun m e => m.bind fun m => busNext m e) (some .high)

/-- The counts of an event are within the request, and a read has its `m` bytes (R101). -/
def Event.legal : Event → Bool
  | .sel _ => true
  | .wr bytes k => decide (k ≤ bytes.length)
  | .rd m k data => decide (k ≤ m) && decide (data.length = m)

/-- An event without the bytes a read returned: all that the codec itself gives and the count (R101). -/
def Event.withoutData : Event → Event
  | .sel level => .sel level
  | .wr bytes k => .wr bytes k
  | .rd m k _ => .rd m k []

/-- The mode of the bus in each phase. -/
def busModeFits (phase : Phase) (m : BusMode) : Prop :=
  match phase with
  | .idle => m = .high
  | .assert => m = .high
  | .frame => m = .low 0
  | .xfer => m = .low 1
  | .deassert => m = .low 1 ∨ m = .low 2

/-- The chip-select line, the device's selection and the trace agree with the phase (R109, R115). -/
structure Disciplined (s : State) : Prop where
  cs_low_iff : s.codec.cs = .low ↔ s.codec.phase = .frame ∨ s.codec.phase = .xfer ∨ s.codec.phase = .deassert
  selected_iff : s.dev.sel.isSome = true ↔ s.codec.cs = .low
  bus : ∃ m, busScan s.trace = some m ∧ busModeFits s.codec.phase m
  transfer : s.codec.phase = .xfer → s.codec.op.xfer s.codec.n ≠ .none
  legal : ∀ e ∈ s.trace, e.legal = true

/-! ## Invariants of the machine's data -/

/-- The array is in canonical form and lists no address that does not exist (R27, R40, R50). -/
structure FlashOk (s : State) : Prop where
  canonical : s.dev.flash.wf = true
  inside : ∀ c ∈ s.dev.flash, c.1 < s.part.totalSize

/-- While nothing has gone wrong: WIP only with WEL (R159), never in power-down (R117), and no internal operation
starts inside a selection that began without one (R115). -/
structure DeviceOk (s : State) : Prop where
  wel_of_wip : s.wrong = none → s.dev.wip = true → s.dev.wel = true
  awake_of_wip : s.wrong = none → s.dev.wip = true → s.dev.pd = false
  idle_of_not_busy : s.wrong = none → s.dev.sel.isSome = true → s.dev.selBusy = false → s.dev.wip = false

/-- `err` takes two values only, and a run in which an operation ended with `err = 0x01` is marked gone wrong (R191, R192,
R206). -/
structure ErrOk (s : State) : Prop where
  codes : s.codec.err = 0x00 ∨ s.codec.err = 0x01
  marked : s.codec.phase = .idle → s.codec.err ≠ 0x00 → s.wrong.isSome = true

end Sys2Proof.Machine
end

