-- ==== Sys2Proof/Certificates/Slice0/Obligations.lean ====
section
/-! DEFINITION. The statements for the provers. Each docstring names the rules of `spec/` it formalises; "log n" marks
a clause that is the model's own choice. -/

open Sys2Proof Sys2Proof.Machine

/-! ## Encoding (`spec/30_encoding.md`) -/

/-- Frames of `spec/95_test_vectors.md` 2.8, one or more per family, decode to the operation they stand for (R83). -/
def Obligations.WorkedFramesDecode : Prop :=
  decode [0x06] 0 = .ok .wren ∧ decode [0x01, 0x9C] 0 = .ok (.wrsr 0x9C) ∧
  decode [0x03, 0xAB, 0xCD, 0xEF] 2 = .ok (.read 0xABCDEF 2) ∧
  decode [0x0B, 0x00, 0x01, 0x00, 0x00] 3 = .ok (.fastRead 0x000100 3) ∧
  decode [0x02, 0x00, 0x10, 0x00, 0xDE, 0xAD, 0xBE, 0xEF] 0 = .ok (.pp 0x001000 4 [0xDE, 0xAD, 0xBE, 0xEF]) ∧
  decode [0x20, 0x01, 0x23, 0x45] 0 = .ok (.se 0x012345) ∧ decode [0xD8, 0x01, 0x23, 0x45] 0 = .ok (.be 0x012345) ∧
  decode [0xC7] 0 = .ok .ce ∧ decode [0xB9] 0 = .ok .dp ∧ decode [0xAB] 0 = .ok .rdp ∧
  decode [0x90, 0x00, 0x00, 0x00] 0 = .ok .rddevid ∧ decode [0x9F] 0 = .ok .rdjedec ∧
  decode [] 0 = .error .empty ∧ decode [0x06, 0x00] 0 = .error (.badLength .wren) ∧
  decode [0x0B, 0x00, 0x01, 0x00, 0x01] 0 = .error (.badDummy 0x01) ∧ decode [0x52] 0 = .error (.unknownOpcode 0x52)

/-- R83: decoding the bytes a well-formed request puts on the wire gives the request back, every operand at every
value. -/
def Obligations.DecodeOfEncodeIsTheInstruction : Prop :=
  ∀ i : Instr, i.wellFormed = true → decode (encode i) i.n = .ok i

/-- R83, the other direction: a stream that decodes is the encoding of what it decodes to, so no two streams mean the
same operation; the length of a read is the count that follows. -/
def Obligations.EncodeOfDecodeIsTheStream : Prop :=
  ∀ (stream : List Byte) (n : Nat) (i : Instr), decode stream n = .ok i →
    encode i = stream ∧ i.wellFormed = true ∧ (i.op = .read ∨ i.op = .fastRead → i.n = n)

/-- R71: the words of the opcode table, numbered with byte 0 most significant, for every address and status byte. That
the operands outside the frame are 0 and empty is the model's choice (log 28). -/
def Obligations.TableWordsAreBigEndianFrames : Prop :=
  ∀ (a : Addr) (v : Byte),
    decodeTableWord 16 (0x01 * 2 ^ 8 + v.toNat) = some (.wrsr v) ∧
    decodeTableWord 32 (0x03 * 2 ^ 24 + a.toNat) = some (.read a 0) ∧
    decodeTableWord 40 (0x0B * 2 ^ 32 + a.toNat * 2 ^ 8) = some (.fastRead a 0) ∧
    decodeTableWord 32 (0x02 * 2 ^ 24 + a.toNat) = some (.pp a 0 []) ∧
    decodeTableWord 32 (0x20 * 2 ^ 24 + a.toNat) = some (.se a) ∧
    decodeTableWord 32 (0xD8 * 2 ^ 24 + a.toNat) = some (.be a)

/-- R72, R77: no two operations share an opcode, and the opcode alone fixes the frame's length. -/
def Obligations.OpcodeFixesOperationAndLength : Prop :=
  (∀ o o' : Op, o.opcode = o'.opcode → o = o') ∧
  ∀ (o : Op) (a : Addr) (v : Byte), (frame o a v).head? = some o.opcode ∧
    (frame o a v).length =
      (if o.opcode = 0x01 then 2
       else if o.opcode = 0x03 ∨ o.opcode = 0x02 ∨ o.opcode = 0x20 ∨ o.opcode = 0xD8 ∨ o.opcode = 0x90 then 4
       else if o.opcode = 0x0B then 5 else 1)

/-- R73, R42: bytes 1 to 3 of the five addressed frames are the address, most significant byte first. -/
def Obligations.AddressGoesOutMostSignificantByteFirst : Prop :=
  ∀ (o : Op) (a : Addr) (v : Byte), o = .read ∨ o = .fastRead ∨ o = .pp ∨ o = .se ∨ o = .be →
    ∃ hi mid lo : Byte, (frame o a v).take 4 = [o.opcode, hi, mid, lo] ∧
      a.toNat = 65536 * hi.toNat + 256 * mid.toNat + lo.toNat ∧ addrOf hi mid lo = a

/-! ## The Status Register decoder (`spec/41_status_commands.md`) -/

/-- R128 to R132: the fields are the bits. -/
def Obligations.StatusExtractionReadsTheBits : Prop :=
  ∀ s : Byte, srWip s = s &&& 0x01 ∧ srWel s = (s >>> 1) &&& 0x01 ∧ srBp s = (s >>> 2) &&& 0x0F ∧
    srRsv s = (s >>> 6) &&& 0x01 ∧ srSrp s = (s >>> 7) &&& 0x01

/-- R133 to R136: each injection function writes its field only, its argument masked. -/
def Obligations.StatusInjectionWritesOneField : Prop :=
  ∀ s f : Byte, srSetWip s f = (s &&& 0xFE) ||| (f &&& 0x01) ∧
    srSetWel s f = (s &&& 0xFD) ||| ((f &&& 0x01) <<< 1) ∧
    srSetBp s f = (s &&& 0xC3) ||| ((f &&& 0x0F) <<< 2) ∧
    srSetSrp s f = (s &&& 0x7F) ||| ((f &&& 0x01) <<< 7)

/-- R137: the five fields partition the byte; reading a written field gives what was written (masked), reading
another field gives what was there. -/
def Obligations.StatusDecoderLaws : Prop :=
  ∀ s f : Byte,
    s = (srWip s ||| (srWel s <<< 1) ||| (srBp s <<< 2) ||| (srRsv s <<< 6) ||| (srSrp s <<< 7)) ∧
    (srWip (srSetWip s f) = f &&& 0x01 ∧ srWel (srSetWip s f) = srWel s ∧ srBp (srSetWip s f) = srBp s ∧
      srRsv (srSetWip s f) = srRsv s ∧ srSrp (srSetWip s f) = srSrp s) ∧
    (srWel (srSetWel s f) = f &&& 0x01 ∧ srWip (srSetWel s f) = srWip s ∧ srBp (srSetWel s f) = srBp s ∧
      srRsv (srSetWel s f) = srRsv s ∧ srSrp (srSetWel s f) = srSrp s) ∧
    (srBp (srSetBp s f) = f &&& 0x0F ∧ srWip (srSetBp s f) = srWip s ∧ srWel (srSetBp s f) = srWel s ∧
      srRsv (srSetBp s f) = srRsv s ∧ srSrp (srSetBp s f) = srSrp s) ∧
    (srSrp (srSetSrp s f) = f &&& 0x01 ∧ srWip (srSetSrp s f) = srWip s ∧ srWel (srSetSrp s f) = srWel s ∧
      srBp (srSetSrp s f) = srBp s ∧ srRsv (srSetSrp s f) = srRsv s)

/-- R137, the round trip: an accepted Write Status of `SR_compose(s0, b, p)`, completion, and a Read Status give a
byte with SRP = b, BP = p, WIP = 0. -/
def Obligations.ComposedStatusReadsBack : Prop :=
  ∀ (s : State) (s0 b p : Byte), s.Ready → s.dev.pd = false → s.dev.wel = true → s.dev.srLocked = false →
    ∃ t u, exec (.wrsr (srCompose s0 b p)) s = .next t ∧ exec .rdsr (devComplete t) = .next u ∧
      srBp (u.codec.result.setWidth 8) = p &&& 0x0F ∧ srSrp (u.codec.result.setWidth 8) = b &&& 0x01 ∧
      srWip (u.codec.result.setWidth 8) = 0

/-! ## The step, and what can stop it -/

/-- The step runs the instruction asked for (R87, R55): a call of a request for `i` is `exec i` with the input used up and
the request's operands on the port; a code that is none of the 14 is not accepted (R82); every instruction has a request
for it; the host's table word is decoded and run; the pin follows its input (R54). The inputs, the code, the port and the
word's layout are the model's choice (log 2, 3, 4, 17, 20, 22, 28). -/
def Obligations.StepRunsTheDecodedInstruction : Prop :=
  (∀ (s : State) (r : Request) (rest : List Input) (i : Instr), s.inputs = .call r :: rest → r.instr = some i →
    step s = exec i { s with inputs := rest, port := r.operands }) ∧
  (∀ (s : State) (r : Request) (rest : List Input), s.inputs = .call r :: rest ∨ s.inputs = .present r :: rest →
    (∀ o : Op, r.code ≠ o.opcode) → step s = .next { s with inputs := rest, port := r.operands }) ∧
  (∀ i : Instr, i.request.instr = some i) ∧
  (∀ (s : State) (nbits w : Nat) (i : Instr), s.codec.phase = .idle → decodeTableWord nbits w = some i →
    step (s.withFetchWord nbits w) = exec i { s with port := i.request.operands }) ∧
  ∀ (s : State) (active : Bool) (rest : List Input), s.inputs = .writeProtect active :: rest →
    step s = .next { s with inputs := rest, dev := { s.dev with wp := active } }

/-- R118, R206 iii, U15: a transport call that never returns stops the machine in the phase that makes the call, select,
write and read alike (R7, R101), and so any operation that makes it; and nothing else does: no step refuses, and a fault
needs a hanging call among the next two of its kind. That a hang is a fault, and select calls hang too, is the model's
choice (log 19, 30), and so is that an operation the spec refuses (U5, U6, U8, U9) marks the run and goes on (log 8). -/
def Obligations.OnlyAHangingTransportStops : Prop :=
  (∀ s : State, (∀ r, step s ≠ .refused r) ∧
    ∀ f, step s = .fault f → Answer.never ∈ s.answers.take 2 ∨ SelectAnswer.never ∈ s.selects.take 2) ∧
  (∀ s : State, s.codec.phase = .frame ∨ (s.codec.phase = .xfer ∧ s.codec.op.xfer s.codec.n ≠ .none) →
    s.nextAnswer = .never → tick s = .fault .transportHang) ∧
  (∀ s : State, s.codec.phase = .assert ∨ s.codec.phase = .deassert → s.nextSelect = .never →
    tick s = .fault .transportHang) ∧
  ∀ (i : Instr) (s : State), i.wellFormed = true → s.codec.phase = .idle →
    SelectAnswer.never ∈ s.selects.take 2 ∨ s.nextAnswer = .never ∨
      (i.op.xfer i.n ≠ .none ∧ s.answered.nextAnswer = .never) →
    exec i s = .fault .transportHang

/-- R110, R102: while busy a request is not accepted, by the bracket as a whole, by the port, or by a call, whatever it
asks for; nor is one that S-ACCEPT's guard refuses. That the step answers a next state with the input used up (and the
operand lines as the host drove them), and `exec` the same state, is the model's choice (log 22, 17). -/
def Obligations.RequestWhileBusyHasNoEffect : Prop :=
  ∀ (s : State) (i : Instr), s.codec.phase ≠ .idle ∨ i.wellFormed = false →
    exec i s = .next s ∧ presentRequest i s = s ∧
    ∀ (r : Request) (rest : List Input), s.inputs = .call r :: rest ∨ s.inputs = .present r :: rest →
      s.codec.phase ≠ .idle ∨ r.instr = some i → step s = .next { s with inputs := rest, port := r.operands }

/-! ## The sequencer, step by step (`spec/40_bracket_sequencer.md`) -/

/-- R102, R198: S-ACCEPT of a request for `i`, where its guard holds, latches the operation and all four operands as the
request gives them, builds the frame, clears the flags and results of the operation before, and touches nothing else;
elsewhere there is no step. The input used up, the code and the port's lines are the model's (log 2, 4, 17, 22). -/
def Obligations.AcceptLatchesAndClears : Prop :=
  ∀ (s : State) (r : Request) (rest : List Input) (i : Instr), s.inputs = .present r :: rest → r.instr = some i →
    step s = .next
      { s with
        inputs := rest
        port := r.operands
        codec :=
          if s.codec.phase = .idle ∧ (i.op = .pp → r.operands.payload.length = r.operands.n) then
            { s.codec with
              op := i.op
              addr := r.operands.addr
              srIn := r.operands.srIn
              n := r.operands.n
              payload := r.operands.payload
              fb := frame i.op r.operands.addr r.operands.srIn
              resp := []
              cntFrame := 0
              cntXfer := 0
              err := 0x00
              done := false
              result := 0x0000
              phase := .assert }
          else s.codec }

/-- R103: S-ASSERT, whose select call returns, drives chip-select LOW; the device starts an empty selection and samples WIP
(R115). The list of answers to select calls is the model's (log 30). -/
def Obligations.AssertSelectsTheDevice : Prop :=
  ∀ s : State, s.codec.phase = .assert → s.nextSelect = .returns →
    tick s = .next
      { s with
        codec := { s.codec with cs := .low, phase := .frame }
        dev := { s.dev with sel := some [], selBusy := s.dev.sr.getLsbD 0 }
        selects := s.selects.tail
        trace := s.trace ++ [.sel .low] }

/-- R104, R113: S-FRAME offers the whole frame in one write, records the count, tests it, and goes to XFER exactly when
there is a transfer; the device hears the bytes that were taken (R115), and nothing else of it changes. -/
def Obligations.FrameStepWritesOnceAndTestsTheCount : Prop :=
  ∀ (s : State) (k : Nat), s.codec.phase = .frame → s.nextAnswer.count s.codec.fb.length = some k →
    ∃ t, tick s = .next t ∧ t.trace = s.trace ++ [.wr s.codec.fb k] ∧
      t.codec =
        { s.codec with
          cntFrame := k
          err := if k < s.codec.fb.length then 0x01 else s.codec.err
          phase := if s.codec.op.xfer s.codec.n = .none then .deassert else .xfer } ∧
      t.wrong = s.wrong ∧ t.dev = { s.dev with sel := s.dev.sel.map (· ++ s.codec.fb.take k) }

/-- R105: S-XFER of a read operation reads once, and the device does not change. The first `k` bytes are the device's
response as R115 gives it for `k = m`; that they are so for a short count too is the model's inference (log 24). -/
def Obligations.ReadTransferRecordsTheResponse : Prop :=
  ∀ (s : State) (m k : Nat), s.codec.phase = .xfer → s.codec.op.xfer s.codec.n = .read m →
    s.nextAnswer.count m = some k →
    ∃ t data, tick s = .next t ∧ data.length = m ∧ t.trace = s.trace ++ [.rd m k data] ∧
      (∀ j, j < k → j < (deviceResponse s m).length → data[j]? = (deviceResponse s m)[j]?) ∧
      t.codec =
        { s.codec with
          resp := data
          cntXfer := k
          err := if k < m then 0x01 else s.codec.err
          phase := .deassert } ∧
      t.wrong = s.wrong ∧ t.dev = s.dev ∧
      (s.codec.op = .rdsr → m = 1) ∧ (s.codec.op = .rddevid → m = 2) ∧ (s.codec.op = .rdjedec → m = 3) ∧
      (s.codec.op = .read ∨ s.codec.op = .fastRead → m = s.codec.n)

/-- R106: S-XFER of Page Program writes the payload once, apart from the frame; the device hears the bytes that were taken
(R115), and nothing else of it changes. -/
def Obligations.PayloadTransferIsASecondWrite : Prop :=
  ∀ (s : State) (k : Nat), s.codec.phase = .xfer → s.codec.op.xfer s.codec.n = .write →
    s.nextAnswer.count s.codec.payload.length = some k →
    ∃ t, tick s = .next t ∧ s.codec.op = .pp ∧ t.trace = s.trace ++ [.wr s.codec.payload k] ∧
      t.codec =
        { s.codec with cntXfer := k, err := if k < s.codec.n then 0x01 else s.codec.err, phase := .deassert } ∧
      t.wrong = s.wrong ∧ t.dev = { s.dev with sel := s.dev.sel.map (· ++ s.codec.payload.take k) }

/-- R107: S-DEASSERT, whose select call returns, drives chip-select HIGH whatever the counts were, decodes the result, and
ends the operation; the device is deselected (R115). The list of answers to select calls is the model's (log 30). -/
def Obligations.DeassertDecodesTheResult : Prop :=
  ∀ s : State, s.codec.phase = .deassert → s.nextSelect = .returns →
    ∃ t r, tick s = .next t ∧ t.trace = s.trace ++ [.sel .high] ∧
      t.codec = { s.codec with cs := .high, result := r, done := true, phase := .idle } ∧ t.dev.sel = none ∧
      t.selects = s.selects.tail ∧
      (s.codec.op = .rdsr → r = (s.codec.resp.getD 0 0).setWidth 16) ∧
      (s.codec.op = .rddevid → r = (s.codec.resp.getD 1 0).setWidth 16) ∧
      (s.codec.op = .rdjedec →
        r = ((s.codec.resp.getD 1 0).setWidth 16 <<< 8) ||| (s.codec.resp.getD 2 0).setWidth 16) ∧
      (s.codec.op ≠ .rdsr → s.codec.op ≠ .rddevid → s.codec.op ≠ .rdjedec → r = 0x0000)

/-- R118: every transition of the table and no other, for a codec that obeys the discipline. -/
def Obligations.PhasesFollowTheTable : Prop :=
  ∀ s t : State, Disciplined s → tick s = .next t →
    (s.codec.phase = .idle → t = s) ∧
    (s.codec.phase = .assert → t.codec.phase = .frame) ∧
    (s.codec.phase = .frame → s.codec.op.xfer s.codec.n ≠ .none → t.codec.phase = .xfer) ∧
    (s.codec.phase = .frame → s.codec.op.xfer s.codec.n = .none → t.codec.phase = .deassert) ∧
    (s.codec.phase = .xfer → t.codec.phase = .deassert) ∧
    (s.codec.phase = .deassert → t.codec.phase = .idle)

/-- R108, R113, R100: every well-formed request presented in IDLE, in any state of the device, over any transport that
returns from both select calls and answers the frame's call with `k1` bytes and the transfer's, if there is one, with
`k2`, runs the whole bracket: its events, counts, error code, response, result and flags. The latches are the request's
four operands (log 17). -/
def Obligations.OperationRunsItsWholeBracket : Prop :=
  ∀ (i : Instr) (s : State) (k1 k2 : Nat), i.wellFormed = true → s.codec.phase = .idle →
    SelectAnswer.never ∉ s.selects.take 2 → s.nextAnswer.count (frame i.op i.addr i.srIn).length = some k1 →
    (match i.op.xfer i.n with
      | .none => k2 = 0
      | .read m => s.answered.nextAnswer.count m = some k2
      | .write => s.answered.nextAnswer.count i.n = some k2) →
    ∃ t data, exec i s = .next t ∧ k1 ≤ (frame i.op i.addr i.srIn).length ∧
      (match i.op.xfer i.n with
        | .none => data = [] ∧
            t.trace = s.trace ++ [.sel .low, .wr (frame i.op i.addr i.srIn) k1, .sel .high] ∧
            t.codec.err = if k1 < (frame i.op i.addr i.srIn).length then 0x01 else 0x00
        | .read m => k2 ≤ m ∧ data.length = m ∧
            t.trace = s.trace ++ [.sel .low, .wr (frame i.op i.addr i.srIn) k1, .rd m k2 data, .sel .high] ∧
            t.codec.err = if k1 < (frame i.op i.addr i.srIn).length ∨ k2 < m then 0x01 else 0x00
        | .write => k2 ≤ i.n ∧ data = [] ∧
            t.trace = s.trace ++ [.sel .low, .wr (frame i.op i.addr i.srIn) k1, .wr i.payload k2, .sel .high] ∧
            t.codec.err = if k1 < (frame i.op i.addr i.srIn).length ∨ k2 < i.n then 0x01 else 0x00) ∧
      t.codec.op = i.op ∧ t.codec.addr = (i.latched s.port).addr ∧ t.codec.srIn = (i.latched s.port).srIn ∧
      t.codec.n = (i.latched s.port).n ∧ t.codec.payload = (i.latched s.port).payload ∧
      t.codec.fb = frame i.op i.addr i.srIn ∧ t.codec.cntFrame = k1 ∧ t.codec.cntXfer = k2 ∧
      t.codec.resp = data ∧ t.codec.result = decodeResult i.op data ∧ t.codec.done = true ∧
      t.codec.cs = .high ∧ t.codec.phase = .idle ∧ t.part = s.part ∧ t.port = s.port ∧ t.inputs = s.inputs ∧
      t.selects = s.selects.drop 2 ∧
      (s.PerfectTransport → t.codec.err = 0x00)

/-- R10, R78: what the codec's registers hold when an operation is accepted changes nothing of what it does: not its
frame, its events, its results, nor the device. -/
def Obligations.EarlierOperationsLeaveNoTrace : Prop :=
  ∀ (i : Instr) (s : State) (c : Codec), i.wellFormed = true → s.codec.phase = .idle → c.phase = .idle →
    exec i { s with codec := c } = exec i s

/-- R117, R193: the codec cannot tell an accepted operation from an ignored one. Two machines that differ in the
device, the part, the mark, the inputs and the draws only end with the same codec and the same trace, but for the bytes a
read returned (and the result decoded from them). -/
def Obligations.CodecCannotSeeTheDevice : Prop :=
  ∀ (i : Instr) (s s' t : State), s'.codec = s.codec → s'.port = s.port → s'.answers = s.answers →
    s'.selects = s.selects → s'.trace = s.trace → exec i s = .next t →
    ∃ t', exec i s' = .next t' ∧
      t'.codec = { t.codec with resp := t'.codec.resp, result := t'.codec.result } ∧
      t'.codec.resp.length = t.codec.resp.length ∧
      t'.trace.map Event.withoutData = t.trace.map Event.withoutData ∧
      ((∀ m, i.op.xfer i.n ≠ .read m) → t'.codec = t.codec ∧ t'.trace = t.trace)

/-- R108 from R102 to R107 and R116: a blocking call is a run of small steps: S-ACCEPT, then sequencer steps, with
DEV-COMPLETE steps in between where the device completes; same outcome, same state. The two forms of the input, and when
the device completes inside a call, are the model's choice (log 2, 5). -/
def Obligations.CallIsARunOfSmallSteps : Prop :=
  ∀ (s : State) (r : Request) (rest : List Input) (i : Instr), s.codec.phase = .idle → r.instr = some i →
    ∃ later : List Input, (∀ x ∈ later, x = .wait ∨ x = .complete) ∧
      Host.Core.run Sys2Proof.core (later.length + 1) { s with inputs := .present r :: later ++ rest } =
        step { s with inputs := .call r :: rest }

/-! ## Invariants every step keeps -/

/-- R109: the chip-select discipline. -/
def Obligations.ChipSelectDisciplineIsKept : Prop :=
  ∀ s t : State, Disciplined s → step s = .next t → Disciplined t

/-- R27, R40, R50: the array keeps its canonical form and lists only addresses that exist, whatever is programmed,
erased or lost. -/
def Obligations.FlashStaysCanonicalAndInside : Prop :=
  ∀ s t : State, FlashOk s → step s = .next t → FlashOk t

/-- R117, R159: while nothing has gone wrong, WIP = 1 only with WEL = 1 and never in power-down. -/
def Obligations.BusyDeviceIsEnabledAndAwake : Prop :=
  ∀ s t : State, DeviceOk s → step s = .next t → DeviceOk t

/-- R191, R192, R206: `err` takes two values, and a run in which an operation ended with `err = 0x01` is marked; the mark,
once set, stays as it is, in every step and every operation (the mark and its content are the model's: log 8, 9). -/
def Obligations.ErrorCodeIsMarked : Prop :=
  (∀ s t : State, ErrOk s → step s = .next t → ErrOk t) ∧
  ∀ (s t : State) (w : GoneWrong), s.wrong = some w →
    (step s = .next t → t.wrong = some w) ∧ ∀ i : Instr, exec i s = .next t → t.wrong = some w

/-- The four invariants hold at reset: the discipline (R109, R31), and the data invariants with the model's launch
values (log 12, 13, 14, 29). -/
def Obligations.InvariantsAtReset : Prop :=
  Disciplined State.reset ∧ FlashOk State.reset ∧ DeviceOk State.reset ∧ ErrOk State.reset

/-- R4, R5: the part at launch meets the constraints on the parameters, and no step changes the part. -/
def Obligations.PartIsWellFormedAndFixed : Prop :=
  Config.part.wf = true ∧ (∀ s t : State, step s = .next t → t.part = s.part)

/-- R24: no step changes the reserved bit 6 of the Status Register, while nothing has gone wrong. -/
def Obligations.ReservedBitIsPreserved : Prop :=
  ∀ s t : State, step s = .next t → t.wrong = none → t.dev.sr.getLsbD 6 = s.dev.sr.getLsbD 6

/-- R20, R26: no operation but Write Status changes BP or SRP, and Write Status changes no bit but BP, SRP, WEL and
WIP. -/
def Obligations.ProtectionBitsChangeByWriteStatusOnly : Prop :=
  ∀ (i : Instr) (s t : State), exec i s = .next t → t.wrong = none →
    (i.op ≠ .wrsr → t.dev.sr &&& 0xBC = s.dev.sr &&& 0xBC) ∧
    (∀ v, i = .wrsr v → s.codec.phase = .idle →
      t.dev.sr &&& 0xBC = s.dev.sr &&& 0xBC ∨ t.dev.sr &&& 0xBC = v &&& 0xBC)

/-- R41, R47, R49, R60: the array changes by PP, SE, BE and CE only, and by the first three only inside the page,
sector or block of the operand; whatever the device's state, acceptance or not. -/
def Obligations.ArrayChangesOnlyInTheOperandsUnit : Prop :=
  ∀ (i : Instr) (s t : State) (x : Nat), s.dev.flash.wf = true → exec i s = .next t → t.wrong = none →
    (i.op ≠ .pp → i.op ≠ .se → i.op ≠ .be → i.op ≠ .ce → t.dev.flash = s.dev.flash) ∧
    (i.op = .pp → x / 256 ≠ i.addr.toNat / 256 → t.dev.flash.read x = s.dev.flash.read x) ∧
    (i.op = .se → x / 4096 ≠ i.addr.toNat / 4096 → t.dev.flash.read x = s.dev.flash.read x) ∧
    (i.op = .be → x / 65536 ≠ i.addr.toNat / 65536 → t.dev.flash.read x = s.dev.flash.read x)

/-- R28, R117, R205: an operation other than RDP, issued in power-down, changes nothing of the chip: only the
selection bookkeeping is written. That a Page Program or erase with an address outside the array, or a payload of 0 or more
than 256 bytes, is ignored and unmarked there too is the model's inference (log 21). -/
def Obligations.AsleepOnlyReleaseIsObeyed : Prop :=
  ∀ (i : Instr) (s : State), s.Ready → s.dev.pd = true → i.wellFormed = true → i ≠ .rdp →
    ∃ t, exec i s = .next t ∧ t.codec.done = true ∧ t.codec.err = 0x00 ∧ t.wrong = none ∧ t.dev = s.dev.untouched

/-- R117, U16: at the end of a selection that began with WIP = 1, no operation changes the chip; where the internal
operation ended inside it, WREN, WRDI, DP and RDP may be taken or ignored, and the others are ignored. That a program or
erase without meaning (address outside, bad length) is ignored and unmarked there too is the model's inference (log 21). -/
def Obligations.BusySelectionIsIgnored : Prop :=
  ∀ (i : Instr) (s : State), s.codec.phase = .deassert → s.nextSelect = .returns → s.codec.err = 0x00 → s.Ok →
    decode (s.dev.sel.getD []) 0 = .ok i → s.dev.selBusy = true →
    ∃ t, tick s = .next t ∧ t.wrong = none ∧
      (t.dev = { s.dev with sel := none } ∨
        (s.dev.wip = false ∧
          ((i = .wren ∧ s.dev.pd = false ∧ t.dev = { s.dev with sel := none, sr := s.dev.sr ||| 0x02 }) ∨
           (i = .wrdi ∧ s.dev.pd = false ∧ t.dev = { s.dev with sel := none, sr := s.dev.sr &&& 0xFD }) ∨
           (i = .dp ∧ s.dev.pd = false ∧ t.dev = { s.dev with sel := none, pd := true }) ∨
           (i = .rdp ∧ t.dev = { s.dev with sel := none, pd := false }))))

/-! ## DEV-COMPLETE and reset -/

/-- R116, R57: DEV-COMPLETE clears WIP and WEL where WIP = 1, is not enabled otherwise, and touches nothing else, in any
phase of the codec; and it comes: every infinite run is weakly fair, and a caller that polls the status of an awake device
(R58) reads WIP = 0 after finitely many polls. How the promise is kept, by an operation's finite free duration, is the
model's (log 5); the promise itself is the spec's assumption D23. -/
def Obligations.CompletionClearsWipAndWel : Prop :=
  (∀ (s : State) (rest : List Input), s.inputs = .complete :: rest → s.Ok →
    (s.dev.sr.getLsbD 0 = true →
      step s = .next { s with inputs := rest, dev := { s.dev with sr := s.dev.sr &&& 0xFC } }) ∧
    (s.dev.sr.getLsbD 0 = false → step s = .next { s with inputs := rest })) ∧
  (∀ r : Nat → State, IsRun r → WeaklyFair r) ∧
  ∀ s : State, s.codec.phase = .idle → s.PerfectTransport → s.Ok → s.dev.pd = false →
    ∃ n t, 0 < n ∧
      Host.Core.run Sys2Proof.core n { s with inputs := List.replicate n (.call Instr.rdsr.request) } = .next t ∧
      t.codec.done = true ∧ srWip (t.codec.result.setWidth 8) = 0 ∧ t.wrong = none ∧
      t.dev.sr = (if s.dev.wip then s.dev.sr &&& 0xFC else s.dev.sr)

/-- R210, R31: the codec's reset gives the registers their values, emits no event and does not reach the device; while an
operation is in flight its selection is cut and the run is marked (U11). That the trace starts anew, no event being added,
is the model's choice (log 10), and so is the mark's content; an earlier mark stays. -/
def Obligations.ResetReachesTheCodecOnly : Prop :=
  ∀ (s : State) (rest : List Input), s.inputs = .reset :: rest →
    ∃ t, step s = .next t ∧ t.codec.phase = .idle ∧ t.codec.cs = .high ∧ t.codec.err = 0x00 ∧
      t.codec.done = false ∧ t.codec.cntFrame = 0 ∧ t.codec.cntXfer = 0 ∧ t.codec.result = 0x0000 ∧
      t.codec.resp = [] ∧ t.dev.sel = none ∧ t.part = s.part ∧ t.trace = [] ∧ t.port = s.port ∧ t.inputs = rest ∧
      t.answers = s.answers ∧ t.selects = s.selects ∧ (∀ w, s.wrong = some w → t.wrong = some w) ∧
      (s.codec.phase = .idle → t.dev = { s.dev with sel := none } ∧ t.wrong = s.wrong) ∧
      (s.codec.phase ≠ .idle → t.wrong.isSome = true)

/-! ## Status operations (`spec/41_status_commands.md`)

The statements about `SEL(HIGH)` here and below take R192's premise: nothing has gone wrong, and no count of the operation
fell short (`err = 0x00`); and the select call returns (R118; log 30). -/

/-- R121, R117: WREN's effect at `SEL(HIGH)`. -/
def Obligations.WriteEnableEffect : Prop :=
  ∀ s : State, s.codec.phase = .deassert → s.nextSelect = .returns → s.codec.err = 0x00 → s.Ok →
    s.dev.sel = some [0x06] →
    ∃ t, tick s = .next t ∧ t.wrong = none ∧
      (s.dev.pd = false → s.dev.selBusy = false →
        t.dev = { s.dev with sel := none, sr := s.dev.sr ||| 0x02 }) ∧
      (s.dev.pd = true ∨ (s.dev.selBusy = true ∧ s.dev.wip = true) → t.dev = { s.dev with sel := none }) ∧
      (t.dev = { s.dev with sel := none } ∨ t.dev = { s.dev with sel := none, sr := s.dev.sr ||| 0x02 })

/-- R123, R117: WRDI's effect at `SEL(HIGH)`. -/
def Obligations.WriteDisableEffect : Prop :=
  ∀ s : State, s.codec.phase = .deassert → s.nextSelect = .returns → s.codec.err = 0x00 → s.Ok →
    s.dev.sel = some [0x04] →
    ∃ t, tick s = .next t ∧ t.wrong = none ∧
      (s.dev.pd = false → s.dev.selBusy = false →
        t.dev = { s.dev with sel := none, sr := s.dev.sr &&& 0xFD }) ∧
      (s.dev.pd = true ∨ (s.dev.selBusy = true ∧ s.dev.wip = true) → t.dev = { s.dev with sel := none }) ∧
      (t.dev = { s.dev with sel := none } ∨ t.dev = { s.dev with sel := none, sr := s.dev.sr &&& 0xFD })

/-- R127, R26, R54: WRSR's effect at `SEL(HIGH)`: when it is accepted, what it writes, and that otherwise it is
ignored. -/
def Obligations.WriteStatusEffect : Prop :=
  ∀ (s : State) (v : Byte), s.codec.phase = .deassert → s.nextSelect = .returns → s.codec.err = 0x00 → s.Ok →
    s.dev.sel = some [0x01, v] →
    ∃ t, tick s = .next t ∧ t.wrong = none ∧
      t.dev =
        (if s.dev.pd = false ∧ s.dev.selBusy = false ∧ s.dev.sr.getLsbD 1 = true ∧
            ¬(s.dev.sr.getLsbD 7 = true ∧ s.dev.wp = true) then
          { s.dev with
            sel := none
            sr :=
              if s.part.wrsrBusy then ((s.dev.sr &&& 0x43) ||| (v &&& 0xBC)) ||| 0x01
              else ((s.dev.sr &&& 0x43) ||| (v &&& 0xBC)) &&& 0xFD }
        else { s.dev with sel := none })

/-- R125: Read Status gets the current SR, all 8 bits, whatever WIP is, at the moment of the read, and a free byte in
power-down; no device state changes, at the read or at `SEL(HIGH)`. -/
def Obligations.ReadStatusResponse : Prop :=
  (∀ s : State, s.codec.phase = .xfer → s.codec.op = .rdsr → s.dev.sel = some [0x05] → s.Ok →
    s.nextAnswer = .exact →
    ∃ t b, tick s = .next t ∧ t.codec.resp = [b] ∧ (s.dev.pd = false → b = s.dev.sr) ∧ t.dev = s.dev ∧
      t.wrong = none) ∧
  ∀ s : State, s.codec.phase = .deassert → s.nextSelect = .returns → s.codec.err = 0x00 → s.dev.sel = some [0x05] → s.Ok →
    ∃ t, tick s = .next t ∧ t.dev = { s.dev with sel := none } ∧ t.wrong = none

/-- R120, R121: Write Enable completes: trace, registers, WEL set, nothing else of the chip changed. -/
def Obligations.WrenCompletes : Prop :=
  ∀ s : State, s.Ready → s.dev.pd = false →
    ∃ t, exec .wren s = .next t ∧
      Finished s t .wren [0x06] [] 0 0x0000 [.sel .low, .wr [0x06] 1, .sel .high] ∧ t.wrong = none ∧
      t.dev = { s.dev.untouched with sr := s.dev.sr ||| 0x02 }

/-- R122, R123: Write Disable completes: WEL cleared, nothing else of the chip changed. -/
def Obligations.WrdiCompletes : Prop :=
  ∀ s : State, s.Ready → s.dev.pd = false →
    ∃ t, exec .wrdi s = .next t ∧
      Finished s t .wrdi [0x04] [] 0 0x0000 [.sel .low, .wr [0x04] 1, .sel .high] ∧ t.wrong = none ∧
      t.dev = { s.dev.untouched with sr := s.dev.sr &&& 0xFD }

/-- R124, R125: Read Status completes at any time, mid-erase and mid-program included: `result` is the status byte as
it stood at the read, which the internal operation may have ended before. -/
def Obligations.RdsrCompletesAtAnyTime : Prop :=
  ∀ s : State, s.codec.phase = .idle → s.PerfectTransport → s.Ok → s.dev.pd = false →
    ∃ t v, exec .rdsr s = .next t ∧
      Finished s t .rdsr [0x05] [v] 1 (v.setWidth 16) [.sel .low, .wr [0x05] 1, .rd 1 1 [v], .sel .high] ∧
      t.wrong = none ∧ (v = s.dev.sr ∨ (s.dev.wip = true ∧ v = s.dev.sr &&& 0xFC)) ∧
      (t.dev.sr = v ∨ (s.dev.wip = true ∧ t.dev.sr = s.dev.sr &&& 0xFC)) ∧
      t.dev = { s.dev with sel := none, sr := t.dev.sr, selBusy := t.dev.selBusy }

/-- R126, R127: Write Status completes: SRP and BP written when it is accepted, bits 6, 1 and 0 as the rule says;
without WEL, locked or asleep it is ignored, and the codec's side is the same. -/
def Obligations.WrsrCompletes : Prop :=
  ∀ (s : State) (v : Byte), s.Ready →
    ∃ t, exec (.wrsr v) s = .next t ∧
      Finished s t (.wrsr v) [0x01, v] [] 0 0x0000 [.sel .low, .wr [0x01, v] 2, .sel .high] ∧ t.wrong = none ∧
      (s.dev.pd = false → s.dev.wel = true → s.dev.srLocked = false →
        t.dev =
          { s.dev.untouched with
            sr :=
              if s.part.wrsrBusy then ((s.dev.sr &&& 0x43) ||| (v &&& 0xBC)) ||| 0x01
              else ((s.dev.sr &&& 0x43) ||| (v &&& 0xBC)) &&& 0xFD }) ∧
      (s.dev.pd = true ∨ s.dev.wel = false ∨ s.dev.srLocked = true → t.dev = s.dev.untouched)

/-! ## Read operations (`spec/42_read_commands.md`) -/

/-- R140, R144, R44: Read Data completes for any address and length: `resp[i]` is the content of `addr + i` below
`TOTAL_SIZE`, and nothing of the chip changes. In power-down the bytes are free (R117). -/
def Obligations.ReadCompletes : Prop :=
  ∀ (s : State) (a : Addr) (n : Nat), s.Ready →
    ∃ t data, exec (.read a n) s = .next t ∧ data.length = n ∧
      Finished s t (.read a n) [0x03, addrHi a, addrMid a, addrLo a] data n 0x0000
        [.sel .low, .wr [0x03, addrHi a, addrMid a, addrLo a] 4, .rd n n data, .sel .high] ∧
      (s.dev.pd = false → ∀ j, j < n → a.toNat + j < s.part.totalSize →
        data[j]? = some (s.dev.flash.read (a.toNat + j))) ∧
      t.wrong = none ∧ t.dev = s.dev.untouched

/-- R142, R143, R144: Fast Read completes: the frame has the dummy byte, the response is Read Data's. -/
def Obligations.FastReadCompletes : Prop :=
  ∀ (s : State) (a : Addr) (n : Nat), s.Ready →
    ∃ t data, exec (.fastRead a n) s = .next t ∧ data.length = n ∧
      Finished s t (.fastRead a n) [0x0B, addrHi a, addrMid a, addrLo a, 0x00] data n 0x0000
        [.sel .low, .wr [0x0B, addrHi a, addrMid a, addrLo a, 0x00] 5, .rd n n data, .sel .high] ∧
      (s.dev.pd = false → ∀ j, j < n → a.toNat + j < s.part.totalSize →
        data[j]? = some (s.dev.flash.read (a.toNat + j))) ∧
      t.wrong = none ∧ t.dev = s.dev.untouched

/-! ## Program and erase operations (`spec/43_program_erase_commands.md`) -/

/-- R47: the first 256 targets of a Page Program are distinct, all in the page of its address, and run on from it
until the page ends. -/
def Obligations.PageWrapTargets : Prop :=
  ∀ (a : Addr) (j k : Nat), j < 256 → k < 256 →
    (target a j = target a k → j = k) ∧ (target a j).toNat / 256 = a.toNat / 256 ∧
    (a.toNat % 256 + j < 256 → (target a j).toNat = a.toNat + j) ∧
    (256 ≤ a.toNat % 256 + j → (target a j).toNat + 256 = a.toNat + j)

/-- R150, R151, R63, R158: an accepted Page Program of 1 to 256 bytes: payload byte `j` at the `j`-th target where it
was erased, every byte that is no target as before, WIP set, WEL kept. -/
def Obligations.PpCompletes : Prop :=
  ∀ (s : State) (a : Addr) (payload : List Byte) (r : BpRange), s.Ready → s.dev.pd = false → s.dev.wel = true →
    s.dev.flash.wf = true → a.toNat < s.part.totalSize → bpLookup s.part s.dev.bp = some r →
    bpProtects r (block a) = false → 1 ≤ payload.length → payload.length ≤ 256 →
    ∃ t, exec (.pp a payload.length payload) s = .next t ∧
      Finished s t (.pp a payload.length payload) [0x02, addrHi a, addrMid a, addrLo a] [] payload.length 0x0000
        [.sel .low, .wr [0x02, addrHi a, addrMid a, addrLo a] 4, .wr payload payload.length, .sel .high] ∧
      t.wrong = none ∧
      t.dev = { s.dev.untouched with sr := s.dev.sr ||| 0x01, flash := t.dev.flash } ∧
      (∀ j b, payload[j]? = some b → s.dev.flash.read (target a j).toNat = 0xFF →
        t.dev.flash.read (target a j).toNat = b) ∧
      (∀ x, (∀ j, j < payload.length → x ≠ (target a j).toNat) → t.dev.flash.read x = s.dev.flash.read x)

/-- R152, R153, R158: an accepted Sector Erase: the 4096 bytes of the sector read 0xFF, every other byte as before. -/
def Obligations.SeCompletes : Prop :=
  ∀ (s : State) (a : Addr) (r : BpRange), s.Ready → s.dev.pd = false → s.dev.wel = true →
    a.toNat < s.part.totalSize → bpLookup s.part s.dev.bp = some r → bpProtects r (block a) = false →
    ∃ t, exec (.se a) s = .next t ∧
      Finished s t (.se a) [0x20, addrHi a, addrMid a, addrLo a] [] 0 0x0000
        [.sel .low, .wr [0x20, addrHi a, addrMid a, addrLo a] 4, .sel .high] ∧
      t.wrong = none ∧
      t.dev = { s.dev.untouched with sr := s.dev.sr ||| 0x01, flash := t.dev.flash } ∧
      (∀ x, x / 4096 = a.toNat / 4096 → t.dev.flash.read x = 0xFF) ∧
      (∀ x, x / 4096 ≠ a.toNat / 4096 → t.dev.flash.read x = s.dev.flash.read x)

/-- R154, R155, R158: an accepted Block Erase: the 65536 bytes of the block read 0xFF, every other byte as before. -/
def Obligations.BeCompletes : Prop :=
  ∀ (s : State) (a : Addr) (r : BpRange), s.Ready → s.dev.pd = false → s.dev.wel = true →
    a.toNat < s.part.totalSize → bpLookup s.part s.dev.bp = some r → bpProtects r (block a) = false →
    ∃ t, exec (.be a) s = .next t ∧
      Finished s t (.be a) [0xD8, addrHi a, addrMid a, addrLo a] [] 0 0x0000
        [.sel .low, .wr [0xD8, addrHi a, addrMid a, addrLo a] 4, .sel .high] ∧
      t.wrong = none ∧
      t.dev = { s.dev.untouched with sr := s.dev.sr ||| 0x01, flash := t.dev.flash } ∧
      (∀ x, x / 65536 = a.toNat / 65536 → t.dev.flash.read x = 0xFF) ∧
      (∀ x, x / 65536 ≠ a.toNat / 65536 → t.dev.flash.read x = s.dev.flash.read x)

/-- R156, R157, R158: an accepted Chip Erase: every byte of the array reads 0xFF. -/
def Obligations.CeCompletes : Prop :=
  ∀ (s : State) (r : BpRange), s.Ready → s.dev.pd = false → s.dev.wel = true →
    bpLookup s.part s.dev.bp = some r → (∀ b, b < s.part.nBlocks → bpProtects r b = false) →
    ∃ t, exec .ce s = .next t ∧
      Finished s t .ce [0xC7] [] 0 0x0000 [.sel .low, .wr [0xC7] 1, .sel .high] ∧ t.wrong = none ∧
      t.dev = { s.dev.untouched with sr := s.dev.sr ||| 0x01, flash := t.dev.flash } ∧
      (∀ x, x < s.part.totalSize → t.dev.flash.read x = 0xFF) ∧
      (∀ x, s.part.totalSize ≤ x → t.dev.flash.read x = s.dev.flash.read x)

/-- R158, R117, R213: a program or erase of a sleeping device, or without WEL, is ignored: the codec ends as ever, the
chip is unchanged. That this comes before any check of the address, the BP value or the payload's length, so that an
operation without meaning is ignored and unmarked too, is the model's inference (log 21). -/
def Obligations.ProgramEraseWithoutEnableIsIgnored : Prop :=
  ∀ (i : Instr) (s : State), i.op = .pp ∨ i.op = .se ∨ i.op = .be ∨ i.op = .ce → i.wellFormed = true → s.Ready →
    s.dev.pd = true ∨ s.dev.wel = false →
    ∃ t, exec i s = .next t ∧ t.codec.done = true ∧ t.codec.err = 0x00 ∧ t.wrong = none ∧ t.dev = s.dev.untouched

/-- R53, R158: a program or erase whose unit is protected is ignored, but for WEL under `WEL_CLEARS_ON_REJECT`. That a Page
Program of 0 or more than 256 bytes is so too, protection being asked before the length, is the model's inference
(log 21). -/
def Obligations.ProtectedTargetIsIgnored : Prop :=
  ∀ (i : Instr) (s : State) (r : BpRange), i.wellFormed = true → s.Ready → s.dev.pd = false → s.dev.wel = true →
    bpLookup s.part s.dev.bp = some r →
    ((i.op = .pp ∨ i.op = .se ∨ i.op = .be) ∧ i.addr.toNat < s.part.totalSize ∧ bpProtects r (block i.addr) = true) ∨
      (i.op = .ce ∧ ∃ b, b < s.part.nBlocks ∧ bpProtects r b = true) →
    ∃ t, exec i s = .next t ∧ t.codec.done = true ∧ t.codec.err = 0x00 ∧ t.wrong = none ∧
      t.dev =
        { s.dev.untouched with sr := if s.part.welClearsOnReject then s.dev.sr &&& 0xFD else s.dev.sr }

/-- The operations the reference device gives no meaning (R51, R53, R63, R206 ii): the codec's side completes as the
codec rules say, and the run is marked (log 8, 21). -/
def Obligations.OperationWithoutMeaningMarksTheRun : Prop :=
  ∀ (i : Instr) (s : State), i.wellFormed = true → s.Ready → s.dev.pd = false → s.dev.wel = true →
    ∃ t, exec i s = .next t ∧ t.codec.done = true ∧ t.codec.err = 0x00 ∧ t.codec.cs = .high ∧
      ((i.op = .pp ∨ i.op = .se ∨ i.op = .be) → s.part.totalSize ≤ i.addr.toNat →
        t.wrong = some .addressOutside) ∧
      ((i.op = .pp ∨ i.op = .se ∨ i.op = .be) → i.addr.toNat < s.part.totalSize →
        bpLookup s.part s.dev.bp = none → t.wrong = some .bpInvalid) ∧
      (i.op = .ce → bpLookup s.part s.dev.bp = none → t.wrong = some .bpInvalid) ∧
      (∀ r, i.op = .pp → i.addr.toNat < s.part.totalSize → bpLookup s.part s.dev.bp = some r →
        bpProtects r (block i.addr) = false → i.n = 0 ∨ 256 < i.n → t.wrong = some .programLength)

/-! ## Power operations (`spec/44_power_commands.md`) -/

/-- R171, R117: DP's effect at `SEL(HIGH)`. -/
def Obligations.PowerDownEffect : Prop :=
  ∀ s : State, s.codec.phase = .deassert → s.nextSelect = .returns → s.codec.err = 0x00 → s.Ok →
    s.dev.sel = some [0xB9] →
    ∃ t, tick s = .next t ∧ t.wrong = none ∧
      (s.dev.selBusy = false → t.dev = { s.dev with sel := none, pd := true }) ∧
      (s.dev.selBusy = true → s.dev.wip = true → t.dev = { s.dev with sel := none }) ∧
      (t.dev = { s.dev with sel := none } ∨ t.dev = { s.dev with sel := none, pd := true })

/-- R173, R117: RDP's effect at `SEL(HIGH)`; it is the only operation obeyed in power-down. -/
def Obligations.ReleasePowerDownEffect : Prop :=
  ∀ s : State, s.codec.phase = .deassert → s.nextSelect = .returns → s.codec.err = 0x00 → s.Ok →
    s.dev.sel = some [0xAB] →
    ∃ t, tick s = .next t ∧ t.wrong = none ∧
      (s.dev.selBusy = false → t.dev = { s.dev with sel := none, pd := false }) ∧
      (s.dev.selBusy = true → s.dev.wip = true → t.dev = { s.dev with sel := none }) ∧
      (t.dev = { s.dev with sel := none } ∨ t.dev = { s.dev with sel := none, pd := false })

/-- R170 to R173: Power Down and Release Power Down complete, awake or asleep; SR and the array stay. -/
def Obligations.DpAndRdpComplete : Prop :=
  ∀ s : State, s.Ready →
    (∃ t, exec .dp s = .next t ∧
      Finished s t .dp [0xB9] [] 0 0x0000 [.sel .low, .wr [0xB9] 1, .sel .high] ∧ t.wrong = none ∧
      t.dev = { s.dev.untouched with pd := true }) ∧
    (∃ t, exec .rdp s = .next t ∧
      Finished s t .rdp [0xAB] [] 0 0x0000 [.sel .low, .wr [0xAB] 1, .sel .high] ∧ t.wrong = none ∧
      t.dev = { s.dev.untouched with pd := false })

/-! ## Identification operations (`spec/45_identification_commands.md`) -/

/-- R180, R181, R184: Read Device ID completes: `result` is the device ID, the manufacturer ID stays in `resp`,
nothing is compared. -/
def Obligations.RddevidCompletes : Prop :=
  ∀ s : State, s.Ready → s.dev.pd = false →
    ∃ t, exec .rddevid s = .next t ∧
      Finished s t .rddevid [0x90, 0x00, 0x00, 0x00] [s.part.mfrId, s.part.devId] 2 (s.part.devId.setWidth 16)
        [.sel .low, .wr [0x90, 0x00, 0x00, 0x00] 4, .rd 2 2 [s.part.mfrId, s.part.devId], .sel .high] ∧
      t.wrong = none ∧ t.dev = s.dev.untouched

/-- R182, R183, R184: Read JEDEC ID completes: `result` is the memory type in the high byte, the capacity in the
low. -/
def Obligations.RdjedecCompletes : Prop :=
  ∀ s : State, s.Ready → s.dev.pd = false →
    ∃ t, exec .rdjedec s = .next t ∧
      Finished s t .rdjedec [0x9F] [s.part.mfrId, s.part.memType, s.part.capacity] 3
        ((s.part.memType.setWidth 16 <<< 8) ||| s.part.capacity.setWidth 16)
        [.sel .low, .wr [0x9F] 1, .rd 3 3 [s.part.mfrId, s.part.memType, s.part.capacity], .sel .high] ∧
      t.wrong = none ∧ t.dev = s.dev.untouched
end

