-- ==== Sys2Proof/Laws/Encoding.lean ====
section
/-! SUPPORT. The address field and the opcode map: each function undoes the other (R73, R72); and what a request latches
(R87, R79). -/

namespace Sys2Proof

/-- The three address bytes give the address back (R73). -/
theorem addrOf_bytes (a : Addr) : addrOf (addrHi a) (addrMid a) (addrLo a) = a := by
  ext i hi
  simp only [addrOf, addrHi, addrMid, addrLo]
  interval_cases i <;> simp

theorem addrHi_addrOf (hi mid lo : Byte) : addrHi (addrOf hi mid lo) = hi := by
  ext i h
  simp only [addrOf, addrHi]
  interval_cases i <;> simp

theorem addrMid_addrOf (hi mid lo : Byte) : addrMid (addrOf hi mid lo) = mid := by
  ext i h
  simp only [addrOf, addrMid]
  interval_cases i <;> simp

theorem addrLo_addrOf (hi mid lo : Byte) : addrLo (addrOf hi mid lo) = lo := by
  ext i h
  simp only [addrOf, addrLo]
  interval_cases i <;> simp

/-- Each opcode selects its operation (R72). -/
theorem ofOpcode_opcode (o : Op) : Op.ofOpcode o.opcode = some o := by cases o <;> decide

/-- A byte that selects an operation is its opcode. -/
theorem eq_opcode_of_ofOpcode (b : Byte) (o : Op) (h : Op.ofOpcode b = some o) : b = o.opcode :=
  (beq_iff_eq.1 (List.find?_some (p := fun o : Op => o.opcode == b) h)).symm

/-! ## Requests -/

/-- The frame does not see the operands the operation does not use (R78, R79). -/
theorem frame_latched (i : Instr) (port : Operands) :
    frame i.op (i.latched port).addr (i.latched port).srIn = frame i.op i.addr i.srIn := by cases i <;> rfl

/-- Nor does the transfer descriptor (R79). -/
theorem xfer_latched (i : Instr) (port : Operands) : i.op.xfer (i.latched port).n = i.op.xfer i.n := by cases i <;> rfl

/-- The payload that is written is the operation's own (R79). -/
theorem payload_latched (i : Instr) (port : Operands) (h : i.op.xfer i.n = .write) :
    (i.latched port).payload = i.payload ∧ (i.latched port).n = i.n := by
  cases i <;> first | exact ⟨rfl, rfl⟩ | cases h

/-- A request for an operation asks for it. -/
theorem instr_request (i : Instr) : i.request.instr = some i := by
  cases i <;> simp [Request.instr, Instr.request, ofOpcode_opcode, Instr.op, Instr.latched]

/-- All that a request with a known code asks for: its own four operands are latched (R102), and its code is the
operation's. -/
theorem latched_operands (r : Request) (i : Instr) (h : r.instr = some i) :
    i.latched r.operands = r.operands ∧ r.code = i.op.opcode := by
  obtain ⟨code, a, v, n, p⟩ := r
  unfold Request.instr at h
  cases ho : Op.ofOpcode code with
  | none => simp [ho] at h
  | some o =>
    have hc := eq_opcode_of_ofOpcode code o ho
    simp only [ho, Option.map_some, Option.some.injEq] at h
    subst h
    cases o <;> exact ⟨rfl, hc⟩

end Sys2Proof
end

