-- ==== Sys2Proof/Laws/State.lean ====
section
/-! SUPPORT. The small lemmas of the state: one per field per update, each true by `rfl`, so that no later proof unfolds
a record update. -/

namespace Sys2Proof.Machine

/-! ## `State.ticked` -/

@[simp] theorem State.ticked_codec (s : State) : (s.ticked).codec = s.codec := rfl
@[simp] theorem State.ticked_dev (s : State) : (s.ticked).dev = s.dev := rfl
@[simp] theorem State.ticked_part (s : State) : (s.ticked).part = s.part := rfl
@[simp] theorem State.ticked_wrong (s : State) : (s.ticked).wrong = s.wrong := rfl
@[simp] theorem State.ticked_inputs (s : State) : (s.ticked).inputs = s.inputs := rfl
@[simp] theorem State.ticked_selects (s : State) : (s.ticked).selects = s.selects := rfl
@[simp] theorem State.ticked_port (s : State) : (s.ticked).port = s.port := rfl
@[simp] theorem State.ticked_answers (s : State) : (s.ticked).answers = s.answers := rfl
@[simp] theorem State.ticked_clock (s : State) : (s.ticked).clock = s.clock + 1 := rfl
@[simp] theorem State.ticked_due (s : State) : (s.ticked).due = s.due := rfl
@[simp] theorem State.ticked_trace (s : State) : (s.ticked).trace = s.trace := rfl

/-! ## `State.lose` -/

@[simp] theorem State.lose_codec (w : GoneWrong) (s : State) : (s.lose w).codec = s.codec := rfl
@[simp] theorem State.lose_dev (w : GoneWrong) (s : State) : (s.lose w).dev = s.dev.unknown s.part s.clock := rfl
@[simp] theorem State.lose_part (w : GoneWrong) (s : State) : (s.lose w).part = s.part := rfl
@[simp] theorem State.lose_wrong (w : GoneWrong) (s : State) : (s.lose w).wrong = s.wrong.or (some w) := rfl
@[simp] theorem State.lose_inputs (w : GoneWrong) (s : State) : (s.lose w).inputs = s.inputs := rfl
@[simp] theorem State.lose_selects (w : GoneWrong) (s : State) : (s.lose w).selects = s.selects := rfl
@[simp] theorem State.lose_port (w : GoneWrong) (s : State) : (s.lose w).port = s.port := rfl
@[simp] theorem State.lose_answers (w : GoneWrong) (s : State) : (s.lose w).answers = s.answers := rfl
@[simp] theorem State.lose_clock (w : GoneWrong) (s : State) : (s.lose w).clock = s.clock + 1 := rfl
@[simp] theorem State.lose_due (w : GoneWrong) (s : State) : (s.lose w).due = s.due := rfl
@[simp] theorem State.lose_trace (w : GoneWrong) (s : State) : (s.lose w).trace = s.trace := rfl

/-! ## `State.emit` -/

@[simp] theorem State.emit_codec (e : Event) (s : State) : (s.emit e).codec = s.codec := rfl
@[simp] theorem State.emit_dev (e : Event) (s : State) : (s.emit e).dev = s.dev := rfl
@[simp] theorem State.emit_part (e : Event) (s : State) : (s.emit e).part = s.part := rfl
@[simp] theorem State.emit_wrong (e : Event) (s : State) : (s.emit e).wrong = s.wrong := rfl
@[simp] theorem State.emit_inputs (e : Event) (s : State) : (s.emit e).inputs = s.inputs := rfl
@[simp] theorem State.emit_selects (e : Event) (s : State) : (s.emit e).selects = s.selects := rfl
@[simp] theorem State.emit_port (e : Event) (s : State) : (s.emit e).port = s.port := rfl
@[simp] theorem State.emit_answers (e : Event) (s : State) : (s.emit e).answers = s.answers := rfl
@[simp] theorem State.emit_clock (e : Event) (s : State) : (s.emit e).clock = s.clock := rfl
@[simp] theorem State.emit_due (e : Event) (s : State) : (s.emit e).due = s.due := rfl
@[simp] theorem State.emit_trace (e : Event) (s : State) : (s.emit e).trace = s.trace ++ [e] := rfl

/-! ## `State.answered` -/

@[simp] theorem State.answered_codec (s : State) : (s.answered).codec = s.codec := rfl
@[simp] theorem State.answered_dev (s : State) : (s.answered).dev = s.dev := rfl
@[simp] theorem State.answered_part (s : State) : (s.answered).part = s.part := rfl
@[simp] theorem State.answered_wrong (s : State) : (s.answered).wrong = s.wrong := rfl
@[simp] theorem State.answered_inputs (s : State) : (s.answered).inputs = s.inputs := rfl
@[simp] theorem State.answered_selects (s : State) : (s.answered).selects = s.selects := rfl
@[simp] theorem State.answered_port (s : State) : (s.answered).port = s.port := rfl
@[simp] theorem State.answered_answers (s : State) : (s.answered).answers = s.answers.tail := rfl
@[simp] theorem State.answered_clock (s : State) : (s.answered).clock = s.clock := rfl
@[simp] theorem State.answered_due (s : State) : (s.answered).due = s.due := rfl
@[simp] theorem State.answered_trace (s : State) : (s.answered).trace = s.trace := rfl

/-! ## `State.selected` -/

@[simp] theorem State.selected_codec (l : Level) (s : State) : (s.selected l).codec = s.codec := rfl
@[simp] theorem State.selected_dev (l : Level) (s : State) : (s.selected l).dev = s.dev := rfl
@[simp] theorem State.selected_part (l : Level) (s : State) : (s.selected l).part = s.part := rfl
@[simp] theorem State.selected_wrong (l : Level) (s : State) : (s.selected l).wrong = s.wrong := rfl
@[simp] theorem State.selected_port (l : Level) (s : State) : (s.selected l).port = s.port := rfl
@[simp] theorem State.selected_inputs (l : Level) (s : State) : (s.selected l).inputs = s.inputs := rfl
@[simp] theorem State.selected_answers (l : Level) (s : State) : (s.selected l).answers = s.answers := rfl
@[simp] theorem State.selected_clock (l : Level) (s : State) : (s.selected l).clock = s.clock := rfl
@[simp] theorem State.selected_due (l : Level) (s : State) : (s.selected l).due = s.due := rfl
@[simp] theorem State.selected_selects (l : Level) (s : State) : (s.selected l).selects = s.selects.tail := rfl
@[simp] theorem State.selected_trace (l : Level) (s : State) : (s.selected l).trace = s.trace ++ [.sel l] := rfl

/-! ## `State.acted` -/

@[simp] theorem State.acted_dev (d : Device) (s : State) : (s.acted d).dev = d := rfl
@[simp] theorem State.acted_clock (d : Device) (s : State) : (s.acted d).clock = s.clock + 1 := rfl
@[simp] theorem State.acted_codec (d : Device) (s : State) : (s.acted d).codec = s.codec := rfl
@[simp] theorem State.acted_part (d : Device) (s : State) : (s.acted d).part = s.part := rfl
@[simp] theorem State.acted_wrong (d : Device) (s : State) : (s.acted d).wrong = s.wrong := rfl
@[simp] theorem State.acted_port (d : Device) (s : State) : (s.acted d).port = s.port := rfl
@[simp] theorem State.acted_inputs (d : Device) (s : State) : (s.acted d).inputs = s.inputs := rfl
@[simp] theorem State.acted_answers (d : Device) (s : State) : (s.acted d).answers = s.answers := rfl
@[simp] theorem State.acted_selects (d : Device) (s : State) : (s.acted d).selects = s.selects := rfl
@[simp] theorem State.acted_trace (d : Device) (s : State) : (s.acted d).trace = s.trace := rfl

/-- While an internal operation is in progress the moment at which it is over stays. -/
theorem State.acted_due (d : Device) (s : State) (h : s.dev.wip = true) : (s.acted d).due = s.due := by
  simp [State.acted, h]

/-! ## `sAccept` -/

@[simp] theorem sAccept_dev (i : Instr) (s : State) : (sAccept i s).dev = s.dev := rfl
@[simp] theorem sAccept_part (i : Instr) (s : State) : (sAccept i s).part = s.part := rfl
@[simp] theorem sAccept_wrong (i : Instr) (s : State) : (sAccept i s).wrong = s.wrong := rfl
@[simp] theorem sAccept_inputs (i : Instr) (s : State) : (sAccept i s).inputs = s.inputs := rfl
@[simp] theorem sAccept_selects (i : Instr) (s : State) : (sAccept i s).selects = s.selects := rfl
@[simp] theorem sAccept_port (i : Instr) (s : State) : (sAccept i s).port = s.port := rfl
@[simp] theorem sAccept_answers (i : Instr) (s : State) : (sAccept i s).answers = s.answers := rfl
@[simp] theorem sAccept_clock (i : Instr) (s : State) : (sAccept i s).clock = s.clock := rfl
@[simp] theorem sAccept_due (i : Instr) (s : State) : (sAccept i s).due = s.due := rfl
@[simp] theorem sAccept_trace (i : Instr) (s : State) : (sAccept i s).trace = s.trace := rfl

/-! ## `asserted` -/

@[simp] theorem asserted_codec (s : State) : (asserted s).codec = { s.codec with cs := .low, phase := .frame } := rfl
@[simp] theorem asserted_dev (s : State) : (asserted s).dev = s.dev.selectLow := rfl
@[simp] theorem asserted_part (s : State) : (asserted s).part = s.part := rfl
@[simp] theorem asserted_wrong (s : State) : (asserted s).wrong = s.wrong := rfl
@[simp] theorem asserted_inputs (s : State) : (asserted s).inputs = s.inputs := rfl
@[simp] theorem asserted_selects (s : State) : (asserted s).selects = s.selects.tail := rfl
@[simp] theorem asserted_port (s : State) : (asserted s).port = s.port := rfl
@[simp] theorem asserted_answers (s : State) : (asserted s).answers = s.answers := rfl
@[simp] theorem asserted_clock (s : State) : (asserted s).clock = s.clock := rfl
@[simp] theorem asserted_due (s : State) : (asserted s).due = s.due := rfl
@[simp] theorem asserted_trace (s : State) : (asserted s).trace = s.trace ++ [.sel .low] := rfl

/-! ## `raiseTransportIncomplete` -/

@[simp] theorem raiseTransportIncomplete_codec (s : State) : (raiseTransportIncomplete s).codec = { s.codec with err := errTransportIncomplete } := rfl
@[simp] theorem raiseTransportIncomplete_dev (s : State) : (raiseTransportIncomplete s).dev = s.dev := rfl
@[simp] theorem raiseTransportIncomplete_part (s : State) : (raiseTransportIncomplete s).part = s.part := rfl
@[simp] theorem raiseTransportIncomplete_wrong (s : State) : (raiseTransportIncomplete s).wrong = s.wrong := rfl
@[simp] theorem raiseTransportIncomplete_inputs (s : State) : (raiseTransportIncomplete s).inputs = s.inputs := rfl
@[simp] theorem raiseTransportIncomplete_selects (s : State) : (raiseTransportIncomplete s).selects = s.selects := rfl
@[simp] theorem raiseTransportIncomplete_port (s : State) : (raiseTransportIncomplete s).port = s.port := rfl
@[simp] theorem raiseTransportIncomplete_answers (s : State) : (raiseTransportIncomplete s).answers = s.answers := rfl
@[simp] theorem raiseTransportIncomplete_clock (s : State) : (raiseTransportIncomplete s).clock = s.clock := rfl
@[simp] theorem raiseTransportIncomplete_due (s : State) : (raiseTransportIncomplete s).due = s.due := rfl
@[simp] theorem raiseTransportIncomplete_trace (s : State) : (raiseTransportIncomplete s).trace = s.trace := rfl

/-! ## `Device.selectLow` -/

@[simp] theorem Device.selectLow_sr (d : Device) : (d.selectLow).sr = d.sr := rfl
@[simp] theorem Device.selectLow_flash (d : Device) : (d.selectLow).flash = d.flash := rfl
@[simp] theorem Device.selectLow_pd (d : Device) : (d.selectLow).pd = d.pd := rfl
@[simp] theorem Device.selectLow_sel (d : Device) : (d.selectLow).sel = some [] := rfl
@[simp] theorem Device.selectLow_selBusy (d : Device) : (d.selectLow).selBusy = d.wip := rfl
@[simp] theorem Device.selectLow_wp (d : Device) : (d.selectLow).wp = d.wp := rfl

/-! ## `Device.hear` -/

@[simp] theorem Device.hear_sr (bytes : List Byte) (d : Device) : (d.hear bytes).sr = d.sr := rfl
@[simp] theorem Device.hear_flash (bytes : List Byte) (d : Device) : (d.hear bytes).flash = d.flash := rfl
@[simp] theorem Device.hear_pd (bytes : List Byte) (d : Device) : (d.hear bytes).pd = d.pd := rfl
@[simp] theorem Device.hear_sel (bytes : List Byte) (d : Device) : (d.hear bytes).sel = d.sel.map (· ++ bytes) := rfl
@[simp] theorem Device.hear_selBusy (bytes : List Byte) (d : Device) : (d.hear bytes).selBusy = d.selBusy := rfl
@[simp] theorem Device.hear_wp (bytes : List Byte) (d : Device) : (d.hear bytes).wp = d.wp := rfl

/-! ## `Device.finish` -/

@[simp] theorem Device.finish_sr (d : Device) : (d.finish).sr = srSetWel (srSetWip d.sr 0) 0 := rfl
@[simp] theorem Device.finish_flash (d : Device) : (d.finish).flash = d.flash := rfl
@[simp] theorem Device.finish_pd (d : Device) : (d.finish).pd = d.pd := rfl
@[simp] theorem Device.finish_sel (d : Device) : (d.finish).sel = d.sel := rfl
@[simp] theorem Device.finish_selBusy (d : Device) : (d.finish).selBusy = d.selBusy := rfl
@[simp] theorem Device.finish_wp (d : Device) : (d.finish).wp = d.wp := rfl

/-! ## `Device.startBusy` -/

@[simp] theorem Device.startBusy_sr (d : Device) : (d.startBusy).sr = srSetWip d.sr 1 := rfl
@[simp] theorem Device.startBusy_flash (d : Device) : (d.startBusy).flash = d.flash := rfl
@[simp] theorem Device.startBusy_pd (d : Device) : (d.startBusy).pd = d.pd := rfl
@[simp] theorem Device.startBusy_sel (d : Device) : (d.startBusy).sel = d.sel := rfl
@[simp] theorem Device.startBusy_selBusy (d : Device) : (d.startBusy).selBusy = d.selBusy := rfl
@[simp] theorem Device.startBusy_wp (d : Device) : (d.startBusy).wp = d.wp := rfl

/-! ## `Device.unknown` -/

@[simp] theorem Device.unknown_sr (p : Part) (c : Nat) (d : Device) : (d.unknown p c).sr = Config.lostSr c := rfl
@[simp] theorem Device.unknown_flash (p : Part) (c : Nat) (d : Device) : (d.unknown p c).flash = Memory.ofCells p.totalSize (Config.lostCells c) := rfl
@[simp] theorem Device.unknown_pd (p : Part) (c : Nat) (d : Device) : (d.unknown p c).pd = Config.lostPd c := rfl
@[simp] theorem Device.unknown_sel (p : Part) (c : Nat) (d : Device) : (d.unknown p c).sel = d.sel := rfl
@[simp] theorem Device.unknown_selBusy (p : Part) (c : Nat) (d : Device) : (d.unknown p c).selBusy = d.selBusy := rfl
@[simp] theorem Device.unknown_wp (p : Part) (c : Nat) (d : Device) : (d.unknown p c).wp = d.wp := rfl

/-! ## `Device.untouched` -/

@[simp] theorem Device.untouched_sr (d : Device) : (d.untouched).sr = d.sr := rfl
@[simp] theorem Device.untouched_flash (d : Device) : (d.untouched).flash = d.flash := rfl
@[simp] theorem Device.untouched_pd (d : Device) : (d.untouched).pd = d.pd := rfl
@[simp] theorem Device.untouched_sel (d : Device) : (d.untouched).sel = none := rfl
@[simp] theorem Device.untouched_selBusy (d : Device) : (d.untouched).selBusy = false := rfl
@[simp] theorem Device.untouched_wp (d : Device) : (d.untouched).wp = d.wp := rfl

/-! ## `Codec.cleared` -/

@[simp] theorem Codec.cleared_phase (c : Codec) : (c.cleared).phase = c.phase := rfl
@[simp] theorem Codec.cleared_cs (c : Codec) : (c.cleared).cs = c.cs := rfl
@[simp] theorem Codec.cleared_op (c : Codec) : (c.cleared).op = c.op := rfl
@[simp] theorem Codec.cleared_addr (c : Codec) : (c.cleared).addr = c.addr := rfl
@[simp] theorem Codec.cleared_srIn (c : Codec) : (c.cleared).srIn = c.srIn := rfl
@[simp] theorem Codec.cleared_n (c : Codec) : (c.cleared).n = c.n := rfl
@[simp] theorem Codec.cleared_payload (c : Codec) : (c.cleared).payload = c.payload := rfl
@[simp] theorem Codec.cleared_fb (c : Codec) : (c.cleared).fb = c.fb := rfl
@[simp] theorem Codec.cleared_resp (c : Codec) : (c.cleared).resp = [] := rfl
@[simp] theorem Codec.cleared_cntFrame (c : Codec) : (c.cleared).cntFrame = 0 := rfl
@[simp] theorem Codec.cleared_cntXfer (c : Codec) : (c.cleared).cntXfer = 0 := rfl
@[simp] theorem Codec.cleared_err (c : Codec) : (c.cleared).err = errNone := rfl
@[simp] theorem Codec.cleared_done (c : Codec) : (c.cleared).done = false := rfl
@[simp] theorem Codec.cleared_result (c : Codec) : (c.cleared).result = 0x0000 := rfl

/-! ## What S-ACCEPT writes (R102) -/

@[simp] theorem sAccept_codec_phase (i : Instr) (s : State) : (sAccept i s).codec.phase = .assert := rfl
@[simp] theorem sAccept_codec_cs (i : Instr) (s : State) : (sAccept i s).codec.cs = s.codec.cs := rfl
@[simp] theorem sAccept_codec_op (i : Instr) (s : State) : (sAccept i s).codec.op = i.op := rfl
@[simp] theorem sAccept_codec_addr (i : Instr) (s : State) : (sAccept i s).codec.addr = (i.latched s.port).addr := rfl
@[simp] theorem sAccept_codec_srIn (i : Instr) (s : State) : (sAccept i s).codec.srIn = (i.latched s.port).srIn := rfl
@[simp] theorem sAccept_codec_n (i : Instr) (s : State) : (sAccept i s).codec.n = (i.latched s.port).n := rfl
@[simp] theorem sAccept_codec_payload (i : Instr) (s : State) : (sAccept i s).codec.payload = (i.latched s.port).payload := rfl
/-- The frame is made of the operands the operation uses (R78, R79). -/
@[simp] theorem sAccept_codec_fb (i : Instr) (s : State) : (sAccept i s).codec.fb = frame i.op i.addr i.srIn :=
  frame_latched i s.port
@[simp] theorem sAccept_codec_resp (i : Instr) (s : State) : (sAccept i s).codec.resp = [] := rfl
@[simp] theorem sAccept_codec_cntFrame (i : Instr) (s : State) : (sAccept i s).codec.cntFrame = 0 := rfl
@[simp] theorem sAccept_codec_cntXfer (i : Instr) (s : State) : (sAccept i s).codec.cntXfer = 0 := rfl
@[simp] theorem sAccept_codec_err (i : Instr) (s : State) : (sAccept i s).codec.err = errNone := rfl
@[simp] theorem sAccept_codec_done (i : Instr) (s : State) : (sAccept i s).codec.done = false := rfl
@[simp] theorem sAccept_codec_result (i : Instr) (s : State) : (sAccept i s).codec.result = 0x0000 := rfl

/-! ## What S-DEASSERT writes on the codec's side (R107) -/

@[simp] theorem deasserted_codec_phase (s : State) : (deasserted s).codec.phase = .idle := rfl
@[simp] theorem deasserted_codec_cs (s : State) : (deasserted s).codec.cs = .high := rfl
@[simp] theorem deasserted_codec_op (s : State) : (deasserted s).codec.op = s.codec.op := rfl
@[simp] theorem deasserted_codec_addr (s : State) : (deasserted s).codec.addr = s.codec.addr := rfl
@[simp] theorem deasserted_codec_srIn (s : State) : (deasserted s).codec.srIn = s.codec.srIn := rfl
@[simp] theorem deasserted_codec_n (s : State) : (deasserted s).codec.n = s.codec.n := rfl
@[simp] theorem deasserted_codec_payload (s : State) : (deasserted s).codec.payload = s.codec.payload := rfl
@[simp] theorem deasserted_codec_fb (s : State) : (deasserted s).codec.fb = s.codec.fb := rfl
@[simp] theorem deasserted_codec_resp (s : State) : (deasserted s).codec.resp = s.codec.resp := rfl
@[simp] theorem deasserted_codec_cntFrame (s : State) : (deasserted s).codec.cntFrame = s.codec.cntFrame := rfl
@[simp] theorem deasserted_codec_cntXfer (s : State) : (deasserted s).codec.cntXfer = s.codec.cntXfer := rfl
@[simp] theorem deasserted_codec_err (s : State) : (deasserted s).codec.err = s.codec.err := rfl
@[simp] theorem deasserted_codec_done (s : State) : (deasserted s).codec.done = true := rfl
@[simp] theorem deasserted_codec_result (s : State) : (deasserted s).codec.result = decodeResult s.codec.op s.codec.resp := rfl

/-! ## The codec after reset (R31, R210) -/

@[simp] theorem codecReset_codec (s : State) : (codecReset s).codec = Codec.reset := rfl
@[simp] theorem codecReset_port (s : State) : (codecReset s).port = s.port := by
  unfold codecReset
  split <;> rfl
@[simp] theorem codecReset_selects (s : State) : (codecReset s).selects = s.selects := by
  unfold codecReset
  split <;> rfl
@[simp] theorem codecReset_due (s : State) : (codecReset s).due = s.due := by
  unfold codecReset
  split <;> rfl
@[simp] theorem codecReset_inputs (s : State) : (codecReset s).inputs = s.inputs := by
  unfold codecReset
  split <;> rfl
@[simp] theorem codecReset_trace (s : State) : (codecReset s).trace = [] := rfl

end Sys2Proof.Machine
end

