-- ==== Sys2Proof/Laws/Memory.lean ====
section
/-! SUPPORT. The flash array: every operation keeps the canonical form, and what a read gives after each. -/

namespace Sys2Proof.Machine

@[simp] theorem Memory.wf_nil : Memory.wf [] = true := rfl

theorem Memory.wf_cons (c : Host.Cell) (m : Memory) :
    Memory.wf (c :: m) = true ↔ c.2 ≠ erased ∧ (∀ d ∈ m, c.1 < d.1) ∧ Memory.wf m = true := by
  obtain ⟨a, v⟩ := c
  simp [Memory.wf, and_assoc]

@[simp] theorem Memory.read_nil (a : Nat) : Memory.read [] a = erased := rfl

theorem Memory.read_cons (b : Nat) (v : Byte) (m : Memory) (a : Nat) :
    Memory.read ((b, v) :: m) a = if a = b then v else m.read a := rfl

/-- An address below every listed one is unlisted. -/
theorem Memory.read_of_lt (m : Memory) (a : Nat) (h : ∀ d ∈ m, a < d.1) : m.read a = erased := by
  induction m with
  | nil => rfl
  | cons c m ih =>
    obtain ⟨b, v⟩ := c
    have hb : a < b := h (b, v) (by simp)
    rw [Memory.read_cons, if_neg (by omega)]
    exact ih fun d hd => h d (by simp [hd])

/-! ## `Memory.cell` -/

theorem Memory.cell_wf (a : Nat) (v : Byte) (m : Memory) (hm : m.wf = true) (h : ∀ d ∈ m, a < d.1) :
    (Memory.cell a v m).wf = true := by
  unfold Memory.cell
  split
  · exact hm
  · exact (Memory.wf_cons _ _).2 ⟨‹_›, h, hm⟩

theorem Memory.mem_cell (a : Nat) (v : Byte) (m : Memory) (c : Host.Cell) (h : c ∈ Memory.cell a v m) :
    c = (a, v) ∨ c ∈ m := by
  unfold Memory.cell at h
  split at h
  · exact .inr h
  · simpa using h

theorem Memory.read_cell (a : Nat) (v : Byte) (m : Memory) (h : ∀ d ∈ m, a < d.1) (b : Nat) :
    (Memory.cell a v m).read b = if b = a then v else m.read b := by
  unfold Memory.cell
  split
  · next hv =>
    split
    · next hb => rw [hb, hv]; exact Memory.read_of_lt m a h
    · rfl
  · rfl

/-! ## `Memory.write` -/

/-- A write lists no other address than its own. -/
theorem Memory.mem_write (m : Memory) (a : Nat) (v : Byte) (c : Host.Cell) (h : c ∈ m.write a v) :
    c = (a, v) ∨ c ∈ m := by
  induction m with
  | nil => exact Memory.mem_cell a v [] c h
  | cons d m ih =>
    obtain ⟨b, w⟩ := d
    unfold Memory.write at h
    split at h
    · exact Memory.mem_cell a v _ c h
    · split at h
      · exact (Memory.mem_cell a v m c h).imp_right (List.mem_cons_of_mem _)
      · rcases List.mem_cons.1 h with rfl | h
        · exact .inr (by simp)
        · exact (ih h).imp_right (List.mem_cons_of_mem _)

theorem Memory.write_wf (m : Memory) (a : Nat) (v : Byte) (hm : m.wf = true) : (m.write a v).wf = true := by
  induction m with
  | nil => exact Memory.cell_wf a v [] rfl (by simp)
  | cons d m ih =>
    obtain ⟨b, w⟩ := d
    obtain ⟨hw, hlt, hm'⟩ := (Memory.wf_cons _ _).1 hm
    unfold Memory.write
    split
    · next hab =>
      refine Memory.cell_wf a v _ hm fun d hd => ?_
      rcases List.mem_cons.1 hd with rfl | hd
      · exact hab
      · exact Nat.lt_trans hab (hlt d hd)
    · split
      · next hab => exact Memory.cell_wf a v m hm' fun d hd => hab ▸ hlt d hd
      · next h1 h2 =>
        refine (Memory.wf_cons _ _).2 ⟨hw, fun d hd => ?_, ih hm'⟩
        rcases Memory.mem_write m a v d hd with rfl | hd
        · show b < a
          omega
        · exact hlt d hd

/-- A read after a write: the written value at its address, every other address as before. -/
theorem Memory.read_write (m : Memory) (a : Nat) (v : Byte) (hm : m.wf = true) (x : Nat) :
    (m.write a v).read x = if x = a then v else m.read x := by
  induction m with
  | nil => exact Memory.read_cell a v [] (by simp) x
  | cons d m ih =>
    obtain ⟨b, w⟩ := d
    obtain ⟨_, hlt, hm'⟩ := (Memory.wf_cons _ _).1 hm
    unfold Memory.write
    split
    · next hab =>
      refine Memory.read_cell a v _ (fun d hd => ?_) x
      rcases List.mem_cons.1 hd with rfl | hd
      · exact hab
      · exact Nat.lt_trans hab (hlt d hd)
    · split
      · next hab =>
        subst hab
        rw [Memory.read_cell a v m hlt x, Memory.read_cons]
        split <;> simp [*]
      · next h1 h2 =>
        rw [Memory.read_cons, Memory.read_cons, ih hm']
        by_cases hx : x = b
        · subst hx
          rw [if_pos rfl, if_neg (by omega), if_pos rfl]
        · rw [if_neg hx, if_neg hx]

/-! ## `Memory.erase` (R63 MemErase) -/

theorem Memory.mem_erase (m : Memory) (base size : Nat) (c : Host.Cell) (h : c ∈ m.erase base size) : c ∈ m :=
  (List.mem_filter.1 h).1

theorem Memory.erase_wf (m : Memory) (base size : Nat) (hm : m.wf = true) : (m.erase base size).wf = true := by
  induction m with
  | nil => rfl
  | cons d m ih =>
    obtain ⟨hv, hlt, hm'⟩ := (Memory.wf_cons _ _).1 hm
    unfold Memory.erase at ih ⊢
    rw [List.filter_cons]
    split
    · exact (Memory.wf_cons _ _).2 ⟨hv, fun c hc => hlt c (List.mem_filter.1 hc).1, ih hm'⟩
    · exact ih hm'

/-- Every byte of the unit is 0xFF after an erase, every other byte as before. -/
theorem Memory.read_erase (m : Memory) (base size x : Nat) :
    (m.erase base size).read x = if base ≤ x ∧ x < base + size then erased else m.read x := by
  induction m with
  | nil => simp [Memory.erase]
  | cons d m ih =>
    obtain ⟨b, w⟩ := d
    unfold Memory.erase at ih ⊢
    rw [List.filter_cons]
    by_cases hb : base ≤ b ∧ b < base + size
    · rw [if_neg (by simp [hb.1, hb.2]), ih, Memory.read_cons]
      by_cases hx : base ≤ x ∧ x < base + size
      · rw [if_pos hx, if_pos hx]
      · rw [if_neg hx, if_neg hx, if_neg (by rintro rfl; exact hx hb)]
    · rw [if_pos (by simp only [Bool.not_eq_true', Bool.and_eq_false_imp, decide_eq_true_eq,
        decide_eq_false_iff_not]; omega), Memory.read_cons, ih, Memory.read_cons]
      by_cases hx : x = b
      · subst hx
        rw [if_pos rfl, if_neg hb, if_pos rfl]
      · rw [if_neg hx, if_neg hx]

/-! ## `Memory.ofCells` -/

theorem Memory.ofCells_wf (size : Nat) (cs : List (Nat × Byte)) : (Memory.ofCells size cs).wf = true := by
  induction cs with
  | nil => rfl
  | cons c cs ih =>
    unfold Memory.ofCells
    split
    · exact Memory.write_wf _ _ _ ih
    · exact ih

theorem Memory.ofCells_inside (size : Nat) (cs : List (Nat × Byte)) :
    ∀ c ∈ Memory.ofCells size cs, c.1 < size := by
  induction cs with
  | nil => simp [Memory.ofCells]
  | cons d cs ih =>
    obtain ⟨a, v⟩ := d
    intro c hc
    simp only [Memory.ofCells] at hc
    split at hc
    · rcases Memory.mem_write _ _ _ _ hc with rfl | hc
      · assumption
      · exact ih c hc
    · exact ih c hc

/-- Any contents are the contents of some list of cells: `Memory.ofCells` leaves no array out. -/
theorem Memory.ofCells_self (m : Memory) (size : Nat) (hm : m.wf = true) (hin : ∀ c ∈ m, c.1 < size) :
    Memory.ofCells size m = m := by
  induction m with
  | nil => rfl
  | cons d m ih =>
    obtain ⟨a, v⟩ := d
    obtain ⟨hv, hlt, hm'⟩ := (Memory.wf_cons _ _).1 hm
    rw [Memory.ofCells, if_pos (hin (a, v) (by simp)), ih hm' fun c hc => hin c (by simp [hc])]
    cases m with
    | nil => simp [Memory.write, Memory.cell, hv]
    | cons e m =>
      obtain ⟨b, w⟩ := e
      have hab : a < b := hlt (b, w) (by simp)
      simp [Memory.write, Memory.cell, hv, hab]

/-! ## The page-wrap target (R47) -/

theorem pageBase_toNat (a : Addr) : (pageBase a).toNat = 256 * (a.toNat / 256) := by
  have h : pageBase a = (a >>> 8) <<< 8 := by
    unfold pageBase
    ext i hi
    simp only [BitVec.getElem_and, BitVec.getElem_shiftLeft, BitVec.getElem_ushiftRight]
    interval_cases i <;> simp
  rw [h]
  have := a.isLt
  simp [BitVec.toNat_shiftLeft, Nat.shiftLeft_eq, Nat.shiftRight_eq_div_pow]
  omega

theorem addrLo_toNat (a : Addr) : (addrLo a).toNat = a.toNat % 256 := by
  simp [addrLo]

/-- The target as a number: the page of `addr`, the offset modulo 256. -/
theorem target_toNat (a : Addr) (i : Nat) :
    (target a i).toNat = 256 * (a.toNat / 256) + (a.toNat % 256 + i) % 256 := by
  have hlt : (a.toNat % 256 + i) % 256 < 2 ^ 8 := Nat.mod_lt _ (by decide)
  unfold target
  rw [BitVec.toNat_or, pageBase_toNat, addrLo_toNat, BitVec.toNat_ofNat,
    Nat.mod_eq_of_lt (a := (a.toNat % 256 + i) % 256) (by omega)]
  exact (Nat.two_pow_add_eq_or_of_lt hlt (a.toNat / 256)).symm

/-! ## `memWrite` (R63 MemWrite) -/

theorem memWriteFrom_wf (c : Nat) (a : Addr) (i : Nat) (bs : List Byte) (m : Memory) (hm : m.wf = true) :
    (memWriteFrom c a i bs m).wf = true := by
  induction bs generalizing i m with
  | nil => exact hm
  | cons b bs ih => exact ih (i + 1) _ (Memory.write_wf _ _ _ hm)

theorem memWrite_wf (c : Nat) (a : Addr) (bs : List Byte) (m : Memory) (hm : m.wf = true) :
    (memWrite c a bs m).wf = true := memWriteFrom_wf c a 0 bs m hm

/-- An address that no payload byte targets reads as before. -/
theorem memWriteFrom_read_other (c : Nat) (a : Addr) (i : Nat) (bs : List Byte) (m : Memory) (hm : m.wf = true)
    (x : Nat) (hx : ∀ j, j < bs.length → x ≠ (target a (i + j)).toNat) :
    (memWriteFrom c a i bs m).read x = m.read x := by
  induction bs generalizing i m with
  | nil => rfl
  | cons b bs ih =>
    rw [memWriteFrom, ih (i + 1) _ (Memory.write_wf _ _ _ hm), Memory.read_write _ _ _ hm,
      if_neg (by simpa using hx 0 (by simp))]
    intro j hj
    have := hx (j + 1) (by simpa using hj)
    rwa [show i + (j + 1) = i + 1 + j by omega] at this

/-- The cells of a programmed array are the old ones and targets of the payload. -/
theorem mem_memWriteFrom (c : Nat) (a : Addr) (i : Nat) (bs : List Byte) (m : Memory) (x : Host.Cell)
    (h : x ∈ memWriteFrom c a i bs m) : x ∈ m ∨ ∃ j, x.1 = (target a j).toNat := by
  induction bs generalizing i m with
  | nil => exact .inl h
  | cons b bs ih =>
    rcases ih (i + 1) _ h with h | h
    · rcases Memory.mem_write _ _ _ _ h with rfl | h
      · exact .inr ⟨i, rfl⟩
      · exact .inl h
    · exact .inr h

end Sys2Proof.Machine
end

