-- ==== Sys2Proof/Laws/Bracket.lean ====
section
/-! SUPPORT. What each shared operation of the sequencer can do, said once: the inversion lemmas and the rules by which a
property that every small step keeps is kept by an operation and by a step. -/

namespace Sys2Proof.Machine

/-! ## The gap, DEV-COMPLETE -/

/-- In a gap either nothing happens or, in a run that has not gone wrong and with WIP = 1, the device completes. -/
theorem gap_cases (s : State) :
    gap s = s ∨ (s.wrong = none ∧ s.dev.wip = true ∧ gap s = { s with dev := s.dev.finish }) := by
  unfold gap
  split
  · next h =>
    simp only [Bool.and_eq_true, Option.isNone_iff_eq_none] at h
    exact .inr ⟨h.1.1, h.1.2, by simp [devComplete, h.1.1, h.1.2]⟩
  · exact .inl rfl

/-- With WIP = 0 nothing happens in a gap. -/
theorem gap_of_not_wip (s : State) (h : s.dev.wip = false) : gap s = s := by simp [gap, h]

/-- An internal operation that is over completes in the gap (R116). -/
theorem gap_of_due (s : State) (hw : s.wrong = none) (hp : s.dev.wip = true) (hd : s.due ≤ s.moment) :
    gap s = { s with dev := s.dev.finish } := by simp [gap, devComplete, hw, hp, hd]

/-- A run gone wrong: nothing happens in a gap, the device's state being free already. -/
theorem gap_of_wrong (s : State) (h : s.wrong.isSome = true) : gap s = s := by
  obtain ⟨w, hw⟩ := Option.isSome_iff_exists.1 h
  simp [gap, hw]

theorem gap_codec (s : State) : (gap s).codec = s.codec := by
  rcases gap_cases s with h | ⟨_, _, h⟩ <;> rw [h]

theorem gap_trace (s : State) : (gap s).trace = s.trace := by
  rcases gap_cases s with h | ⟨_, _, h⟩ <;> rw [h]

theorem gap_answers (s : State) : (gap s).answers = s.answers := by
  rcases gap_cases s with h | ⟨_, _, h⟩ <;> rw [h]

theorem gap_inputs (s : State) : (gap s).inputs = s.inputs := by
  rcases gap_cases s with h | ⟨_, _, h⟩ <;> rw [h]

theorem gap_port (s : State) : (gap s).port = s.port := by
  rcases gap_cases s with h | ⟨_, _, h⟩ <;> rw [h]

theorem gap_selects (s : State) : (gap s).selects = s.selects := by
  rcases gap_cases s with h | ⟨_, _, h⟩ <;> rw [h]

theorem gap_due (s : State) : (gap s).due = s.due := by
  rcases gap_cases s with h | ⟨_, _, h⟩ <;> rw [h]

theorem gap_clock (s : State) : (gap s).clock = s.clock := by
  rcases gap_cases s with h | ⟨_, _, h⟩ <;> rw [h]

theorem gap_part (s : State) : (gap s).part = s.part := by
  rcases gap_cases s with h | ⟨_, _, h⟩ <;> rw [h]

theorem gap_wrong (s : State) : (gap s).wrong = s.wrong := by
  rcases gap_cases s with h | ⟨_, _, h⟩ <;> rw [h]

/-- DEV-COMPLETE: the device's state drawn anew in a run gone wrong; WIP and WEL cleared where WIP = 1; else no
change. -/
theorem devComplete_cases (s : State) :
    (s.wrong.isSome = true ∧ devComplete s = { s with dev := s.dev.unknown s.part s.clock, clock := s.clock + 1 }) ∨
    (s.wrong = none ∧ s.dev.wip = true ∧ devComplete s = { s with dev := s.dev.finish }) ∨
    (s.wrong = none ∧ s.dev.wip = false ∧ devComplete s = s) := by
  unfold devComplete
  cases hw : s.wrong <;> cases hp : s.dev.wip <;> simp

/-! ## Returned counts (R113) -/

theorem checkCount_of_ge (k req : Nat) (s : State) (h : req ≤ k) : checkCount k req s = s := by
  simp [checkCount, Nat.not_lt.2 h]

theorem checkCount_of_lt (k req : Nat) (s : State) (h : k < req) :
    checkCount k req s = raiseTransportIncomplete s := by
  simp [checkCount, h]

theorem checkCount_codec (k req : Nat) (s : State) :
    (checkCount k req s).codec = { s.codec with err := if k < req then errTransportIncomplete else s.codec.err } := by
  unfold checkCount
  split <;> rfl

theorem checkCount_trace (k req : Nat) (s : State) : (checkCount k req s).trace = s.trace := by
  unfold checkCount
  split <;> rfl

theorem checkCount_inputs (k req : Nat) (s : State) : (checkCount k req s).inputs = s.inputs := by
  unfold checkCount
  split <;> rfl

theorem checkCount_answers (k req : Nat) (s : State) : (checkCount k req s).answers = s.answers := by
  unfold checkCount
  split <;> rfl

theorem checkCount_dev (k req : Nat) (s : State) : (checkCount k req s).dev = s.dev := by
  unfold checkCount
  split <;> rfl

theorem checkCount_wrong (k req : Nat) (s : State) : (checkCount k req s).wrong = s.wrong := by
  unfold checkCount
  split <;> rfl

theorem checkCount_clock (k req : Nat) (s : State) : (checkCount k req s).clock = s.clock := by
  unfold checkCount
  split <;> rfl

theorem checkCount_port (k req : Nat) (s : State) : (checkCount k req s).port = s.port := by
  unfold checkCount
  split <;> rfl

theorem checkCount_selects (k req : Nat) (s : State) : (checkCount k req s).selects = s.selects := by
  unfold checkCount
  split <;> rfl

theorem checkCount_due (k req : Nat) (s : State) : (checkCount k req s).due = s.due := by
  unfold checkCount
  split <;> rfl

theorem checkCount_part (k req : Nat) (s : State) : (checkCount k req s).part = s.part := by
  unfold checkCount
  split <;> rfl

/-! ## The transport -/

/-- A returned count never passes the request (R101). -/
theorem Answer.count_le (a : Answer) (req k : Nat) (h : a.count req = some k) : k ≤ req := by
  cases a <;> simp [Answer.count] at h <;> omega

/-- A call returns a count unless the transport hangs. -/
theorem Answer.count_isSome (a : Answer) (req : Nat) (h : a ≠ .never) : ∃ k, a.count req = some k := by
  cases a <;> simp_all [Answer.count]

/-- All that `BusWrite` does: the event, the bytes heard by the device, one answer used. -/
theorem busWrite_eq_some (bytes : List Byte) (s : State) (k : Nat) (t : State)
    (h : busWrite bytes s = some (k, t)) :
    s.nextAnswer.count bytes.length = some k ∧
      t = { (s.answered.emit (.wr bytes k)) with dev := s.dev.hear (bytes.take k) } := by
  unfold busWrite at h
  cases hc : s.nextAnswer.count bytes.length with
  | none => simp [hc] at h
  | some j =>
    simp only [hc, Option.some.injEq, Prod.mk.injEq] at h
    obtain ⟨rfl, rfl⟩ := h
    exact ⟨rfl, rfl⟩

theorem received_length (c m k : Nat) (r : List Byte) : (received c m k r).length = m := by simp [received]

/-- All that `BusRead` does. -/
theorem busRead_eq_some (m : Nat) (s : State) (k : Nat) (data : List Byte) (t : State)
    (h : busRead m s = some (k, data, t)) :
    s.nextAnswer.count m = some k ∧ data = received s.clock m k (deviceResponse s m) ∧
      t = (s.answered.emit (.rd m k data)).ticked := by
  unfold busRead at h
  cases hc : s.nextAnswer.count m with
  | none => simp [hc] at h
  | some j =>
    simp only [hc, Option.some.injEq, Prod.mk.injEq] at h
    obtain ⟨rfl, rfl, rfl⟩ := h
    exact ⟨rfl, rfl, rfl⟩

/-! ## The device at `SEL(HIGH)` -/

/-- All that the device can do at `SEL(HIGH)`: draw its state anew in a run gone wrong; lose it, for an operation with a
short count, a stream that is no frame or an operation without meaning; or take the effect rule's result. -/
theorem deviceActs_cases (s : State) :
    (s.wrong.isSome = true ∧ deviceActs s = { s with dev := s.dev.unknown s.part s.clock, clock := s.clock + 1 }) ∨
    (s.wrong = none ∧ ∃ w, deviceActs s = s.lose w) ∨
    (s.wrong = none ∧ s.codec.err = errNone ∧ ∃ i d, decode (s.dev.sel.getD []) 0 = .ok i ∧ effect s.part s.clock i s.dev = .ok d ∧
      deviceActs s = s.acted d) := by
  unfold deviceActs
  cases hw : s.wrong with
  | some w => exact .inl (by simp)
  | none =>
    refine .inr ?_
    by_cases herr : s.codec.err = errNone
    · cases hd : decode (s.dev.sel.getD []) 0 with
      | error e => exact .inl ⟨rfl, .invalidStream, by simp [herr]⟩
      | ok i =>
        cases he : effect s.part s.clock i s.dev with
        | error w => exact .inl ⟨rfl, w, by simp [herr, he]⟩
        | ok d => exact .inr ⟨rfl, herr, i, d, rfl, he, by simp [herr, he]⟩
    · exact .inl ⟨rfl, .transportIncomplete, by simp [herr]⟩

theorem deviceActs_codec (s : State) : (deviceActs s).codec = s.codec := by
  rcases deviceActs_cases s with ⟨_, h⟩ | ⟨_, w, h⟩ | ⟨_, _, i, d, _, _, h⟩ <;> simp [h]

theorem deviceActs_trace (s : State) : (deviceActs s).trace = s.trace := by
  rcases deviceActs_cases s with ⟨_, h⟩ | ⟨_, w, h⟩ | ⟨_, _, i, d, _, _, h⟩ <;> simp [h]

theorem deviceActs_inputs (s : State) : (deviceActs s).inputs = s.inputs := by
  rcases deviceActs_cases s with ⟨_, h⟩ | ⟨_, w, h⟩ | ⟨_, _, i, d, _, _, h⟩ <;> simp [h]

theorem deviceActs_answers (s : State) : (deviceActs s).answers = s.answers := by
  rcases deviceActs_cases s with ⟨_, h⟩ | ⟨_, w, h⟩ | ⟨_, _, i, d, _, _, h⟩ <;> simp [h]

theorem deviceActs_port (s : State) : (deviceActs s).port = s.port := by
  rcases deviceActs_cases s with ⟨_, h⟩ | ⟨_, w, h⟩ | ⟨_, _, i, d, _, _, h⟩ <;> simp [h]

theorem deviceActs_selects (s : State) : (deviceActs s).selects = s.selects := by
  rcases deviceActs_cases s with ⟨_, h⟩ | ⟨_, w, h⟩ | ⟨_, _, i, d, _, _, h⟩ <;> simp [h]

/-- The mark, once set, stays (R206). -/
theorem deviceActs_wrong (s : State) (w : GoneWrong) (hw : s.wrong = some w) : (deviceActs s).wrong = some w := by
  simp [deviceActs, hw]

/-- An operation with a short count marks the run where it ends (R192). -/
theorem deviceActs_marks (s : State) (h : s.codec.err ≠ errNone) : (deviceActs s).wrong.isSome = true := by
  unfold deviceActs
  split
  · assumption
  · simp

theorem deviceActs_part (s : State) : (deviceActs s).part = s.part := by
  rcases deviceActs_cases s with ⟨_, h⟩ | ⟨_, w, h⟩ | ⟨_, _, i, d, _, _, h⟩ <;> simp [h]

@[simp] theorem deasserted_trace (s : State) : (deasserted s).trace = s.trace ++ [.sel .high] :=
  deviceActs_trace (s.selected .high)

@[simp] theorem deasserted_inputs (s : State) : (deasserted s).inputs = s.inputs :=
  deviceActs_inputs (s.selected .high)

@[simp] theorem deasserted_answers (s : State) : (deasserted s).answers = s.answers :=
  deviceActs_answers (s.selected .high)

@[simp] theorem deasserted_port (s : State) : (deasserted s).port = s.port := deviceActs_port (s.selected .high)

@[simp] theorem deasserted_selects (s : State) : (deasserted s).selects = s.selects.tail :=
  deviceActs_selects (s.selected .high)

@[simp] theorem deasserted_part (s : State) : (deasserted s).part = s.part := deviceActs_part (s.selected .high)

@[simp] theorem deasserted_dev_sel (s : State) : (deasserted s).dev.sel = none := rfl

/-- The device and the mark after S-DEASSERT are those after the device's own act. -/
theorem deasserted_dev (s : State) :
    (deasserted s).dev = { (deviceActs (s.selected .high)).dev with sel := none } := rfl

theorem deasserted_wrong (s : State) : (deasserted s).wrong = (deviceActs (s.selected .high)).wrong := rfl

theorem deasserted_clock (s : State) : (deasserted s).clock = (deviceActs (s.selected .high)).clock := rfl

/-! ## The sequencer's steps, inverted -/

/-- A step that makes a select call goes on exactly where the call returns. -/
theorem onSelect_next (taken : State → State) (s t : State) :
    onSelect taken s = .next t ↔ s.nextSelect = .returns ∧ t = taken s := by
  unfold onSelect
  cases s.nextSelect <;> simp [eq_comm]

theorem onSelect_of_returns (taken : State → State) (s : State) (h : s.nextSelect = .returns) :
    onSelect taken s = .next (taken s) := by simp [onSelect, h]

theorem onSelect_of_never (taken : State → State) (s : State) (h : s.nextSelect = .never) :
    onSelect taken s = .fault .transportHang := by simp [onSelect, h]

/-- S-FRAME that goes on: the count, and the state before the count is tested. -/
theorem sFrame_next (s t : State) (h : sFrame s = .next t) :
    ∃ k, s.nextAnswer.count s.codec.fb.length = some k ∧
      t = checkCount k s.codec.fb.length
        { s with
          codec := { s.codec with cntFrame := k, phase := phaseAfterFrame (s.codec.op.xfer s.codec.n) }
          dev := s.dev.hear (s.codec.fb.take k)
          answers := s.answers.tail
          trace := s.trace ++ [.wr s.codec.fb k] } := by
  unfold sFrame at h
  split at h
  · cases h
  · next k u hb =>
    obtain ⟨hk, rfl⟩ := busWrite_eq_some _ _ _ _ hb
    cases h
    exact ⟨k, hk, rfl⟩

/-- S-XFER, read kind, that goes on. -/
theorem sXferRead_next (m : Nat) (s t : State) (h : sXferRead m s = .next t) :
    ∃ k, s.nextAnswer.count m = some k ∧
      t = checkCount k m
        { s with
          codec :=
            { s.codec with
              resp := received s.clock m k (deviceResponse s m)
              cntXfer := k
              phase := .deassert }
          answers := s.answers.tail
          clock := s.clock + 1
          trace := s.trace ++ [.rd m k (received s.clock m k (deviceResponse s m))] } := by
  unfold sXferRead at h
  split at h
  · cases h
  · next k data u hb =>
    obtain ⟨hk, rfl, rfl⟩ := busRead_eq_some _ _ _ _ _ hb
    cases h
    exact ⟨k, hk, rfl⟩

/-- S-XFER, write kind, that goes on. -/
theorem sXferWrite_next (s t : State) (h : sXferWrite s = .next t) :
    ∃ k, s.nextAnswer.count s.codec.payload.length = some k ∧
      t = checkCount k s.codec.n
        { s with
          codec := { s.codec with cntXfer := k, phase := .deassert }
          dev := s.dev.hear (s.codec.payload.take k)
          answers := s.answers.tail
          trace := s.trace ++ [.wr s.codec.payload k] } := by
  unfold sXferWrite at h
  split at h
  · cases h
  · next k u hb =>
    obtain ⟨hk, rfl⟩ := busWrite_eq_some _ _ _ _ hb
    cases h
    exact ⟨k, hk, rfl⟩

/-- All that one sequencer step can do, phase by phase (R118). -/
theorem tick_cases (s t : State) (h : tick s = .next t) :
    (s.codec.phase = .idle ∧ t = s) ∨
    (s.codec.phase = .assert ∧ s.nextSelect = .returns ∧ t = asserted s) ∨
    (s.codec.phase = .frame ∧ sFrame s = .next t) ∨
    (s.codec.phase = .xfer ∧ s.codec.op.xfer s.codec.n = .none ∧ t = s) ∨
    (s.codec.phase = .xfer ∧ ∃ m, s.codec.op.xfer s.codec.n = .read m ∧ sXferRead m s = .next t) ∨
    (s.codec.phase = .xfer ∧ s.codec.op.xfer s.codec.n = .write ∧ sXferWrite s = .next t) ∨
    (s.codec.phase = .deassert ∧ s.nextSelect = .returns ∧ t = deasserted s) := by
  unfold tick at h
  cases hp : s.codec.phase <;> simp only [hp] at h
  · cases h; simp
  · simpa using (onSelect_next _ _ _).1 h
  · simp [h]
  · unfold sXfer at h
    cases hx : s.codec.op.xfer s.codec.n <;> simp only [hx] at h
    · cases h; simp
    · simp [h]
    · simp [h]
  · simpa using (onSelect_next _ _ _).1 h

/-! ## Operations and steps -/

/-- Each arm of `exec` runs the bracket on its own instruction. -/
theorem exec_eq_operate (i : Instr) (s : State) : exec i s = operate i s := by cases i <;> rfl

/-- A property that gaps and sequencer steps keep is kept by a whole bracket. -/
theorem runBracket_keeps (P : State → Prop) (hgap : ∀ s, P s → P (gap s))
    (htick : ∀ s t, P s → tick s = .next t → P t) (fuel : Nat) (s t : State) (hs : P s)
    (h : runBracket fuel s = .next t) : P t := by
  induction fuel generalizing s with
  | zero => cases h; exact hs
  | succ fuel ih =>
    unfold runBracket at h
    split at h
    · cases h; exact hs
    · split at h
      · next u hu => exact ih u (htick _ _ (hgap s hs) hu) h
      · cases h
      · cases h

/-- A property that S-ACCEPT, gaps and sequencer steps keep is kept by every operation. -/
theorem exec_keeps (P : State → Prop) (hacc : ∀ i s, P s → s.codec.phase = .idle → P (sAccept i s))
    (hgap : ∀ s, P s → P (gap s)) (htick : ∀ s t, P s → tick s = .next t → P t) (i : Instr) (s t : State)
    (hs : P s) (h : exec i s = .next t) : P t := by
  rw [exec_eq_operate] at h
  unfold operate at h
  split at h
  · next ha =>
    simp only [acceptable, Bool.and_eq_true, decide_eq_true_eq] at ha
    exact runBracket_keeps P hgap htick 4 _ _ (hacc i s hs ha.1) h
  · cases h; exact hs

/-- All that one step can do. -/
theorem step_cases (s t : State) (h : step s = .next t) :
    (s.inputs = [] ∧ tick (gap s).ticked = .next t) ∨
    (∃ rest, s.inputs = .wait :: rest ∧ tick { s with inputs := rest } = .next t) ∨
    (∃ r rest, s.inputs = .call r :: rest ∧ ((∃ i, r.instr = some i ∧
      exec i { s with inputs := rest, port := r.operands } = .next t) ∨
      t = { s with inputs := rest, port := r.operands })) ∨
    (∃ r rest, s.inputs = .present r :: rest ∧ ((∃ i, r.instr = some i ∧ s.codec.phase = .idle ∧
      t = sAccept i { s with inputs := rest, port := r.operands }) ∨
      t = { s with inputs := rest, port := r.operands })) ∨
    (∃ rest, s.inputs = .complete :: rest ∧ t = devComplete { s with inputs := rest }) ∨
    (∃ rest, s.inputs = .reset :: rest ∧ t = codecReset { s with inputs := rest }) ∨
    (∃ b rest, s.inputs = .writeProtect b :: rest ∧ t = { s with inputs := rest, dev := { s.dev with wp := b } }) := by
  unfold step at h
  split at h
  · next hi => exact .inl ⟨hi, h⟩
  · next rest hi => exact .inr (.inl ⟨rest, hi, h⟩)
  · next r rest hi =>
    refine .inr (.inr (.inl ⟨r, rest, hi, ?_⟩))
    unfold stepCall at h
    split at h
    · next i hd => exact .inl ⟨i, hd, h⟩
    · cases h; exact .inr rfl
  · next r rest hi =>
    refine .inr (.inr (.inr (.inl ⟨r, rest, hi, ?_⟩)))
    cases h
    unfold stepPresent
    split
    · next i hd =>
      unfold presentRequest
      split
      · next ha =>
        simp only [acceptable, Bool.and_eq_true, decide_eq_true_eq] at ha
        exact .inl ⟨i, hd, ha.1, rfl⟩
      · exact .inr rfl
    · exact .inr rfl
  · next rest hi => cases h; exact .inr (.inr (.inr (.inr (.inl ⟨rest, hi, rfl⟩))))
  · next rest hi => cases h; exact .inr (.inr (.inr (.inr (.inr (.inl ⟨rest, hi, rfl⟩)))))
  · next b rest hi => cases h; exact .inr (.inr (.inr (.inr (.inr (.inr ⟨b, rest, hi, rfl⟩)))))

/-- A property that no input list, operand line, counter or pin matters to, and that S-ACCEPT, gaps, sequencer steps,
DEV-COMPLETE and the codec's reset keep, is kept by every step. -/
theorem step_keeps (P : State → Prop) (hin : ∀ s l o, P s → P { s with inputs := l, port := o })
    (hclock : ∀ s, P s → P s.ticked) (hwp : ∀ s b, P s → P { s with dev := { s.dev with wp := b } })
    (hacc : ∀ i s, P s → s.codec.phase = .idle → P (sAccept i s)) (hgap : ∀ s, P s → P (gap s))
    (htick : ∀ s t, P s → tick s = .next t → P t) (hcomplete : ∀ s, P s → P (devComplete s))
    (hreset : ∀ s, P s → P (codecReset s)) (s t : State) (hs : P s) (h : step s = .next t) : P t := by
  rcases step_cases s t h with ⟨_, h⟩ | ⟨rest, _, h⟩ | ⟨r, rest, _, ⟨i, _, h⟩ | rfl⟩ |
    ⟨r, rest, _, ⟨i, _, hp, rfl⟩ | rfl⟩ | ⟨rest, _, rfl⟩ | ⟨rest, _, rfl⟩ | ⟨b, rest, _, rfl⟩
  · exact htick _ _ (hclock _ (hgap s hs)) h
  · exact htick _ _ (hin s rest s.port hs) h
  · exact exec_keeps P hacc hgap htick i _ t (hin s rest r.operands hs) h
  · exact hin s rest r.operands hs
  · exact hacc i _ (hin s rest r.operands hs) hp
  · exact hin s rest r.operands hs
  · exact hcomplete _ (hin s rest s.port hs)
  · exact hreset _ (hin s rest s.port hs)
  · exact hwp _ b (hin s rest s.port hs)

end Sys2Proof.Machine
end

