-- ==== Sys2Proof/Laws/Device.lean ====
section
/-! SUPPORT. The Status Register's bits, and all that an effect rule of the device can do, said once. -/

namespace Sys2Proof.Machine

/-! ## The Status Register, bit by bit -/

theorem srSetWip_zero (s : Byte) : srSetWip s 0#8 = s &&& 0xFE#8 := by
  ext i hi
  simp only [srSetWip, srInject]
  interval_cases i <;> simp

theorem srSetWip_one (s : Byte) : srSetWip s 1#8 = s ||| 0x01#8 := by
  ext i hi
  simp only [srSetWip, srInject]
  interval_cases i <;> simp

theorem srSetWel_zero (s : Byte) : srSetWel s 0#8 = s &&& 0xFD#8 := by
  ext i hi
  simp only [srSetWel, srInject]
  interval_cases i <;> simp

theorem srSetWel_one (s : Byte) : srSetWel s 1#8 = s ||| 0x02#8 := by
  ext i hi
  simp only [srSetWel, srInject]
  interval_cases i <;> simp

theorem srWritten_eq (sr v : Byte) : srWritten sr v = (sr &&& 0x43#8) ||| (v &&& 0xBC#8) := by
  simp [srWritten, srWmask]

/-- A one-bit field is its bit. -/
theorem srField_bit (p : Nat) (s : Byte) : (srField p 0x01 s == 1) = s.getLsbD p := by
  have h : srField p 0x01 s = if s.getLsbD p then 1 else 0 := by
    ext i hi
    have hp : ∀ j, (s >>> p).getLsbD j = s.getLsbD (p + j) := fun j => by simp [BitVec.getLsbD_ushiftRight]
    rw [← BitVec.getLsbD_eq_getElem, ← BitVec.getLsbD_eq_getElem, srField, BitVec.getLsbD_and, hp]
    rcases Nat.eq_zero_or_pos i with rfl | hi0
    · cases s.getLsbD p <;> simp_all
    · have h1 : (1#8).getLsbD i = false := by interval_cases i <;> rfl
      cases s.getLsbD p <;> simp_all
  rw [h]
  cases s.getLsbD p <;> rfl

theorem Device.wip_eq (d : Device) : d.wip = d.sr.getLsbD 0 := srField_bit 0 d.sr
theorem Device.wel_eq (d : Device) : d.wel = d.sr.getLsbD 1 := srField_bit 1 d.sr
theorem Device.srp_eq (d : Device) : d.srp = d.sr.getLsbD 7 := srField_bit 7 d.sr

@[simp] theorem Device.finish_wip (d : Device) : d.finish.wip = false := by
  simp [Device.wip_eq, srSetWip_zero, srSetWel_zero]

@[simp] theorem Device.finish_wel (d : Device) : d.finish.wel = false := by
  simp [Device.wel_eq, srSetWip_zero, srSetWel_zero]

@[simp] theorem Device.startBusy_wip (d : Device) : d.startBusy.wip = true := by
  simp [Device.wip_eq, srSetWip_one]

@[simp] theorem Device.startBusy_wel (d : Device) : d.startBusy.wel = d.wel := by
  simp [Device.wel_eq, srSetWip_one]

@[simp] theorem Device.hear_wip (b : List Byte) (d : Device) : (d.hear b).wip = d.wip := rfl

/-! ## Effects, inverted -/

/-- What a writing operation needs (R127, R158). -/
theorem Device.writable_iff (d : Device) :
    d.writable = true ↔ d.pd = false ∧ d.selBusy = false ∧ d.wel = true := by
  simp [Device.writable, and_assoc]

/-- What `ifAccepted` can answer: ignored, rejected for protection, or accepted (R158). -/
theorem ifAccepted_ok (p : Part) (f : BpRange → Bool) (acc : Except GoneWrong Device) (d d' : Device)
    (h : ifAccepted p f acc d = .ok d') :
    (d.writable = false ∧ d' = d) ∨
    (d.writable = true ∧ ∃ r, bpLookup p d.bp = some r ∧ f r = true ∧ d' = d.rejected p) ∨
    (d.writable = true ∧ ∃ r, bpLookup p d.bp = some r ∧ f r = false ∧ acc = .ok d') := by
  unfold ifAccepted at h
  split at h
  · next hw =>
    split at h
    · cases h
    · next r hr =>
      split at h
      · next hf => cases h; exact .inr (.inl ⟨hw, r, hr, hf, rfl⟩)
      · next hf => exact .inr (.inr ⟨hw, r, hr, by simpa using hf, h⟩)
  · next hw => cases h; exact .inl ⟨by simpa using hw, rfl⟩

/-- As `ifAccepted_ok`, at an address: then the address exists. -/
theorem ifAcceptedAt_ok (p : Part) (a : Addr) (acc : Except GoneWrong Device) (d d' : Device)
    (h : ifAcceptedAt p a acc d = .ok d') :
    (d.writable = false ∧ d' = d) ∨
    (d.writable = true ∧ ∃ r, bpLookup p d.bp = some r ∧ bpProtects r (block a) = true ∧ d' = d.rejected p) ∨
    (d.writable = true ∧ a.toNat < p.totalSize ∧
      ∃ r, bpLookup p d.bp = some r ∧ bpProtects r (block a) = false ∧ acc = .ok d') := by
  unfold ifAcceptedAt at h
  split at h
  · cases h
  · next hn =>
    rcases ifAccepted_ok _ _ _ _ _ h with h | h | ⟨hw, h⟩
    · exact .inl h
    · exact .inr (.inl h)
    · refine .inr (.inr ⟨hw, ?_, h⟩)
      simpa [hw] using hn

/-- The change an accepted program or erase makes to the array. -/
def flashAfter (p : Part) (c : Nat) (i : Instr) (m : Memory) : Memory :=
  match i with
  | .pp a _ payload => memWrite c a payload m
  | .se a => m.erase (sectorBase a).toNat sectorSize
  | .be a => m.erase (blockBase a).toNat blockSize
  | .ce => m.erase 0 p.totalSize
  | .wren => m
  | .wrdi => m
  | .rdsr => m
  | .wrsr _ => m
  | .read _ _ => m
  | .fastRead _ _ => m
  | .dp => m
  | .rdp => m
  | .rddevid => m
  | .rdjedec => m

/-- The operation is a program or erase. -/
def Instr.changesArray (i : Instr) : Bool := i.op == .pp || i.op == .se || i.op == .be || i.op == .ce

/-- Every change an effect rule can make: none; WEL set or cleared; SRP and BP written; WEL cleared by a rejection;
the array changed and WIP set; power-down entered or left. -/
theorem effect_cases (p : Part) (c : Nat) (i : Instr) (d d' : Device) (h : effect p c i d = .ok d') :
    d' = d ∨
    (i = .wren ∧ d.pd = false ∧ d.heeds c = true ∧ d' = { d with sr := srSetWel d.sr 1 }) ∨
    (i = .wrdi ∧ d.pd = false ∧ d.heeds c = true ∧ d' = { d with sr := srSetWel d.sr 0 }) ∨
    (∃ v, i = .wrsr v ∧ d.writable = true ∧ d.srLocked = false ∧ p.wrsrBusy = true ∧
      d' = { d with sr := srSetWip (srWritten d.sr v) 1 }) ∨
    (∃ v, i = .wrsr v ∧ d.writable = true ∧ d.srLocked = false ∧ p.wrsrBusy = false ∧
      d' = { d with sr := srSetWel (srWritten d.sr v) 0 }) ∨
    (Instr.changesArray i = true ∧ d.writable = true ∧ p.welClearsOnReject = true ∧
      d' = { d with sr := srSetWel d.sr 0 }) ∨
    (Instr.changesArray i = true ∧ d.writable = true ∧ (i.op ≠ .ce → i.addr.toNat < p.totalSize) ∧
      d' = { d with sr := srSetWip d.sr 1, flash := flashAfter p c i d.flash }) ∨
    (i = .dp ∧ d.pd = false ∧ d.heeds c = true ∧ d' = { d with pd := true }) ∨
    (i = .rdp ∧ d.heeds c = true ∧ d' = { d with pd := false }) := by
  have reject (hi : Instr.changesArray i = true) (hw : d.writable = true) (hd : d' = d.rejected p) :
      d' = d ∨ (Instr.changesArray i = true ∧ d.writable = true ∧ p.welClearsOnReject = true ∧
        d' = { d with sr := srSetWel d.sr 0 }) := by
    unfold Device.rejected at hd
    split at hd
    · next hp => exact .inr ⟨hi, hw, hp, hd⟩
    · exact .inl hd
  cases i with
  | wren =>
    cases h
    unfold effectWren
    split
    · next hc => simp only [Bool.and_eq_true, Bool.not_eq_true'] at hc; simp [hc.1, hc.2]
    · simp
  | wrdi =>
    cases h
    unfold effectWrdi
    split
    · next hc => simp only [Bool.and_eq_true, Bool.not_eq_true'] at hc; simp [hc.1, hc.2]
    · simp
  | rdsr => cases h; exact .inl rfl
  | wrsr v =>
    cases h
    unfold effectWrsr
    split
    · next hc =>
      simp only [Bool.and_eq_true, Bool.not_eq_true'] at hc
      split
      · next hp => simp [hc.1, hc.2, hp, Device.startBusy]
      · next hp => simp [hc.1, hc.2, hp]
    · simp
  | read a n => cases h; exact .inl rfl
  | fastRead a n => cases h; exact .inl rfl
  | pp a n payload =>
    rcases ifAcceptedAt_ok _ _ _ _ _ h with ⟨_, hd⟩ | ⟨hw, r, _, _, hd⟩ | ⟨hw, ha, r, _, _, hd⟩
    · exact .inl hd
    · rcases reject rfl hw hd with h | h <;> simp [h]
    · split at hd
      · cases hd
      · cases hd
        simp [Instr.changesArray, Instr.op, Instr.addr, hw, ha, Device.startBusy, flashAfter]
  | se a =>
    rcases ifAcceptedAt_ok _ _ _ _ _ h with ⟨_, hd⟩ | ⟨hw, r, _, _, hd⟩ | ⟨hw, ha, r, _, _, hd⟩
    · exact .inl hd
    · rcases reject rfl hw hd with h | h <;> simp [h]
    · cases hd
      simp [Instr.changesArray, Instr.op, Instr.addr, hw, ha, Device.startBusy, flashAfter]
  | be a =>
    rcases ifAcceptedAt_ok _ _ _ _ _ h with ⟨_, hd⟩ | ⟨hw, r, _, _, hd⟩ | ⟨hw, ha, r, _, _, hd⟩
    · exact .inl hd
    · rcases reject rfl hw hd with h | h <;> simp [h]
    · cases hd
      simp [Instr.changesArray, Instr.op, Instr.addr, hw, ha, Device.startBusy, flashAfter]
  | ce =>
    rcases ifAccepted_ok _ _ _ _ _ h with ⟨_, hd⟩ | ⟨hw, r, _, _, hd⟩ | ⟨hw, r, _, _, hd⟩
    · exact .inl hd
    · rcases reject rfl hw hd with h | h <;> simp [h]
    · cases hd
      simp [Instr.changesArray, Instr.op, hw, Device.startBusy, flashAfter]
  | dp =>
    cases h
    unfold effectDp
    split
    · next hc => simp only [Bool.and_eq_true, Bool.not_eq_true'] at hc; simp [hc.1, hc.2]
    · simp
  | rdp =>
    cases h
    unfold effectRdp
    split
    · next hc => simp [hc]
    · simp
  | rddevid => cases h; exact .inl rfl
  | rdjedec => cases h; exact .inl rfl

/-- No effect rule touches the selection's bookkeeping or the write-protect pin. -/
theorem effect_bookkeeping (p : Part) (c : Nat) (i : Instr) (d d' : Device) (h : effect p c i d = .ok d') :
    d'.sel = d.sel ∧ d'.selBusy = d.selBusy ∧ d'.wp = d.wp := by
  rcases effect_cases p c i d d' h with h | ⟨_, _, _, h⟩ | ⟨_, _, _, h⟩ | ⟨_, _, _, _, _, h⟩ | ⟨_, _, _, _, _, h⟩ |
    ⟨_, _, _, h⟩ | ⟨_, _, _, h⟩ | ⟨_, _, _, h⟩ | ⟨_, _, h⟩ <;> subst h <;> exact ⟨rfl, rfl, rfl⟩

end Sys2Proof.Machine
end

