-- ==== Sys2Proof/Laws/Operation.lean ====
section
/-! SUPPORT. A whole operation in the reference environment (`State.Ready`): one lemma for each kind of transfer, from which
the end of every operation follows by its device rule alone. -/

namespace Sys2Proof.Machine

/-- The device when chip-select rises at the end of a selection of `stream` that began with WIP = 0. -/
def Device.heard (stream : List Byte) (d : Device) : Device := { d with sel := some stream, selBusy := false }

@[simp] theorem Device.heard_sr (l : List Byte) (d : Device) : (d.heard l).sr = d.sr := rfl
@[simp] theorem Device.heard_flash (l : List Byte) (d : Device) : (d.heard l).flash = d.flash := rfl
@[simp] theorem Device.heard_pd (l : List Byte) (d : Device) : (d.heard l).pd = d.pd := rfl
@[simp] theorem Device.heard_sel (l : List Byte) (d : Device) : (d.heard l).sel = some l := rfl
@[simp] theorem Device.heard_selBusy (l : List Byte) (d : Device) : (d.heard l).selBusy = false := rfl
@[simp] theorem Device.heard_wp (l : List Byte) (d : Device) : (d.heard l).wp = d.wp := rfl
@[simp] theorem Device.heard_wip (l : List Byte) (d : Device) : (d.heard l).wip = d.wip := rfl
@[simp] theorem Device.heard_wel (l : List Byte) (d : Device) : (d.heard l).wel = d.wel := rfl
@[simp] theorem Device.heard_srp (l : List Byte) (d : Device) : (d.heard l).srp = d.srp := rfl
@[simp] theorem Device.heard_bp (l : List Byte) (d : Device) : (d.heard l).bp = d.bp := rfl
@[simp] theorem Device.heard_srLocked (l : List Byte) (d : Device) : (d.heard l).srLocked = d.srLocked := rfl
@[simp] theorem Device.heard_heeds (c : Nat) (l : List Byte) (d : Device) : (d.heard l).heeds c = true := rfl
@[simp] theorem Device.heard_listening (l : List Byte) (d : Device) : (d.heard l).listening = !d.pd := by
  simp [Device.listening]
@[simp] theorem Device.heard_writable (l : List Byte) (d : Device) : (d.heard l).writable = (!d.pd && d.wel) := by
  simp [Device.writable]

/-- Putting the selection away leaves only the bookkeeping written. -/
theorem Device.heard_put_away (l : List Byte) (d : Device) : { d.heard l with sel := none } = d.untouched := rfl

/-- What the device and the mark are once chip-select rises on a device that heard `stream`, at count `c`. -/
structure Acted (s t : State) (c : Nat) (stream : List Byte) : Prop where
  ok : ∀ i d, decode stream 0 = .ok i → effect s.part c i (s.dev.heard stream) = .ok d →
    t.wrong = none ∧ t.dev = { d with sel := none }
  noMeaning : ∀ i w, decode stream 0 = .ok i → effect s.part c i (s.dev.heard stream) = .error w → t.wrong = some w

/-- S-DEASSERT on a device that heard `stream`. -/
theorem deasserted_acted (s u : State) (stream : List Byte) (hp : u.part = s.part) (hw : u.wrong = none)
    (herr : u.codec.err = errNone) (hd : u.dev = s.dev.heard stream) : Acted s (deasserted u) u.clock stream := by
  have hdec : (u.selected .high).dev.sel.getD [] = stream := by simp [hd]
  constructor
  · intro i d hi he
    have : deviceActs (u.selected .high) = (u.selected .high).acted d := by
      unfold deviceActs
      rw [hdec]
      simp [hw, herr, hi, hp, hd, he]
    rw [deasserted_wrong, deasserted_dev, this]
    exact ⟨hw, rfl⟩
  · intro i w hi he
    have : deviceActs (u.selected .high) = (u.selected .high).lose w := by
      unfold deviceActs
      rw [hdec]
      simp [hw, herr, hi, hp, hd, he]
    rw [deasserted_wrong, this]
    simp [hw]

theorem State.PerfectTransport.nextAnswer {s : State} (h : s.PerfectTransport) : s.nextAnswer = .exact := by
  unfold State.nextAnswer
  cases ha : s.answers with
  | nil => rfl
  | cons a l => exact h.1 a (by simp [ha])

theorem State.PerfectTransport.nextSelect {s : State} (h : s.PerfectTransport) : s.nextSelect = .returns := by
  unfold State.nextSelect
  cases ha : s.selects with
  | nil => rfl
  | cons a l => exact h.2 a (by simp [ha])

/-- What is left of a perfect transport is perfect. -/
theorem State.PerfectTransport.suffix {s t : State} (h : s.PerfectTransport) (ha : t.answers <:+ s.answers)
    (hs : t.selects <:+ s.selects) : t.PerfectTransport :=
  ⟨fun a hm => h.1 a (ha.subset hm), fun a hm => h.2 a (hs.subset hm)⟩

/-- Two answers used. -/
theorem tail_tail {α : Type} (l : List α) : l.tail.tail = l.drop 2 := by rcases l with _ | ⟨_, _ | _⟩ <;> rfl

/-- The second select call of an operation returns too. -/
theorem nextSelect_after {s u : State} (h : s.PerfectTransport) (hu : u.selects = s.selects.tail) :
    u.nextSelect = .returns :=
  State.PerfectTransport.nextSelect (s := { s with selects := u.selects })
    (h.suffix (List.suffix_refl _) (hu ▸ List.tail_suffix _))

theorem runBracket_idle (fuel : Nat) (s : State) (h : s.codec.phase = .idle) : runBracket fuel s = .next s := by
  cases fuel <;> simp [runBracket, h]

/-- The state in phase ASSERT to the end of S-FRAME, in the reference environment. -/
theorem runBracket_frame (fuel : Nat) (i : Instr) (s : State) (hs : s.Ready) :
    runBracket (fuel + 2) (sAccept i s) = runBracket fuel
      { sAccept i s with
        codec :=
          { (sAccept i s).codec with
            cs := .low
            cntFrame := (frame i.op i.addr i.srIn).length
            phase := phaseAfterFrame (i.op.xfer i.n) }
        dev := s.dev.heard (frame i.op i.addr i.srIn)
        answers := s.answers.tail
        selects := s.selects.tail
        trace := s.trace ++ [.sel .low, .wr (frame i.op i.addr i.srIn) (frame i.op i.addr i.srIn).length] } := by
  obtain ⟨_, ht, hok, hwip⟩ := hs
  have hnext := ht.nextAnswer
  simp only [State.nextAnswer] at hnext
  have h1 : gap (sAccept i s) = sAccept i s := gap_of_not_wip _ hwip
  have h2 : gap (asserted (sAccept i s)) = asserted (sAccept i s) := gap_of_not_wip _ hwip
  rw [runBracket, if_neg (by simp), h1]
  simp only [tick, sAccept_codec_phase, sAssert, onSelect_of_returns asserted (sAccept i s) ht.nextSelect]
  rw [runBracket, if_neg (by simp), h2]
  simp only [tick, asserted_codec, sFrame, busWrite, State.nextAnswer, asserted_answers, sAccept_answers, hnext,
    Answer.count, checkCount_of_ge _ _ _ (Nat.le_refl _)]
  simp [Device.heard, Device.hear, hwip, xfer_latched]

/-- An operation without a transfer (R108), in the reference environment. -/
theorem exec_ready_none (i : Instr) (s : State) (hs : s.Ready) (hwf : i.wellFormed = true)
    (hx : i.op.xfer i.n = .none) :
    ∃ t, exec i s = .next t ∧
      Finished s t i (frame i.op i.addr i.srIn) [] 0 (decodeResult i.op [])
        [.sel .low, .wr (frame i.op i.addr i.srIn) (frame i.op i.addr i.srIn).length, .sel .high] ∧
      Acted s t s.clock (frame i.op i.addr i.srIn) := by
  have ha : acceptable i s = true := by simp [acceptable, hs.1, hwf]
  rw [exec_eq_operate, operate, if_pos ha, runBracket_frame 2 i s hs, hx]
  rw [runBracket, if_neg (by simp [phaseAfterFrame]), gap_of_not_wip _ (by simp [hs.2.2.2])]
  simp only [tick, phaseAfterFrame, sDeassert]
  rw [onSelect_of_returns _ _ (nextSelect_after hs.2.1 rfl)]
  simp only [runBracket_idle _ (deasserted _) (deasserted_codec_phase _)]
  refine ⟨_, rfl, ?_, deasserted_acted s _ _ rfl hs.2.2.1 rfl rfl⟩
  constructor <;> simp [errNone, tail_tail]

/-- An operation that reads `m` bytes (R108), in the reference environment. -/
theorem exec_ready_read (i : Instr) (s : State) (m : Nat) (hs : s.Ready) (hwf : i.wellFormed = true)
    (hx : i.op.xfer i.n = .read m) (j : Instr) (hj : decode (frame i.op i.addr i.srIn) m = .ok j) :
    ∃ t data, exec i s = .next t ∧
      data = received s.clock m m
        (respond s.part s.clock m j (s.dev.heard (frame i.op i.addr i.srIn))) ∧
      Finished s t i (frame i.op i.addr i.srIn) data m (decodeResult i.op data)
        [.sel .low, .wr (frame i.op i.addr i.srIn) (frame i.op i.addr i.srIn).length, .rd m m data, .sel .high] ∧
      Acted s t (s.clock + 1) (frame i.op i.addr i.srIn) := by
  have ha : acceptable i s = true := by simp [acceptable, hs.1, hwf]
  have hok : s.wrong = none := hs.2.2.1
  have hnext : s.answers.tail.headD Answer.exact = .exact :=
    (hs.2.1.suffix (t := s.answered) (List.tail_suffix _) (List.suffix_refl _)).nextAnswer
  rw [exec_eq_operate, operate, if_pos ha, runBracket_frame 2 i s hs, hx]
  rw [runBracket, if_neg (by simp [phaseAfterFrame]), gap_of_not_wip _ (by simp [hs.2.2.2])]
  simp only [tick, phaseAfterFrame, sXfer, sAccept_codec_op, sAccept_codec_n, xfer_latched, hx, sXferRead, busRead,
    State.nextAnswer, hnext, Answer.count, checkCount_of_ge _ _ _ (Nat.le_refl _)]
  rw [runBracket, if_neg (by simp), gap_of_not_wip _ (by simp [hs.2.2.2])]
  simp only [tick, sDeassert]
  rw [onSelect_of_returns _ _ (nextSelect_after hs.2.1 rfl)]
  simp only [runBracket_idle _ (deasserted _) (deasserted_codec_phase _)]
  refine ⟨_, _, rfl, rfl, ?_, ?_⟩
  · constructor <;>
      simp [errNone, tail_tail, deviceResponse, hok, hj, Device.heard]
  · exact deasserted_acted s _ _ rfl hok rfl rfl

/-- Page Program, the one operation that writes a payload (R108), in the reference environment. -/
theorem exec_ready_write (i : Instr) (s : State) (hs : s.Ready) (hwf : i.wellFormed = true)
    (hx : i.op.xfer i.n = .write) (hn : i.payload.length = i.n) :
    ∃ t, exec i s = .next t ∧
      Finished s t i (frame i.op i.addr i.srIn) [] i.n (decodeResult i.op [])
        [.sel .low, .wr (frame i.op i.addr i.srIn) (frame i.op i.addr i.srIn).length, .wr i.payload i.n, .sel .high] ∧
      Acted s t s.clock (encode i) := by
  have ha : acceptable i s = true := by simp [acceptable, hs.1, hwf]
  have hnext : s.answers.tail.headD Answer.exact = .exact :=
    (hs.2.1.suffix (t := s.answered) (List.tail_suffix _) (List.suffix_refl _)).nextAnswer
  rw [exec_eq_operate, operate, if_pos ha, runBracket_frame 2 i s hs, hx]
  rw [runBracket, if_neg (by simp [phaseAfterFrame]), gap_of_not_wip _ (by simp [hs.2.2.2])]
  simp only [tick, phaseAfterFrame, sXfer, sAccept_codec_op, sAccept_codec_n, (payload_latched i s.port hx).2, hx, sXferWrite, busWrite,
    State.nextAnswer, hnext, Answer.count, sAccept_codec_payload, (payload_latched i s.port hx).1, hn,
    checkCount_of_ge _ _ _ (Nat.le_refl _)]
  rw [runBracket, if_neg (by simp), gap_of_not_wip _ (by simp [hs.2.2.2])]
  simp only [tick, sDeassert]
  rw [onSelect_of_returns _ _ (nextSelect_after hs.2.1 rfl)]
  simp only [runBracket_idle _ (deasserted _) (deasserted_codec_phase _)]
  refine ⟨_, rfl, ?_, deasserted_acted s _ _ rfl hs.2.2.1 rfl ?_⟩
  · constructor <;> simp [errNone, tail_tail, (payload_latched i s.port hx).1, (payload_latched i s.port hx).2]
  · simp [Device.hear, Device.heard, encode, ← hn]

end Sys2Proof.Machine
end

