-- ==== Sys2Proof/Laws/PerInstr.lean ====
section
/-! SUPPORT. A family of statements about every instruction as syntax: the frame a request gets begins with the opcode that
selects its operation, and has the length its format fixes (R70, R71, R72, R77). -/

namespace Sys2Proof.Laws.FrameShape

def Statement (i : Instr) : Prop :=
  Op.ofOpcode i.op.opcode = some i.op ∧ (encode i).head? = some i.op.opcode ∧
    (encode i).length = i.op.format.length + i.payload.length

theorem wren : Statement .wren := ⟨rfl, rfl, rfl⟩
theorem wrdi : Statement .wrdi := ⟨rfl, rfl, rfl⟩
theorem rdsr : Statement .rdsr := ⟨rfl, rfl, rfl⟩
theorem wrsr (srIn : Byte) : Statement (.wrsr srIn) := ⟨rfl, rfl, rfl⟩
theorem read (addr : Addr) (n : Nat) : Statement (.read addr n) := ⟨rfl, rfl, rfl⟩
theorem fastRead (addr : Addr) (n : Nat) : Statement (.fastRead addr n) := ⟨rfl, rfl, rfl⟩
theorem pp (addr : Addr) (n : Nat) (payload : List Byte) : Statement (.pp addr n payload) :=
  ⟨rfl, rfl, by simp [encode, frame, Instr.op, Op.format, Format.length, Instr.payload]; omega⟩
theorem se (addr : Addr) : Statement (.se addr) := ⟨rfl, rfl, rfl⟩
theorem be (addr : Addr) : Statement (.be addr) := ⟨rfl, rfl, rfl⟩
theorem ce : Statement .ce := ⟨rfl, rfl, rfl⟩
theorem dp : Statement .dp := ⟨rfl, rfl, rfl⟩
theorem rdp : Statement .rdp := ⟨rfl, rfl, rfl⟩
theorem rddevid : Statement .rddevid := ⟨rfl, rfl, rfl⟩
theorem rdjedec : Statement .rdjedec := ⟨rfl, rfl, rfl⟩

end Sys2Proof.Laws.FrameShape
end

