-- ==== Sys2Proof/Tests/Slice0.lean ====
section
/-! SUPPORT. Tests with expected values from `spec/95_test_vectors.md` (the section is named at each group), and for
every obligation with hypotheses a state and operands that meet them together (`witness_…`). -/

namespace Sys2Proof.Tests

open Sys2Proof Sys2Proof.Machine

/-! ## A small machine -/

/-- Two blocks, the identification bytes of program P1, BP = 1 protects block 1, BP = 2 both blocks; BP above 10 is
outside `BP_VALID`. -/
def part : Part :=
  { nBlocks := 2
    mfrId := 0x01
    devId := 0x14
    memType := 0x40
    capacity := 0x15
    expectedDeviceId := 0x14
    expectedJedec16 := 0x4015
    bpTable := [⟨0, 0, 0⟩, ⟨1, 1, 1⟩, ⟨2, 0, 2⟩, ⟨3, 0, 0⟩, ⟨4, 0, 0⟩, ⟨5, 0, 0⟩, ⟨6, 0, 0⟩, ⟨7, 0, 0⟩, ⟨8, 0, 0⟩,
      ⟨9, 0, 0⟩, ⟨10, 0, 0⟩]
    wrsrBusy := true
    welClearsOnReject := false }

theorem test_part_wf : part.wf = true := by decide

def chip (sr : Byte) (flash : Memory) : Device :=
  { sr := sr, flash := flash, pd := false, sel := none, selBusy := false, wp := false }

def asleep : Device := { chip 0x00 [] with pd := true }

/-- The codec in IDLE in front of the device `d`, the reference environment. -/
def machine (d : Device) : State := { State.reset with part := part, dev := d }

/-- Mid-operation: phase, operation, operands of `i`, bytes of the selection so far, trace. -/
def mid (phase : Phase) (i : Instr) (d : Device) (trace : List Event) : State :=
  { machine d with
    codec :=
      { Codec.reset with
        phase := phase
        cs := if d.sel.isSome then .low else .high
        op := i.op
        addr := i.addr
        srIn := i.srIn
        n := i.n
        payload := i.payload
        fb := frame i.op i.addr i.srIn }
    trace := trace }

def chosen (l : List Byte) (d : Device) : Device := { d with sel := some l }

def outcome {α : Type} (f : State → α) (r : Result) : Option α :=
  match r with
  | .next t => some (f t)
  | .fault _ => none
  | .refused _ => none

theorem machine_ready (d : Device) (h : d.wip = false) : (machine d).Ready :=
  ⟨rfl, ⟨(by intro a ha; cases ha), (by intro a ha; cases ha)⟩, rfl, h⟩

/-! ## Well-formedness (R102) -/

theorem test_wf_pp : (Instr.pp 0x000200 1 [0x00]).wellFormed = true := by decide
theorem test_ill_formed_pp_long : (Instr.pp 0x000200 2 [0x00]).wellFormed = false := by decide
theorem test_ill_formed_pp_short : (Instr.pp 0x000200 0 [0x00]).wellFormed = false := by decide
theorem test_ill_formed_pp_not_run :
    outcome (fun t => (t.codec.done, t.trace)) (exec (.pp 0x000200 2 [0x00]) (machine (chip 0x02 []))) =
      some (false, []) := by decide

/-! ## Decoding (2.1, 2.8), one or more frames for every operation -/

theorem test_decode_wren : decode [0x06] 0 = .ok .wren := by decide
theorem test_decode_wrdi : decode [0x04] 0 = .ok .wrdi := by decide
theorem test_decode_rdsr : decode [0x05] 0 = .ok .rdsr := by decide
theorem test_decode_wrsr : decode [0x01, 0x9C] 0 = .ok (.wrsr 0x9C) := by decide
theorem test_decode_read : decode [0x03, 0xAB, 0xCD, 0xEF] 2 = .ok (.read 0xABCDEF 2) := by decide
theorem test_decode_fastRead : decode [0x0B, 0xAB, 0xCD, 0xEF, 0x00] 1 = .ok (.fastRead 0xABCDEF 1) := by decide
theorem test_decode_pp :
    decode [0x02, 0x00, 0x10, 0x00, 0xDE, 0xAD, 0xBE, 0xEF] 0 = .ok (.pp 0x001000 4 [0xDE, 0xAD, 0xBE, 0xEF]) := by
  decide
theorem test_decode_pp_empty : decode [0x02, 0x00, 0x10, 0x00] 0 = .ok (.pp 0x001000 0 []) := by decide
theorem test_decode_se : decode [0x20, 0x01, 0x23, 0x45] 0 = .ok (.se 0x012345) := by decide
theorem test_decode_be : decode [0xD8, 0x1F, 0x00, 0x00] 0 = .ok (.be 0x1F0000) := by decide
theorem test_decode_ce : decode [0xC7] 0 = .ok .ce := by decide
theorem test_decode_dp : decode [0xB9] 0 = .ok .dp := by decide
theorem test_decode_rdp : decode [0xAB] 0 = .ok .rdp := by decide
theorem test_decode_rddevid : decode [0x90, 0x00, 0x00, 0x00] 0 = .ok .rddevid := by decide
theorem test_decode_rdjedec : decode [0x9F] 0 = .ok .rdjedec := by decide

/-- The streams 2.8 calls INVALID. -/
theorem test_decode_invalid :
    [[], [0x06, 0x00], [0x01], [0x03, 0xAB, 0xCD], [0x0B, 0x00, 0x01, 0x00, 0x01], [0x0B, 0x00, 0x01, 0x00],
      [0x90, 0x00, 0x00, 0x01], [0x00], [0xFF], [0x60], [0x52]].all
      (fun l => match decode l 0 with | .ok _ => false | .error _ => true) = true := by decide

/-- Exactly 14 of the 256 opcodes name an operation (R72, R82). -/
theorem test_opcode_count : ((List.range 256).filter fun b => (Op.ofOpcode (BitVec.ofNat 8 b)).isSome).length = 14 := by
  decide

theorem test_encode_fastRead : encode (.fastRead 0x000100 3) = [0x0B, 0x00, 0x01, 0x00, 0x00] := by decide
theorem test_encode_pp : encode (.pp 0x0002FA 2 [0x10, 0x11]) = [0x02, 0x00, 0x02, 0xFA, 0x10, 0x11] := by decide

/-! Words of `spec/opcode_table.json`, R71's numbering. -/

theorem test_table_rddevid : decodeTableWord 32 0x90000000 = some .rddevid := by decide
theorem test_table_fastRead : decodeTableWord 40 0x0BABCDEF00 = some (.fastRead 0xABCDEF 0) := by decide
theorem test_table_refused : decodeTableWord 8 0x52 = none := by decide

/-! ## Status Register decoder (2.4) -/

theorem test_sr_extract : (srWip 0x9E, srWel 0x9E, srBp 0x9E, srRsv 0x9E, srSrp 0x9E) = (0, 1, 7, 0, 1) := by decide
theorem test_sr_inject :
    (srSetBp 0x43 10, srSetBp 0x9E 0x1F, srSetSrp 0x7F 3, srSetWip 0xFF 0, srSetWel 0x00 1) =
      (0x6B, 0xBE, 0xFF, 0xFE, 0x02) := by decide
theorem test_sr_compose : (srCompose 0xFF 1 15, srCompose 0x43 0 10, srCompose 0xBF 0 3) = (0xFC, 0x68, 0x0C) := by
  decide

/-! ## Geometry and page wrap (2.7) -/

theorem test_units :
    (block 0xABCDEF, sector 0xABCDEF, page 0xABCDEF, sectorBase 0x012345, blockBase 0x012345) =
      (171, 2748, 43981, 0x012000, 0x010000) := by decide
theorem test_target :
    (target 0x0002FA 5, target 0x0002FA 6, target 0x000201 255, target 0x1FFFFF 1, target 0xABCDEF 17) =
      (0x0002FF, 0x000200, 0x000200, 0x1FFF00, 0xABCD00) := by decide

/-! ## Operations (2.2, 2.5, 2.6, 2.9) -/

def srAfter (i : Instr) (d : Device) : Option Byte := outcome (fun t => t.dev.sr) (exec i (machine d))

theorem test_wren : srAfter .wren (chip 0x00 []) = some 0x02 := by decide
theorem test_wrdi : srAfter .wrdi (chip 0x02 []) = some 0x00 := by decide
theorem test_rdsr :
    outcome (fun t => (t.codec.result, t.trace)) (exec .rdsr (machine (chip 0x9E []))) =
      some (0x009E, [.sel .low, .wr [0x05] 1, .rd 1 1 [0x9E], .sel .high]) := by decide
theorem test_wrsr : srAfter (.wrsr 0xD4) (chip 0x42 []) = some 0xD7 := by decide
theorem test_wrsr_locked : srAfter (.wrsr 0x00) { chip 0x82 [] with wp := true } = some 0x82 := by decide

theorem test_read_crosses_units :
    outcome (fun t => t.codec.resp) (exec (.read 0x011FFF 3) (machine (chip 0x00 [(0x011FFF, 0x56), (0x012001, 0x01)]))) =
      some [0x56, 0xFF, 0x01] := by decide
theorem test_read_past_the_end :
    outcome (fun t => (t.codec.resp.take 2, t.codec.cntXfer, t.codec.err))
      (exec (.read 0x01FFFE 4) (machine (chip 0x00 [(0x01FFFE, 0xAA), (0x01FFFF, 0xBB)]))) =
      some ([0xAA, 0xBB], 4, 0x00) := by decide
theorem test_fastRead :
    outcome (fun t => (t.codec.fb, t.codec.resp)) (exec (.fastRead 0x000100 2) (machine (chip 0x00 [(0x000100, 0x5A)]))) =
      some ([0x0B, 0x00, 0x01, 0x00, 0x00], [0x5A, 0xFF]) := by decide

/-- Example E3, program P3. -/
theorem test_pp_wraps :
    outcome (fun t => t.dev.flash)
      (exec (.pp 0x0002FE 4 [0x10, 0x11, 0x12, 0x13]) (machine (chip 0x02 [(0x000300, 0x5A)]))) =
      some [(0x000200, 0x12), (0x000201, 0x13), (0x0002FE, 0x10), (0x0002FF, 0x11), (0x000300, 0x5A)] := by decide
theorem test_pp_outside :
    outcome (fun t => (t.wrong, t.codec.err)) (exec (.pp 0x020000 1 [0x00]) (machine (chip 0x02 []))) =
      some (some .addressOutside, 0x00) := by decide

def fiveBytes : Memory :=
  [(0x00FFFF, 0x01), (0x011FFF, 0x56), (0x012000, 0x12), (0x012FFF, 0x34), (0x013000, 0x78)]

theorem test_se :
    outcome (fun t => (t.dev.sr, t.dev.flash)) (exec (.se 0x012345) (machine (chip 0x02 fiveBytes))) =
      some (0x03, [(0x00FFFF, 0x01), (0x011FFF, 0x56), (0x013000, 0x78)]) := by decide
theorem test_se_protected :
    outcome (fun t => (t.dev.sr, t.dev.flash)) (exec (.se 0x012345) (machine (chip 0x06 fiveBytes))) =
      some (0x06, fiveBytes) := by decide
theorem test_be :
    outcome (fun t => (t.dev.sr, t.dev.flash)) (exec (.be 0x012345) (machine (chip 0x02 fiveBytes))) =
      some (0x03, [(0x00FFFF, 0x01)]) := by decide
theorem test_ce :
    outcome (fun t => (t.dev.sr, t.dev.flash)) (exec .ce (machine (chip 0x02 fiveBytes))) = some (0x03, []) := by decide
theorem test_ce_protected :
    outcome (fun t => (t.dev.sr, t.dev.flash)) (exec .ce (machine (chip 0x06 fiveBytes))) =
      some (0x06, fiveBytes) := by decide

theorem test_dp : outcome (fun t => t.dev.pd) (exec .dp (machine (chip 0x00 []))) = some true := by decide
theorem test_rdp : outcome (fun t => t.dev.pd) (exec .rdp (machine asleep)) = some false := by decide

theorem test_rddevid :
    outcome (fun t => (t.codec.resp, t.codec.result)) (exec .rddevid (machine (chip 0x00 []))) =
      some ([0x01, 0x14], 0x0014) := by decide
theorem test_rdjedec :
    outcome (fun t => (t.codec.resp, t.codec.result)) (exec .rdjedec (machine (chip 0x00 []))) =
      some ([0x01, 0x40, 0x15], 0x4015) := by decide

/-! ## Short counts (2.3) -/

theorem test_short_frame :
    outcome (fun t => (t.codec.err, t.codec.cntFrame, t.codec.cs, t.trace, t.wrong))
      (exec .wren { machine (chip 0x00 []) with answers := [.upTo 0] }) =
      some (0x01, 0, .high, [.sel .low, .wr [0x06] 0, .sel .high], some .transportIncomplete) := by decide
/-- The device hears the part of a short frame and changes at `SEL(HIGH)` only (R115). -/
theorem test_short_frame_device :
    outcome (fun t => (t.codec.err, t.dev, t.wrong))
      (tick { mid .frame (.se 0x012345) (chosen [] (chip 0x02 [])) [.sel .low] with answers := [.upTo 2] }) =
      some (0x01, chosen [0x20, 0x01] (chip 0x02 []), none) := by decide
theorem test_short_read :
    outcome (fun t => (t.codec.err, t.codec.cntFrame, t.codec.cntXfer, t.codec.resp.take 2))
      (exec .rdjedec { machine (chip 0x00 []) with answers := [.exact, .upTo 2] }) =
      some (0x01, 1, 2, [0x01, 0x40]) := by decide

/-! ## Select calls (R118, R206) -/

def hangs (r : Result) : Bool :=
  match r with
  | .fault .transportHang => true
  | .next _ => false
  | .refused _ => false

theorem test_select_low_hangs : hangs (exec .ce { machine (chip 0x02 []) with selects := [.never] }) = true := by decide
theorem test_select_high_hangs :
    hangs (exec .ce { machine (chip 0x02 []) with selects := [.returns, .never] }) = true := by decide

/-! ## The step -/

theorem test_step_word_is_exec :
    step (State.reset.withFetchWord 32 0x20123456) =
      exec (.se 0x123456) { State.reset with port := { Operands.rest with addr := 0x123456 } } := rfl
/-- R102: an operand the operation does not use is latched as given, and is in no frame (R79). -/
theorem test_unused_operands_are_latched :
    outcome (fun t => (t.codec.addr, t.codec.srIn, t.codec.n, t.codec.payload, t.codec.fb))
      (step { machine (chip 0x00 []) with inputs := [.present ⟨0x06, ⟨0x123456, 0x9C, 7, [0xAA]⟩⟩] }) =
      some (0x123456, 0x9C, 7, [0xAA], [0x06]) := by decide
/-- R82: a request code that is no operation's. -/
theorem test_unused_code :
    outcome (fun t => (t.codec.phase, t.trace)) (step { machine (chip 0x00 []) with inputs := [.call Request.unused] }) =
      some (.idle, []) := by decide
theorem test_step_reset_input :
    outcome (fun t => (t.codec.phase, t.wrong))
      (step { mid .xfer .rdsr (chosen [0x05] (chip 0x00 [])) [] with inputs := [.reset] }) =
      some (.idle, some .resetCut) := by decide

/-! ## Witnesses: encoding -/

theorem witness_DecodeOfEncodeIsTheInstruction :
    (Instr.pp 0xFFFFFF 2 [0x00, 0xFF]).wellFormed = true ∧ (Instr.fastRead 0 0).wellFormed = true := by decide
theorem witness_EncodeOfDecodeIsTheStream :
    decode [0x03, 0xFF, 0xFF, 0xFF] 16 = .ok (.read 0xFFFFFF 16) ∧
      ((Instr.read 0xFFFFFF 16).op = .read ∨ (Instr.read 0xFFFFFF 16).op = .fastRead) := by decide
theorem witness_OpcodeFixesOperationAndLength : Op.pp.opcode = (Instr.pp 0 0 []).op.opcode := by decide
theorem witness_AddressGoesOutMostSignificantByteFirst :
    ∀ o ∈ [Op.read, .fastRead, .pp, .se, .be], o = .read ∨ o = .fastRead ∨ o = .pp ∨ o = .se ∨ o = .be := by decide

/-! ## Witnesses: the step -/

/-- A machine with the write-enable latch set. -/
def enabled : State := machine (chip 0x02 [(0x000300, 0x5A)])

theorem enabled_ready : enabled.Ready := machine_ready _ (by decide)

theorem witness_ComposedStatusReadsBack :
    enabled.Ready ∧ enabled.dev.pd = false ∧ enabled.dev.wel = true ∧ enabled.dev.srLocked = false :=
  ⟨enabled_ready, by decide⟩

theorem witness_StepRunsTheDecodedInstruction_call :
    { enabled with inputs := [.call ⟨0x06, ⟨0x123456, 0, 7, []⟩⟩] }.inputs = [.call ⟨0x06, ⟨0x123456, 0, 7, []⟩⟩] ∧
      (Request.mk 0x06 ⟨0x123456, 0, 7, []⟩).instr = some .wren := by decide
theorem witness_StepRunsTheDecodedInstruction_word :
    enabled.codec.phase = .idle ∧ decodeTableWord 8 0x06 = some .wren := by decide

theorem witness_StepRunsTheDecodedInstruction_unused :
    { enabled with inputs := [.call Request.unused] }.inputs = [.call Request.unused] ∧
      { enabled with inputs := [.present ⟨0x52, Operands.rest⟩] }.inputs = [.present ⟨0x52, Operands.rest⟩] ∧
      (∀ o : Op, Request.unused.code ≠ o.opcode) ∧ ∀ o : Op, (0x52 : Byte) ≠ o.opcode :=
  ⟨rfl, rfl, by intro o; cases o <;> decide, by intro o; cases o <;> decide⟩
theorem witness_StepRunsTheDecodedInstruction_pin :
    { enabled with inputs := [.writeProtect true] }.inputs = [.writeProtect true] := by decide

theorem witness_OnlyAHangingTransportStops_step :
    ∃ f, step { mid .frame .wren (chosen [] (chip 0x00 [])) [.sel .low] with answers := [.never] } = .fault f :=
  ⟨_, rfl⟩
/-- In FRAME, in XFER of a read and of a write. -/
theorem witness_OnlyAHangingTransportStops_tick :
    { mid .frame .wren (chosen [] (chip 0x00 [])) [] with answers := [.never] }.codec.phase = .frame ∧
      { mid .frame .wren (chosen [] (chip 0x00 [])) [] with answers := [.never] }.nextAnswer = .never ∧
      (mid .xfer .rdsr (chosen [0x05] (chip 0x00 [])) []).codec.phase = .xfer ∧ Op.rdsr.xfer 0 ≠ .none ∧
      { mid .xfer .rdsr (chosen [0x05] (chip 0x00 [])) [] with answers := [.never] }.nextAnswer = .never ∧
      (mid .xfer (.pp 0 1 [0x00]) (chosen [0x02, 0, 0, 0] (chip 0x02 [])) []).codec.phase = .xfer ∧
      Op.pp.xfer 1 ≠ .none := by decide
/-- In ASSERT and in DEASSERT. -/
theorem witness_OnlyAHangingTransportStops_select :
    { mid .assert .wren (chip 0x00 []) [] with selects := [.never] }.codec.phase = .assert ∧
      { mid .assert .wren (chip 0x00 []) [] with selects := [.never] }.nextSelect = .never ∧
      { mid .deassert .wren (chosen [0x06] (chip 0x00 [])) [] with selects := [.never] }.codec.phase = .deassert ∧
      SelectAnswer.never ∈ { enabled with selects := [.never] }.selects.take 2 ∧
      SelectAnswer.never ∈ { enabled with selects := [.returns, .never] }.selects.take 2 := by decide
/-- The first call of an operation, and the second of one with a transfer, after an exact and after a short first. -/
theorem witness_OnlyAHangingTransportStops_exec :
    Instr.rdsr.wellFormed = true ∧ enabled.codec.phase = .idle ∧ { enabled with answers := [.never] }.nextAnswer = .never ∧
      Instr.rdsr.op.xfer Instr.rdsr.n ≠ .none ∧
      { enabled with answers := [.exact, .never] }.answered.nextAnswer = .never ∧
      { enabled with answers := [.upTo 0, .never] }.answered.nextAnswer = .never := by decide

/-- A request while busy, and requests that S-ACCEPT's guard refuses, by the port and by a call. -/
theorem witness_RequestWhileBusyHasNoEffect_busy :
    (mid .frame .wren (chosen [] (chip 0x00 [])) []).codec.phase ≠ .idle ∧
      { mid .frame .wren (chosen [] (chip 0x00 [])) [] with inputs := [.present Instr.wren.request] }.inputs =
        [.present Instr.wren.request] := by decide
theorem witness_RequestWhileBusyHasNoEffect_ill_formed :
    (Instr.pp 0 1 []).wellFormed = false ∧ (Request.mk 0x02 ⟨0, 0, 1, []⟩).instr = some (.pp 0 1 []) ∧
      { enabled with inputs := [.call ⟨0x02, ⟨0, 0, 1, []⟩⟩] }.inputs = [.call ⟨0x02, ⟨0, 0, 1, []⟩⟩] := by decide

/-! ## Witnesses: the sequencer -/

/-- WREN with operands it does not use, PP with a payload of its length, PP with another. -/
theorem witness_AcceptLatchesAndClears :
    enabled.codec.phase = .idle ∧
      { enabled with inputs := [.present ⟨0x06, ⟨0x123456, 0xFF, 7, [0xAA]⟩⟩] }.inputs =
        [.present ⟨0x06, ⟨0x123456, 0xFF, 7, [0xAA]⟩⟩] ∧
      (Request.mk 0x06 ⟨0x123456, 0xFF, 7, [0xAA]⟩).instr = some .wren ∧
      (Request.mk 0x02 ⟨0xFFFFFF, 0, 1, [0xFF]⟩).instr = some (.pp 0xFFFFFF 1 [0xFF]) ∧
      (Request.mk 0x02 ⟨0xFFFFFF, 0, 1, []⟩).instr = some (.pp 0xFFFFFF 1 []) ∧
      ((Instr.pp 0 1 [0xFF]).op = .pp → [(0xFF : Byte)].length = 1) ∧
      ¬((Instr.pp 0 1 []).op = .pp → ([] : List Byte).length = 1) := by decide
theorem witness_AssertSelectsTheDevice :
    (mid .assert .wren (chip 0x00 []) []).codec.phase = .assert ∧
      (mid .assert .wren (chip 0x00 []) []).nextSelect = .returns := by decide

/-- S-FRAME with the whole frame taken, and with none of it. -/
theorem witness_FrameStepWritesOnceAndTestsTheCount :
    (mid .frame .wren (chosen [] (chip 0x00 [])) []).codec.phase = .frame ∧
      (mid .frame .wren (chosen [] (chip 0x00 [])) []).nextAnswer.count 1 = some 1 ∧
      { mid .frame .wren (chosen [] (chip 0x00 [])) [] with answers := [.upTo 0] }.nextAnswer.count 1 = some 0 := by
  decide

/-- S-XFER of RDSR, exact and empty-handed. -/
theorem witness_ReadTransferRecordsTheResponse :
    (mid .xfer .rdsr (chosen [0x05] (chip 0x9E [])) []).codec.phase = .xfer ∧ Op.rdsr.xfer 0 = .read 1 ∧
      (mid .xfer .rdsr (chosen [0x05] (chip 0x9E [])) []).nextAnswer.count 1 = some 1 ∧
      { mid .xfer .rdsr (chosen [0x05] (chip 0x9E [])) [] with answers := [.upTo 0] }.nextAnswer.count 1 = some 0 ∧
      (deviceResponse (mid .xfer .rdsr (chosen [0x05] (chip 0x9E [])) []) 1).length = 1 := by decide

/-- S-XFER of a Page Program of one byte, exact and empty-handed. -/
theorem witness_PayloadTransferIsASecondWrite :
    (mid .xfer (.pp 0 1 [0x00]) (chosen [0x02, 0, 0, 0] (chip 0x02 [])) []).codec.phase = .xfer ∧
      Op.pp.xfer 1 = .write ∧
      (mid .xfer (.pp 0 1 [0x00]) (chosen [0x02, 0, 0, 0] (chip 0x02 [])) []).nextAnswer.count 1 = some 1 ∧
      { mid .xfer (.pp 0 1 [0x00]) (chosen [0x02, 0, 0, 0] (chip 0x02 [])) [] with
        answers := [.upTo 0] }.nextAnswer.count 1 = some 0 := by decide

theorem witness_DeassertDecodesTheResult :
    ∀ i ∈ [Instr.rdsr, .rddevid, .rdjedec, .wren], (mid .deassert i (chosen [] (chip 0x00 [])) []).codec.phase = .deassert ∧
      (mid .deassert i (chosen [] (chip 0x00 [])) []).nextSelect = .returns ∧
      (mid .deassert i (chosen [] (chip 0x00 [])) []).codec.op = i.op := by decide

theorem disciplined_idle (d : Device) (h : d.sel = none) : Disciplined (machine d) where
  cs_low_iff := by simp [machine, State.reset, Codec.reset]
  selected_iff := by simp [machine, State.reset, Codec.reset, h]
  bus := ⟨.high, rfl, rfl⟩
  transfer := by simp [machine, State.reset, Codec.reset]
  legal := by simp [machine, State.reset]

theorem disciplined_assert : Disciplined (mid .assert .rdsr (chip 0x02 []) []) :=
  ⟨by decide, by decide, ⟨.high, rfl, rfl⟩, by decide, by decide⟩
theorem disciplined_frame_read : Disciplined (mid .frame .rdsr (chosen [] (chip 0x02 [])) [.sel .low]) :=
  ⟨by decide, by decide, ⟨.low 0, rfl, rfl⟩, by decide, by decide⟩
theorem disciplined_frame_none : Disciplined (mid .frame .wren (chosen [] (chip 0x02 [])) [.sel .low]) :=
  ⟨by decide, by decide, ⟨.low 0, rfl, rfl⟩, by decide, by decide⟩
theorem disciplined_xfer :
    Disciplined (mid .xfer .rdsr (chosen [0x05] (chip 0x02 [])) [.sel .low, .wr [0x05] 1]) :=
  ⟨by decide, by decide, ⟨.low 1, rfl, rfl⟩, by decide, by decide⟩
theorem disciplined_deassert :
    Disciplined (mid .deassert .wren (chosen [0x06] (chip 0x00 [])) [.sel .low, .wr [0x06] 1]) :=
  ⟨by decide, by decide, ⟨.low 1, rfl, .inl rfl⟩, by decide, by decide⟩

theorem witness_PhasesFollowTheTable :
    (∃ s t, Disciplined s ∧ tick s = .next t ∧ s.codec.phase = .idle) ∧
    (∃ s t, Disciplined s ∧ tick s = .next t ∧ s.codec.phase = .assert) ∧
    (∃ s t, Disciplined s ∧ tick s = .next t ∧ s.codec.phase = .frame ∧ s.codec.op.xfer s.codec.n ≠ .none) ∧
    (∃ s t, Disciplined s ∧ tick s = .next t ∧ s.codec.phase = .frame ∧ s.codec.op.xfer s.codec.n = .none) ∧
    (∃ s t, Disciplined s ∧ tick s = .next t ∧ s.codec.phase = .xfer) ∧
    (∃ s t, Disciplined s ∧ tick s = .next t ∧ s.codec.phase = .deassert) :=
  ⟨⟨_, _, disciplined_idle (chip 0x02 []) rfl, rfl, rfl⟩, ⟨_, _, disciplined_assert, rfl, rfl⟩,
    ⟨_, _, disciplined_frame_read, rfl, rfl, by decide⟩, ⟨_, _, disciplined_frame_none, rfl, rfl, by decide⟩,
    ⟨_, _, disciplined_xfer, rfl, rfl⟩, ⟨_, _, disciplined_deassert, rfl, rfl⟩⟩

/-- One operation of each transfer kind, over a perfect and over a short transport; WREN with a hang that is not its. -/
theorem witness_OperationRunsItsWholeBracket :
    (∀ i ∈ [Instr.wren, .read 0xFFFFFF 16, .pp 0 1 [0x00]], i.wellFormed = true) ∧ enabled.codec.phase = .idle ∧
      SelectAnswer.never ∉ enabled.selects.take 2 ∧
      (enabled.nextAnswer.count 1 = some 1 ∧ enabled.answered.nextAnswer.count 16 = some 16 ∧
        enabled.PerfectTransport) ∧
      ({ enabled with answers := [.upTo 0, .upTo 0] }.nextAnswer.count 4 = some 0 ∧
        { enabled with answers := [.upTo 0, .upTo 0] }.answered.nextAnswer.count 1 = some 0) ∧
      (Op.wren.xfer 0 = .none ∧ { enabled with answers := [.exact, .never] }.nextAnswer.count 1 = some 1) :=
  ⟨by decide, by decide, by decide, ⟨by decide, by decide, enabled_ready.2.1⟩, by decide, by decide⟩

theorem witness_EarlierOperationsLeaveNoTrace :
    (Instr.se 0).wellFormed = true ∧ enabled.codec.phase = .idle ∧
      { enabled.codec with err := 0x01, done := true, resp := [0xAA], addr := 0xFFFFFF }.phase = .idle := by decide

theorem witness_CodecCannotSeeTheDevice :
    (machine asleep).codec = enabled.codec ∧ (machine asleep).port = enabled.port ∧
      (machine asleep).answers = enabled.answers ∧ (machine asleep).selects = enabled.selects ∧
      (machine asleep).trace = enabled.trace ∧ (∃ t, exec (.se 0) enabled = .next t) ∧
      (∃ t, exec .rdjedec enabled = .next t) ∧ (∀ m, Op.se.xfer 0 ≠ .read m) :=
  ⟨rfl, rfl, rfl, rfl, rfl, ⟨_, rfl⟩, ⟨_, rfl⟩, by intro m h; cases h⟩

theorem witness_CallIsARunOfSmallSteps :
    enabled.codec.phase = .idle ∧ (Request.mk 0x05 ⟨0, 0, 7, []⟩).instr = some .rdsr := by decide

/-! ## Witnesses: invariants -/

theorem witness_ChipSelectDisciplineIsKept : ∃ s t, Disciplined s ∧ step s = .next t ∧ s.codec.phase = .xfer :=
  ⟨_, _, disciplined_xfer, rfl, rfl⟩

theorem witness_FlashStaysCanonicalAndInside :
    FlashOk { enabled with inputs := [.call Instr.ce.request] } ∧
      ∃ t, step { enabled with inputs := [.call Instr.ce.request] } = .next t :=
  ⟨⟨by decide, by decide⟩, ⟨_, rfl⟩⟩

/-- A busy device inside a selection. -/
def busyInside : State := mid .xfer .rdsr (chosen [0x05] { chip 0x03 [] with selBusy := true }) [.sel .low, .wr [0x05] 1]

theorem witness_BusyDeviceIsEnabledAndAwake :
    DeviceOk { busyInside with inputs := [.complete] } ∧ busyInside.wrong = none ∧ busyInside.dev.wip = true ∧
      ∃ t, step { busyInside with inputs := [.complete] } = .next t :=
  ⟨⟨by decide, by decide, by decide⟩, by decide, by decide, ⟨_, rfl⟩⟩

/-- WREN sent to a busy device. -/
def busyWren : State := mid .deassert .wren (chosen [0x06] { chip 0x03 [] with selBusy := true }) []

/-- Marked in IDLE; in mid-operation with `err = 0x01` and no mark yet; and an operation in a marked run. -/
theorem witness_ErrorCodeIsMarked :
    (ErrOk { enabled with codec := { enabled.codec with err := 0x01 }, wrong := some .transportIncomplete } ∧
      ∃ t, step { enabled with
        codec := { enabled.codec with err := 0x01 }, wrong := some .transportIncomplete } = .next t) ∧
    (ErrOk { busyWren with codec := { busyWren.codec with err := 0x01 }, inputs := [.wait] } ∧
      ∃ t, step { busyWren with codec := { busyWren.codec with err := 0x01 }, inputs := [.wait] } = .next t) ∧
    ∃ t, exec .rdsr { enabled with wrong := some .resetCut } = .next t :=
  ⟨⟨⟨by decide, by decide⟩, ⟨_, rfl⟩⟩, ⟨⟨by decide, by decide⟩, ⟨_, rfl⟩⟩, ⟨_, rfl⟩⟩

theorem witness_PartIsWellFormedAndFixed : ∃ t, step { enabled with inputs := [.call Instr.ce.request] } = .next t := ⟨_, rfl⟩
theorem witness_ReservedBitIsPreserved :
    ∃ t, step { machine (chip 0x42 []) with inputs := [.call (Instr.wrsr 0x00).request] } = .next t ∧ t.wrong = none :=
  ⟨_, rfl, rfl⟩
theorem witness_ProtectionBitsChangeByWriteStatusOnly :
    (∃ t, exec .ce enabled = .next t ∧ t.wrong = none) ∧ Instr.ce.op ≠ .wrsr ∧
      (∃ t, exec (.wrsr 0xFF) enabled = .next t ∧ t.wrong = none) ∧ enabled.codec.phase = .idle :=
  ⟨⟨_, rfl, rfl⟩, by decide, ⟨_, rfl, rfl⟩, rfl⟩
theorem witness_ArrayChangesOnlyInTheOperandsUnit :
    enabled.dev.flash.wf = true ∧ (∃ t, exec .rdsr enabled = .next t ∧ t.wrong = none) ∧
      (∃ t, exec (.pp 0x0002FF 2 [0x01, 0x02]) enabled = .next t ∧ t.wrong = none) ∧ 0x300 / 256 ≠ 0x0002FF / 256 ∧
      (∃ t, exec (.se 0x000FFF) enabled = .next t ∧ t.wrong = none) ∧ 0x1000 / 4096 ≠ 0x000FFF / 4096 ∧
      (∃ t, exec (.be 0x00FFFF) enabled = .next t ∧ t.wrong = none) ∧ 0x10000 / 65536 ≠ 0x00FFFF / 65536 :=
  ⟨by decide, ⟨_, rfl, rfl⟩, ⟨_, rfl, rfl⟩, by decide, ⟨_, rfl, rfl⟩, by decide, ⟨_, rfl, rfl⟩, by decide⟩

/-! ## Witnesses: the device -/

theorem witness_AsleepOnlyReleaseIsObeyed :
    (machine asleep).Ready ∧ (machine asleep).dev.pd = true ∧ Instr.ce.wellFormed = true ∧ Instr.ce ≠ .rdp :=
  ⟨machine_ready _ (by decide), by decide⟩

/-- The same where the internal operation ended inside the selection. -/
def endedInside : State := mid .deassert .wren (chosen [0x06] { chip 0x00 [] with selBusy := true }) []

/-- Busy throughout, and a completion inside the selection (U16): WIP = 0 with `sel_busy` = 1. -/
theorem witness_BusySelectionIsIgnored :
    (busyWren.codec.phase = .deassert ∧ busyWren.nextSelect = .returns ∧ busyWren.codec.err = 0x00 ∧ busyWren.Ok ∧
      decode (busyWren.dev.sel.getD []) 0 = .ok .wren ∧ busyWren.dev.selBusy = true) ∧
    (endedInside.codec.phase = .deassert ∧ endedInside.nextSelect = .returns ∧ endedInside.codec.err = 0x00 ∧ endedInside.Ok ∧
      decode (endedInside.dev.sel.getD []) 0 = .ok .wren ∧ endedInside.dev.selBusy = true ∧
      endedInside.dev.wip = false) :=
  ⟨⟨rfl, rfl, rfl, rfl, by decide, rfl⟩, ⟨rfl, rfl, rfl, rfl, by decide, rfl, by decide⟩⟩

theorem witness_CompletionClearsWipAndWel :
    { machine (chip 0x03 []) with inputs := [.complete] }.Ok ∧ (machine (chip 0x03 [])).dev.sr.getLsbD 0 = true ∧
      { enabled with inputs := [.complete] }.Ok ∧ enabled.dev.sr.getLsbD 0 = false := ⟨rfl, rfl, rfl, rfl⟩

/-- An infinite run: the idle machine. -/
theorem witness_CompletionClearsWipAndWel_run :
    IsRun fun n => { machine (chip 0x00 []) with clock := n } := by
  intro n
  show tick (gap _).ticked = _
  rw [gap_of_not_wip _ (show (chip 0x00 []).wip = false by decide)]
  rfl
/-- A poll of a busy device. -/
theorem witness_CompletionClearsWipAndWel_poll :
    (machine (chip 0x03 [])).codec.phase = .idle ∧ (machine (chip 0x03 [])).PerfectTransport ∧
      (machine (chip 0x03 [])).Ok ∧ (machine (chip 0x03 [])).dev.pd = false ∧ (machine (chip 0x03 [])).dev.wip = true :=
  ⟨rfl, ⟨(by intro a ha; cases ha), (by intro a ha; cases ha)⟩, rfl, rfl, by decide⟩

/-- R116: the internal operation in progress is over at its moment, and not before. -/
theorem test_completion_comes :
    outcome (fun t => t.dev.sr) (step { machine (chip 0x03 []) with due := 1, clock := 1 }) = some 0x00 ∧
      outcome (fun t => t.dev.sr) (step { machine (chip 0x03 []) with due := 1 }) = some 0x03 := by decide

theorem witness_ResetReachesTheCodecOnly :
    { enabled with inputs := [.reset] }.inputs = [.reset] ∧ enabled.codec.phase = .idle ∧
      { busyWren with inputs := [.reset] }.inputs = [.reset] ∧ busyWren.codec.phase ≠ .idle := by decide

/-- The end of the selection of `l`. -/
def ending (l : List Byte) (d : Device) : State := mid .deassert .wren (chosen l d) []

theorem ending_fits (l : List Byte) (d : Device) :
    (ending l d).codec.phase = .deassert ∧ (ending l d).nextSelect = .returns ∧ (ending l d).codec.err = 0x00 ∧
      (ending l d).Ok ∧ (ending l d).dev.sel = some l := ⟨rfl, rfl, rfl, rfl, rfl⟩

theorem witness_WriteEnableEffect :
    (∀ d, (ending [0x06] d).codec.phase = .deassert ∧ (ending [0x06] d).nextSelect = .returns ∧
      (ending [0x06] d).codec.err = 0x00 ∧
      (ending [0x06] d).Ok ∧ (ending [0x06] d).dev.sel = some [0x06]) ∧
      (ending [0x06] (chip 0x00 [])).dev.pd = false ∧ (ending [0x06] (chip 0x00 [])).dev.selBusy = false ∧
      (ending [0x06] asleep).dev.pd = true ∧ busyWren.dev.selBusy = true ∧ busyWren.dev.wip = true :=
  ⟨fun _ => ending_fits _ _, by decide⟩
theorem witness_WriteDisableEffect :
    (∀ d, (ending [0x04] d).codec.phase = .deassert ∧ (ending [0x04] d).nextSelect = .returns ∧
      (ending [0x04] d).codec.err = 0x00 ∧
      (ending [0x04] d).Ok ∧ (ending [0x04] d).dev.sel = some [0x04]) ∧
      (ending [0x04] (chip 0x02 [])).dev.pd = false ∧ (ending [0x04] (chip 0x02 [])).dev.selBusy = false ∧
      (ending [0x04] asleep).dev.pd = true ∧ busyWren.dev.selBusy = true ∧ busyWren.dev.wip = true :=
  ⟨fun _ => ending_fits _ _, by decide⟩
theorem witness_WriteStatusEffect :
    (ending [0x01, 0xFF] (chip 0x02 [])).codec.phase = .deassert ∧ (ending [0x01, 0xFF] (chip 0x02 [])).nextSelect = .returns ∧
      (ending [0x01, 0xFF] (chip 0x02 [])).codec.err = 0x00 ∧
      (ending [0x01, 0xFF] (chip 0x02 [])).Ok ∧
      (ending [0x01, 0xFF] (chip 0x02 [])).dev.sel = some [0x01, 0xFF] := ending_fits _ _
theorem witness_PowerDownEffect :
    (∀ d, (ending [0xB9] d).codec.phase = .deassert ∧ (ending [0xB9] d).nextSelect = .returns ∧
      (ending [0xB9] d).codec.err = 0x00 ∧
      (ending [0xB9] d).Ok ∧ (ending [0xB9] d).dev.sel = some [0xB9]) ∧
      (ending [0xB9] (chip 0x00 [])).dev.selBusy = false ∧ busyWren.dev.selBusy = true ∧ busyWren.dev.wip = true :=
  ⟨fun _ => ending_fits _ _, by decide⟩
theorem witness_ReleasePowerDownEffect :
    (∀ d, (ending [0xAB] d).codec.phase = .deassert ∧ (ending [0xAB] d).nextSelect = .returns ∧
      (ending [0xAB] d).codec.err = 0x00 ∧
      (ending [0xAB] d).Ok ∧ (ending [0xAB] d).dev.sel = some [0xAB]) ∧
      (ending [0xAB] asleep).dev.selBusy = false ∧ busyWren.dev.selBusy = true ∧ busyWren.dev.wip = true :=
  ⟨fun _ => ending_fits _ _, by decide⟩

theorem witness_ReadStatusResponse :
    busyInside.codec.phase = .xfer ∧ busyInside.codec.op = .rdsr ∧ busyInside.dev.sel = some [0x05] ∧ busyInside.Ok ∧
      busyInside.nextAnswer = .exact ∧ busyInside.dev.pd = false := ⟨rfl, rfl, rfl, rfl, rfl, rfl⟩
theorem witness_ReadStatusResponse_end :
    (ending [0x05] (chip 0x9E [])).codec.phase = .deassert ∧ (ending [0x05] (chip 0x9E [])).nextSelect = .returns ∧
      (ending [0x05] (chip 0x9E [])).codec.err = 0x00 ∧
      (ending [0x05] (chip 0x9E [])).Ok ∧
      (ending [0x05] (chip 0x9E [])).dev.sel = some [0x05] := ending_fits _ _

/-! ## Witnesses: completion of each operation -/

/-- For WREN, WRDI, RDDEVID, RDJEDEC, and (awake) READ and FAST_READ at the first and last addresses. -/
theorem witness_awake : enabled.Ready ∧ enabled.dev.pd = false := ⟨enabled_ready, rfl⟩

theorem witness_WrenCompletes : enabled.Ready ∧ enabled.dev.pd = false := witness_awake
theorem witness_WrdiCompletes : enabled.Ready ∧ enabled.dev.pd = false := witness_awake
theorem witness_RddevidCompletes : enabled.Ready ∧ enabled.dev.pd = false := witness_awake
theorem witness_RdjedecCompletes : enabled.Ready ∧ enabled.dev.pd = false := witness_awake
theorem witness_DpAndRdpComplete : enabled.Ready ∧ (machine asleep).Ready := ⟨enabled_ready, machine_ready _ (by decide)⟩
theorem witness_ReadCompletes :
    enabled.Ready ∧ enabled.dev.pd = false ∧ 1 < 2 ∧ (0x01FFFE : Addr).toNat + 1 < enabled.part.totalSize :=
  ⟨enabled_ready, by decide⟩
theorem witness_FastReadCompletes :
    enabled.Ready ∧ enabled.dev.pd = false ∧ 0 < 1 ∧ (0x01FFFF : Addr).toNat + 0 < enabled.part.totalSize :=
  ⟨enabled_ready, by decide⟩

/-- Mid-erase. -/
theorem witness_RdsrCompletesAtAnyTime :
    (machine (chip 0x03 [])).codec.phase = .idle ∧ (machine (chip 0x03 [])).PerfectTransport ∧
      (machine (chip 0x03 [])).Ok ∧ (machine (chip 0x03 [])).dev.pd = false :=
  ⟨rfl, ⟨(by intro a ha; cases ha), (by intro a ha; cases ha)⟩, rfl, rfl⟩

/-- Accepted, asleep, without WEL, locked. -/
theorem witness_WrsrCompletes :
    (enabled.Ready ∧ enabled.dev.pd = false ∧ enabled.dev.wel = true ∧ enabled.dev.srLocked = false) ∧
      ((machine asleep).Ready ∧ (machine asleep).dev.pd = true) ∧
      ((machine (chip 0x00 [])).Ready ∧ (machine (chip 0x00 [])).dev.wel = false) ∧
      ((machine { chip 0x82 [] with wp := true }).Ready ∧ (machine { chip 0x82 [] with wp := true }).dev.srLocked = true) :=
  ⟨⟨enabled_ready, by decide⟩, ⟨machine_ready _ (by decide), by decide⟩, ⟨machine_ready _ (by decide), by decide⟩,
    ⟨machine_ready _ (by decide), by decide⟩⟩

/-- The last byte before the wrap, and the first after it. -/
theorem witness_PageWrapTargets :
    5 < 256 ∧ 6 < 256 ∧ (0x0002FA : Addr).toNat % 256 + 5 < 256 ∧ 256 ≤ (0x0002FA : Addr).toNat % 256 + 6 ∧
      255 < 256 ∧ target 0x0002FA 5 = target 0x0002FA 5 := by decide

/-- Payloads of 1 and of 256 bytes at the last address of the array. -/
theorem witness_PpCompletes :
    enabled.Ready ∧ enabled.dev.pd = false ∧ enabled.dev.wel = true ∧ enabled.dev.flash.wf = true ∧
      (0x01FFFF : Addr).toNat < enabled.part.totalSize ∧ bpLookup enabled.part enabled.dev.bp = some ⟨0, 0, 0⟩ ∧
      bpProtects ⟨0, 0, 0⟩ (block 0x01FFFF) = false ∧
      ([(0x00 : Byte)][0]? = some 0x00 ∧ enabled.dev.flash.read (target 0x01FFFF 0).toNat = 0xFF) ∧
      (1 ≤ [(0x00 : Byte)].length ∧ [(0x00 : Byte)].length ≤ 256) ∧
      (1 ≤ (List.replicate 256 (0x00 : Byte)).length ∧ (List.replicate 256 (0x00 : Byte)).length ≤ 256) :=
  ⟨enabled_ready, by decide, by decide, by decide, by decide, by decide, by decide, by decide, by decide,
    by rw [List.length_replicate]; decide⟩

theorem witness_SeCompletes :
    enabled.Ready ∧ enabled.dev.pd = false ∧ enabled.dev.wel = true ∧
      (0x01FFFF : Addr).toNat < enabled.part.totalSize ∧ bpLookup enabled.part enabled.dev.bp = some ⟨0, 0, 0⟩ ∧
      bpProtects ⟨0, 0, 0⟩ (block 0x01FFFF) = false ∧ 0x01F000 / 4096 = (0x01FFFF : Addr).toNat / 4096 ∧
      0x01EFFF / 4096 ≠ (0x01FFFF : Addr).toNat / 4096 := ⟨enabled_ready, by decide⟩
theorem witness_BeCompletes :
    enabled.Ready ∧ enabled.dev.pd = false ∧ enabled.dev.wel = true ∧
      (0x01FFFF : Addr).toNat < enabled.part.totalSize ∧ bpLookup enabled.part enabled.dev.bp = some ⟨0, 0, 0⟩ ∧
      bpProtects ⟨0, 0, 0⟩ (block 0x01FFFF) = false ∧ 0x010000 / 65536 = (0x01FFFF : Addr).toNat / 65536 ∧
      0x00FFFF / 65536 ≠ (0x01FFFF : Addr).toNat / 65536 := ⟨enabled_ready, by decide⟩
theorem witness_CeCompletes :
    enabled.Ready ∧ enabled.dev.pd = false ∧ enabled.dev.wel = true ∧
      bpLookup enabled.part enabled.dev.bp = some ⟨0, 0, 0⟩ ∧
      (∀ b, b < enabled.part.nBlocks → bpProtects ⟨0, 0, 0⟩ b = false) :=
  ⟨enabled_ready, by decide⟩

/-- Asleep, and without WEL. -/
theorem witness_ProgramEraseWithoutEnableIsIgnored :
    (Instr.se 0).op = .se ∧ (Instr.se 0).wellFormed = true ∧
      ((machine asleep).Ready ∧ (machine asleep).dev.pd = true) ∧
      ((machine (chip 0x00 [])).Ready ∧ (machine (chip 0x00 [])).dev.wel = false) :=
  ⟨by decide, by decide, ⟨machine_ready _ (by decide), by decide⟩, ⟨machine_ready _ (by decide), by decide⟩⟩

/-- BP = 1 protects block 1: a Sector Erase at its first and last address, and a Chip Erase. -/
def guarded : State := machine (chip 0x06 [])

theorem witness_ProtectedTargetIsIgnored :
    guarded.Ready ∧ guarded.dev.pd = false ∧ guarded.dev.wel = true ∧
      bpLookup guarded.part guarded.dev.bp = some ⟨1, 1, 1⟩ ∧
      ((Instr.se 0x010000).addr.toNat < guarded.part.totalSize ∧ bpProtects ⟨1, 1, 1⟩ (block 0x010000) = true) ∧
      ((Instr.se 0x01FFFF).addr.toNat < guarded.part.totalSize ∧ bpProtects ⟨1, 1, 1⟩ (block 0x01FFFF) = true) ∧
      (1 < guarded.part.nBlocks ∧ bpProtects ⟨1, 1, 1⟩ 1 = true) :=
  ⟨machine_ready _ (by decide), by decide⟩

/-- The same with `WEL_CLEARS_ON_REJECT`, where the rejection clears WEL. -/
def guardedClearing : State := { guarded with part := { part with welClearsOnReject := true } }

theorem witness_ProtectedTargetIsIgnored_clears :
    guardedClearing.Ready ∧ guardedClearing.dev.pd = false ∧ guardedClearing.dev.wel = true ∧
      guardedClearing.part.welClearsOnReject = true ∧ (Instr.pp 0x010000 0 []).wellFormed = true ∧
      bpLookup guardedClearing.part guardedClearing.dev.bp = some ⟨1, 1, 1⟩ ∧
      (Instr.pp 0x010000 0 []).addr.toNat < guardedClearing.part.totalSize ∧
      bpProtects ⟨1, 1, 1⟩ (block 0x010000) = true :=
  ⟨⟨rfl, ⟨(by intro a ha; cases ha), (by intro a ha; cases ha)⟩, rfl, by decide⟩, by decide⟩

/-- BP = 11, outside `BP_VALID`. -/
def unlistedBp : State := machine (chip 0x2E [])

def longPayload : List Byte := List.replicate 257 0x00
theorem longPayload_length : longPayload.length = 257 := List.length_replicate
theorem longPayload_wf : (Instr.pp 0 257 longPayload).wellFormed = true := by
  rw [Instr.wellFormed, longPayload_length]; decide

/-- The first address outside the array; a BP value outside `BP_VALID`; payloads of 0 and of 257 bytes. -/
theorem witness_OperationWithoutMeaningMarksTheRun :
    (enabled.Ready ∧ enabled.dev.pd = false ∧ enabled.dev.wel = true) ∧
      (unlistedBp.Ready ∧ unlistedBp.dev.pd = false ∧ unlistedBp.dev.wel = true) ∧
      enabled.part.totalSize ≤ (Instr.se 0x020000).addr.toNat ∧ (Instr.se 0x01FFFF).addr.toNat < enabled.part.totalSize ∧
      bpLookup unlistedBp.part unlistedBp.dev.bp = none ∧
      (bpLookup enabled.part enabled.dev.bp = some ⟨0, 0, 0⟩ ∧ bpProtects ⟨0, 0, 0⟩ (block 0x01FFFF) = false) ∧
      ((Instr.pp 0 0 []).wellFormed = true ∧ (Instr.pp 0 0 []).n = 0) ∧
      ((Instr.pp 0 257 longPayload).wellFormed = true ∧ (Instr.pp 0 257 longPayload).n = 257) :=
  ⟨⟨enabled_ready, by decide⟩, ⟨machine_ready _ (by decide), by decide⟩, by decide, by decide, by decide, by decide,
    by decide, longPayload_wf, rfl⟩

end Sys2Proof.Tests
end

section
/-! The part at hand: what R4 asks of its parameters at launch, and that nothing in a run changes it (R5). -/

namespace Sys2Proof

/-! ## The block-protect encodings at launch (R4, R23) -/

theorem BpRange.bp_comp_bpRange : BpRange.bp ∘ Config.bpRange = id := rfl

/-- Five of the sixteen values are dropped, each at a position that is still there. -/
theorem Config.bpValid_length : Config.bpValid.length = 11 := by
  have hA := Config.bpDropA.isLt
  have hB := Config.bpDropB.isLt
  have hC := Config.bpDropC.isLt
  have hD := Config.bpDropD.isLt
  have hE := Config.bpDropE.isLt
  simp [Config.bpValid, List.length_eraseIdx, *]

/-- The sixteen 4-bit values are distinct, and dropping some leaves the others distinct. -/
theorem Config.bpValid_nodup : Config.bpValid.Nodup := by
  have hall : ((List.range 16).map (BitVec.ofNat 4)).Nodup := by decide
  exact ((((hall.eraseIdx _).eraseIdx _).eraseIdx _).eraseIdx _).eraseIdx _

/-- A range is cut to the array, wherever it begins and however long it is. -/
theorem Config.bpRange_inside (v : BitVec 4) :
    (Config.bpRange v).first + (Config.bpRange v).count ≤ Config.nBlocks := by
  simp only [Config.bpRange]
  omega

/-! ## The launch parameters (R4, R5) -/

theorem Config.nBlocks_pos : 0 < Config.nBlocks := Nat.succ_pos _

theorem Config.nBlocks_le : Config.nBlocks ≤ 256 := Config.blocksLessOne.isLt

/-- What `Part.wf` says, constraint by constraint. -/
theorem Part.wf_iff (p : Part) :
    p.wf = true ↔ 0 < p.nBlocks ∧ p.nBlocks ≤ 256 ∧ p.bpTable.length = 11 ∧ (p.bpTable.map BpRange.bp).Nodup ∧
      ∀ r ∈ p.bpTable, r.first + r.count ≤ p.nBlocks := by
  simp [Part.wf, and_assoc]

theorem Config.part_wf : Config.part.wf = true := by
  refine (Part.wf_iff _).2 ⟨Config.nBlocks_pos, Config.nBlocks_le, ?_, ?_, ?_⟩
  · exact (List.length_map _).trans Config.bpValid_length
  · show ((Config.bpValid.map Config.bpRange).map BpRange.bp).Nodup
    rw [List.map_map, BpRange.bp_comp_bpRange, List.map_id]
    exact Config.bpValid_nodup
  · intro r hr
    obtain ⟨v, -, rfl⟩ := List.mem_map.1 hr
    exact Config.bpRange_inside v

end Sys2Proof

namespace Sys2Proof.Machine

/-! ## No step changes the part -/

/-- A sequencer step leaves the part as it is, phase by phase. -/
theorem tick_part (s t : State) (h : tick s = .next t) : t.part = s.part := by
  rcases tick_cases s t h with ⟨_, rfl⟩ | ⟨_, _, rfl⟩ | ⟨_, h⟩ | ⟨_, _, rfl⟩ | ⟨_, m, _, h⟩ | ⟨_, _, h⟩ | ⟨_, _, rfl⟩
  · rfl
  · exact asserted_part s
  · obtain ⟨k, _, rfl⟩ := sFrame_next s t h
    exact checkCount_part ..
  · rfl
  · obtain ⟨k, _, rfl⟩ := sXferRead_next m s t h
    exact checkCount_part ..
  · obtain ⟨k, _, rfl⟩ := sXferWrite_next s t h
    exact checkCount_part ..
  · exact deasserted_part s

theorem devComplete_part (s : State) : (devComplete s).part = s.part := by
  rcases devComplete_cases s with ⟨_, h⟩ | ⟨_, _, h⟩ | ⟨_, _, h⟩ <;> rw [h]

/-- The codec's reset leaves the part as it is, whether or not it cuts an operation short (R210, log 10). -/
theorem codecReset_part (s : State) : (codecReset s).part = s.part := by
  unfold codecReset
  split
  · exact State.ticked_part s
  · exact State.lose_part .resetCut s

/-- R5: the part is fixed for the whole run. -/
theorem step_part (s t : State) (h : step s = .next t) : t.part = s.part :=
  step_keeps (fun u => u.part = s.part)
    (hin := fun _ _ _ hu => hu)
    (hclock := fun _ hu => hu)
    (hwp := fun _ _ hu => hu)
    (hacc := fun _ _ hu _ => hu)
    (hgap := fun u hu => (gap_part u).trans hu)
    (htick := fun u v hu huv => (tick_part u v huv).trans hu)
    (hcomplete := fun u hu => (devComplete_part u).trans hu)
    (hreset := fun u hu => (codecReset_part u).trans hu)
    s t rfl h

/-- Settles O30: R4's constraints follow from how the launch parameters are built, and each part of a step keeps the
part. -/
theorem partIsWellFormedAndFixed : Obligations.PartIsWellFormedAndFixed :=
  ⟨Config.part_wf, step_part⟩

end Sys2Proof.Machine
end

section
/-! What reaches the device in a selection: the stream of an operation is its encoding, and the device decodes the same
operation from it (R71, R77, R83, R115); and what of the device a run keeps while it is unmarked. -/

namespace Sys2Proof

/-- An opcode selects how the rest of the stream is read (R83). -/
theorem decode_opcode_cons (o : Op) (rest : List Byte) (m : Nat) : decode (o.opcode :: rest) m = decodeRest o m rest := by
  simp only [decode, ofOpcode_opcode]

/-- Only Page Program has a payload (R79). -/
theorem payload_eq_nil (i : Instr) (h : i.op.xfer i.n ≠ .write) : i.payload = [] := by
  cases i with
  | pp a n payload => exact absurd rfl h
  | _ => rfl

/-- S-ACCEPT's guard: the payload to be written has the length the host gave (R102). -/
theorem payload_length_eq (i : Instr) (hwf : i.wellFormed = true) (h : i.op.xfer i.n = .write) :
    i.payload.length = i.n := by
  cases i with
  | pp a n payload => exact of_decide_eq_true hwf
  | _ => cases h

/-- Where no payload is written the stream is the frame. -/
theorem encode_eq_frame (i : Instr) (h : i.op.xfer i.n ≠ .write) : encode i = frame i.op i.addr i.srIn := by
  rw [encode, payload_eq_nil i h, List.append_nil]

/-- What a device makes of the encoding of `i` when a read of `m` bytes follows: lengths are not in the stream (R83). -/
def Instr.asHeard (m : Nat) : Instr → Instr
  | .read a _ => .read a m
  | .fastRead a _ => .fastRead a m
  | .pp a _ payload => .pp a payload.length payload
  | i => i

@[simp] theorem Instr.asHeard_op (m : Nat) (i : Instr) : (i.asHeard m).op = i.op := by cases i <;> rfl
@[simp] theorem Instr.asHeard_addr (m : Nat) (i : Instr) : (i.asHeard m).addr = i.addr := by cases i <;> rfl
@[simp] theorem Instr.asHeard_srIn (m : Nat) (i : Instr) : (i.asHeard m).srIn = i.srIn := by cases i <;> rfl
@[simp] theorem Instr.asHeard_payload (m : Nat) (i : Instr) : (i.asHeard m).payload = i.payload := by cases i <;> rfl

theorem Instr.asHeard_eq_wrsr (m : Nat) (i : Instr) (v : Byte) : i.asHeard m = .wrsr v ↔ i = .wrsr v := by
  cases i <;> simp [Instr.asHeard]

theorem Instr.asHeard_eq_rdp (m : Nat) (i : Instr) : i.asHeard m = .rdp ↔ i = .rdp := by
  cases i <;> simp [Instr.asHeard]

/-- The device decodes the operation that was sent (R83). -/
theorem decode_encode (i : Instr) (m : Nat) : decode (encode i) m = .ok (i.asHeard m) := by
  have hcons : encode i = i.op.opcode :: (encode i).tail := by cases i <;> rfl
  rw [hcons, decode_opcode_cons]
  cases i with
  | read a n => exact congrArg (fun a => Except.ok (Instr.read a m)) (addrOf_bytes a)
  | fastRead a n => exact congrArg (fun a => Except.ok (Instr.fastRead a m)) (addrOf_bytes a)
  | pp a n payload => exact congrArg (fun a => Except.ok (Instr.pp a payload.length payload)) (addrOf_bytes a)
  | se a => exact congrArg (fun a => Except.ok (Instr.se a)) (addrOf_bytes a)
  | be a => exact congrArg (fun a => Except.ok (Instr.be a)) (addrOf_bytes a)
  | _ => rfl

end Sys2Proof

namespace Sys2Proof.Machine

/-! ## The stream of an operation -/

/-- The codec's registers hold the operation `i` (R102, R78). -/
structure Latched (i : Instr) (s : State) : Prop where
  kind : s.codec.op.xfer s.codec.n = i.op.xfer i.n
  fb : s.codec.fb = frame i.op i.addr i.srIn
  written : i.op.xfer i.n = .write → s.codec.payload = i.payload ∧ s.codec.n = i.n

/-- What the device has heard, phase by phase, while the operation `i` runs and no count was short (R103 to R106, R115). -/
structure Sending (i : Instr) (s : State) : Prop extends Latched i s where
  selected : s.codec.phase = .frame → s.dev.sel = some []
  framed : s.codec.phase = .xfer → s.codec.err = errNone → s.dev.sel = some (frame i.op i.addr i.srIn)
  sent : s.codec.phase = .deassert → s.codec.err = errNone → s.dev.sel = some (encode i)

theorem sAccept_sending (i : Instr) (s : State) : Sending i (sAccept i s) where
  kind := xfer_latched i s.port
  fb := sAccept_codec_fb i s
  written := payload_latched i s.port
  selected := nofun
  framed := nofun
  sent := nofun

theorem gap_sending (i : Instr) (s : State) (hs : Sending i s) : Sending i (gap s) := by
  rcases gap_cases s with h | ⟨_, _, h⟩ <;> rw [h]
  · exact hs
  · exact { hs with }

/-- After a short count nothing is claimed of the stream, so only the exact count matters (R113). -/
theorem checkCount_sending (i : Instr) (k req : Nat) (s : State) (hl : Latched i s) (hp : s.codec.phase ≠ .frame)
    (hs : req ≤ k → Sending i s) : Sending i (checkCount k req s) := by
  by_cases hk : req ≤ k
  · rw [checkCount_of_ge k req s hk]
    exact hs hk
  · rw [checkCount_of_lt k req s (Nat.lt_of_not_le hk)]
    exact
      { hl with
        selected := fun hf => absurd hf hp
        framed := fun _ he => absurd he (by simp [errTransportIncomplete, errNone])
        sent := fun _ he => absurd he (by simp [errTransportIncomplete, errNone]) }

theorem asserted_sending (i : Instr) (s : State) (hs : Sending i s) : Sending i (asserted s) :=
  { hs.toLatched with selected := fun _ => rfl, framed := nofun, sent := nofun }

/-- The phase after the frame is DEASSERT exactly where no transfer follows (R104). -/
theorem phaseAfterFrame_eq_deassert (x : Transfer) : phaseAfterFrame x = .deassert ↔ x = .none := by
  cases x <;> simp [phaseAfterFrame]

theorem phaseAfterFrame_ne_frame (x : Transfer) : phaseAfterFrame x ≠ .frame := by cases x <;> nofun

theorem sFrame_sending (i : Instr) (s t : State) (hs : Sending i s) (hp : s.codec.phase = .frame)
    (h : sFrame s = .next t) : Sending i t := by
  obtain ⟨k, _, rfl⟩ := sFrame_next s t h
  refine checkCount_sending i k _ _ { hs.toLatched with } (phaseAfterFrame_ne_frame _) fun hk => ?_
  have hheard : (s.dev.hear (s.codec.fb.take k)).sel = some (frame i.op i.addr i.srIn) := by
    rw [List.take_of_length_le hk]
    simp [hs.selected hp, hs.fb]
  refine { hs.toLatched with
    selected := fun hf => absurd hf (phaseAfterFrame_ne_frame _)
    framed := fun _ _ => hheard
    sent := fun hd _ => hheard.trans (congrArg some (encode_eq_frame i ?_).symm) }
  rw [← hs.kind, (phaseAfterFrame_eq_deassert _).1 hd]
  nofun

theorem sXferRead_sending (i : Instr) (m : Nat) (s t : State) (hs : Sending i s) (hp : s.codec.phase = .xfer)
    (hx : s.codec.op.xfer s.codec.n = .read m) (h : sXferRead m s = .next t) : Sending i t := by
  obtain ⟨k, _, rfl⟩ := sXferRead_next m s t h
  have henc : encode i = frame i.op i.addr i.srIn := encode_eq_frame i (by rw [← hs.kind, hx]; nofun)
  exact checkCount_sending i k _ _ { hs.toLatched with } nofun fun _ =>
    { hs.toLatched with
      selected := nofun
      framed := nofun
      sent := fun _ he => (hs.framed hp he).trans (congrArg some henc.symm) }

theorem sXferWrite_sending (i : Instr) (s t : State) (hwf : i.wellFormed = true) (hs : Sending i s)
    (hp : s.codec.phase = .xfer) (hx : s.codec.op.xfer s.codec.n = .write) (h : sXferWrite s = .next t) :
    Sending i t := by
  obtain ⟨k, _, rfl⟩ := sXferWrite_next s t h
  have hw : i.op.xfer i.n = .write := hs.kind ▸ hx
  obtain ⟨hpayload, hn⟩ := hs.written hw
  refine checkCount_sending i k _ _ { hs.toLatched with } nofun fun hk =>
    { hs.toLatched with selected := nofun, framed := nofun, sent := fun _ he => ?_ }
  have hlen : i.payload.length ≤ k := (payload_length_eq i hwf hw).trans_le (hn ▸ hk)
  simp [hs.framed hp he, hpayload, List.take_of_length_le hlen, encode]

/-- Each sequencer step sends what the operation sends there. -/
theorem tick_sending (i : Instr) (s t : State) (hwf : i.wellFormed = true) (hs : Sending i s) (h : tick s = .next t) :
    Sending i t := by
  rcases tick_cases s t h with ⟨_, rfl⟩ | ⟨_, _, rfl⟩ | ⟨hp, h⟩ | ⟨_, _, rfl⟩ | ⟨hp, m, hx, h⟩ | ⟨hp, hx, h⟩ | ⟨_, _, rfl⟩
  · exact hs
  · exact asserted_sending i s hs
  · exact sFrame_sending i s t hs hp h
  · exact hs
  · exact sXferRead_sending i m s t hs hp hx h
  · exact sXferWrite_sending i s t hwf hs hp hx h
  · exact { hs.toLatched with selected := nofun, framed := nofun, sent := nofun }

/-! ## One sequencer step, as the device sees it -/

/-- Only S-DEASSERT reaches the chip: every other sequencer step leaves the mark alone and writes, on the device's side,
nothing but the selection's bookkeeping (R115, R118). -/
theorem tick_dev_cases (s t : State) (h : tick s = .next t) :
    (t.wrong = s.wrong ∧ ∃ l b, t.dev = { s.dev with sel := l, selBusy := b }) ∨
    (s.codec.phase = .deassert ∧ t = deasserted s) := by
  rcases tick_cases s t h with ⟨_, rfl⟩ | ⟨_, _, rfl⟩ | ⟨_, h⟩ | ⟨_, _, rfl⟩ | ⟨_, m, _, h⟩ | ⟨_, _, h⟩ | ⟨hp, _, rfl⟩
  · exact .inl ⟨rfl, _, _, rfl⟩
  · exact .inl ⟨rfl, _, _, rfl⟩
  · obtain ⟨k, _, rfl⟩ := sFrame_next s t h
    exact .inl ⟨checkCount_wrong .., _, _, checkCount_dev ..⟩
  · exact .inl ⟨rfl, _, _, rfl⟩
  · obtain ⟨k, _, rfl⟩ := sXferRead_next m s t h
    exact .inl ⟨checkCount_wrong .., _, _, checkCount_dev ..⟩
  · obtain ⟨k, _, rfl⟩ := sXferWrite_next s t h
    exact .inl ⟨checkCount_wrong .., _, _, checkCount_dev ..⟩
  · exact .inr ⟨hp, rfl⟩

/-! ## Properties of the device that an unmarked run keeps -/

/-- While the run stays unmarked, a property of the device that the selection's bookkeeping does not matter to is kept by a
sequencer step, if the effect rule of the operation that ends there keeps it. -/
theorem tick_keeps_dev (R : Device → Prop) (hbook : ∀ d l b, R d → R { d with sel := l, selBusy := b }) (s t : State)
    (heffect : s.codec.phase = .deassert → s.codec.err = errNone → ∀ i d, decode (s.dev.sel.getD []) 0 = .ok i →
      R s.dev → effect s.part s.clock i s.dev = .ok d → R d)
    (hs : s.wrong = none → R s.dev) (h : tick s = .next t) (hw : t.wrong = none) : R t.dev := by
  rcases tick_dev_cases s t h with ⟨hsw, l, b, hd⟩ | ⟨hp, rfl⟩
  · rw [hd]
    exact hbook _ l b (hs (hsw ▸ hw))
  · rw [deasserted_wrong] at hw
    rw [deasserted_dev]
    rcases deviceActs_cases (s.selected .high) with ⟨hm, ha⟩ | ⟨_, w, ha⟩ | ⟨hsw, herr, i, d, hi, he, ha⟩
    · rw [ha] at hw
      exact absurd hw (Option.isSome_iff_ne_none.1 hm)
    · rw [ha, State.lose_wrong] at hw
      simp at hw
    · rw [ha]
      exact hbook d none d.selBusy (heffect hp herr i d hi (hs hsw) he)

/-- A gap changes the device by a completion only. -/
theorem gap_keeps_dev (R : Device → Prop) (hfinish : ∀ d, R d → R d.finish) (s : State)
    (hs : s.wrong = none → R s.dev) (hw : (gap s).wrong = none) : R (gap s).dev := by
  rcases gap_cases s with h | ⟨hsw, _, h⟩
  · rw [h] at hw ⊢
    exact hs hw
  · rw [h]
    exact hfinish _ (hs hsw)

/-- In an unmarked run DEV-COMPLETE is a completion or nothing. -/
theorem devComplete_keeps_dev (R : Device → Prop) (hfinish : ∀ d, R d → R d.finish) (s : State)
    (hs : s.wrong = none → R s.dev) (hw : (devComplete s).wrong = none) : R (devComplete s).dev := by
  rcases devComplete_cases s with ⟨hm, h⟩ | ⟨hsw, _, h⟩ | ⟨hsw, _, h⟩ <;> rw [h] at hw ⊢
  · exact absurd hw (Option.isSome_iff_ne_none.1 hm)
  · exact hfinish _ (hs hsw)
  · exact hs hsw

/-- A codec reset in IDLE puts the selection away and reaches nothing else of the device (R210). -/
theorem codecReset_dev_of_idle (s : State) (hp : s.codec.phase = .idle) :
    (codecReset s).dev = { s.dev with sel := none } := by simp [codecReset, hp]

/-- A codec reset with an operation in flight marks the run (U11). -/
theorem codecReset_wrong (s : State) :
    (codecReset s).wrong = if s.codec.phase = .idle then s.wrong else s.wrong.or (some .resetCut) := by
  unfold codecReset
  split <;> rfl

/-- A codec reset that does not mark the run came in IDLE. -/
theorem codecReset_keeps_dev (R : Device → Prop) (hbook : ∀ d l b, R d → R { d with sel := l, selBusy := b }) (s : State)
    (hs : s.wrong = none → R s.dev) (hw : (codecReset s).wrong = none) : R (codecReset s).dev := by
  rw [codecReset_wrong] at hw
  split at hw
  · next hp =>
    rw [codecReset_dev_of_idle s hp]
    exact hbook _ none _ (hs hw)
  · simp at hw

/-- An operation that leaves the run unmarked keeps a property of the device if completions do and the effect rule of the
operation itself does, which is the one the device applies: it has heard the operation's whole encoding. -/
theorem exec_keeps_dev (R : Device → Prop) (hbook : ∀ d l b, R d → R { d with sel := l, selBusy := b })
    (hfinish : ∀ d, R d → R d.finish) (i : Instr)
    (heffect : ∀ p c d d', R d → effect p c (i.asHeard 0) d = .ok d' → R d') (s t : State) (hs : R s.dev)
    (h : exec i s = .next t) (hw : t.wrong = none) : R t.dev := by
  rw [exec_eq_operate] at h
  unfold operate at h
  split at h
  · next hacc =>
    simp only [acceptable, Bool.and_eq_true] at hacc
    have htick (u v : State) (hu : Sending i u ∧ (u.wrong = none → R u.dev)) (huv : tick u = .next v) :
        Sending i v ∧ (v.wrong = none → R v.dev) := by
      refine ⟨tick_sending i u v hacc.2 hu.1 huv, tick_keeps_dev R hbook u v (fun hp herr j d hj => ?_) hu.2 huv⟩
      rw [hu.1.sent hp herr, Option.getD_some, decode_encode] at hj
      cases hj
      exact heffect _ _ _ d
    exact (runBracket_keeps (fun u => Sending i u ∧ (u.wrong = none → R u.dev))
      (fun u hu => ⟨gap_sending i u hu.1, gap_keeps_dev R hfinish u hu.2⟩) htick 4 _ t
      ⟨sAccept_sending i s, fun _ => hs⟩ h).2 hw
  · cases h
    exact hs

end Sys2Proof.Machine
end

section
/-! The array in its canonical form (R27, R40, R50; log 14): every change the device can make to it, and that each keeps
the form and the bounds. -/

namespace Sys2Proof.Machine

/-! ## What an effect rule does to the array -/

/-- An effect rule leaves the array alone, or is a program or erase that was accepted: then, but for CE, at an address
that exists (R158, R51). -/
theorem effect_flash (p : Part) (c : Nat) (i : Instr) (d d' : Device) (h : effect p c i d = .ok d') :
    d'.flash = d.flash ∨
    ((i.op ≠ .ce → i.addr.toNat < p.totalSize) ∧ d'.flash = flashAfter p c i d.flash) := by
  rcases effect_cases p c i d d' h with rfl | ⟨_, _, _, rfl⟩ | ⟨_, _, _, rfl⟩ | ⟨_, _, _, _, _, rfl⟩ |
    ⟨_, _, _, _, _, rfl⟩ | ⟨_, _, _, rfl⟩ | ⟨_, _, ha, rfl⟩ | ⟨_, _, _, rfl⟩ | ⟨_, _, rfl⟩
  case inr.inr.inr.inr.inr.inr.inl => exact .inr ⟨ha, rfl⟩
  all_goals exact .inl rfl

theorem flashAfter_wf (p : Part) (c : Nat) (i : Instr) (m : Memory) (hm : m.wf = true) :
    (flashAfter p c i m).wf = true := by
  cases i with
  | pp a n payload => exact memWrite_wf c a payload m hm
  | se a => exact Memory.erase_wf m _ _ hm
  | be a => exact Memory.erase_wf m _ _ hm
  | ce => exact Memory.erase_wf m _ _ hm
  | _ => exact hm

/-- The array is a whole number of pages, so a page that begins inside it ends inside it: no wrap leaves it (R5, R47). -/
theorem target_lt_totalSize (p : Part) (a : Addr) (j : Nat) (h : a.toNat < p.totalSize) :
    (target a j).toNat < p.totalSize := by
  rw [target_toNat]
  unfold Part.totalSize blockSize at *
  omega

theorem flashAfter_inside (p : Part) (c : Nat) (i : Instr) (m : Memory) (ha : i.op ≠ .ce → i.addr.toNat < p.totalSize)
    (hm : ∀ x ∈ m, x.1 < p.totalSize) : ∀ x ∈ flashAfter p c i m, x.1 < p.totalSize := by
  intro x hx
  cases i with
  | pp a n payload =>
    rcases mem_memWriteFrom c a 0 payload m x hx with hx | ⟨j, hj⟩
    · exact hm x hx
    · exact hj ▸ target_lt_totalSize p a j (ha nofun)
  | se a => exact hm x (Memory.mem_erase _ _ _ x hx)
  | be a => exact hm x (Memory.mem_erase _ _ _ x hx)
  | ce => exact hm x (Memory.mem_erase _ _ _ x hx)
  | _ => exact hm x hx

/-! ## The invariant -/

/-- The invariant speaks of the array and the part only. -/
theorem FlashOk.congr {s t : State} (hs : FlashOk s) (hf : t.dev.flash = s.dev.flash) (hp : t.part = s.part) :
    FlashOk t :=
  ⟨hf ▸ hs.canonical, hf ▸ hp ▸ hs.inside⟩

/-- A device whose state was lost still holds an array: any contents, at the addresses that exist (log 8). -/
theorem FlashOk.of_lost (t : State) (cells : List (Nat × Byte))
    (hf : t.dev.flash = Memory.ofCells t.part.totalSize cells) : FlashOk t :=
  ⟨hf ▸ Memory.ofCells_wf _ _, by rw [hf]; exact Memory.ofCells_inside _ _⟩

theorem FlashOk.of_effect {s t : State} (hs : FlashOk s) (c : Nat) (i : Instr) (hp : t.part = s.part)
    (he : effect s.part c i s.dev = .ok t.dev) : FlashOk t := by
  rcases effect_flash _ _ _ _ _ he with hf | ⟨ha, hf⟩
  · exact hs.congr hf hp
  · exact ⟨hf ▸ flashAfter_wf _ _ _ _ hs.canonical, by rw [hf, hp]; exact flashAfter_inside _ _ _ _ ha hs.inside⟩

theorem deviceActs_flashOk (s : State) (hs : FlashOk s) : FlashOk (deviceActs s) := by
  rcases deviceActs_cases s with ⟨_, h⟩ | ⟨_, w, h⟩ | ⟨_, _, i, d, _, he, h⟩ <;> rw [h]
  · exact .of_lost _ _ rfl
  · exact .of_lost _ _ rfl
  · exact hs.of_effect _ i rfl he

theorem tick_flashOk (s t : State) (hs : FlashOk s) (h : tick s = .next t) : FlashOk t := by
  rcases tick_dev_cases s t h with ⟨_, l, b, hd⟩ | ⟨_, rfl⟩
  · exact hs.congr (by rw [hd]) (tick_part s t h)
  · have hsel : FlashOk (s.selected .high) := hs.congr rfl rfl
    exact (deviceActs_flashOk _ hsel).congr rfl rfl

theorem gap_flashOk (s : State) (hs : FlashOk s) : FlashOk (gap s) := by
  rcases gap_cases s with h | ⟨_, _, h⟩ <;> rw [h]
  · exact hs
  · exact hs.congr rfl rfl

theorem devComplete_flashOk (s : State) (hs : FlashOk s) : FlashOk (devComplete s) := by
  rcases devComplete_cases s with ⟨_, h⟩ | ⟨_, _, h⟩ | ⟨_, _, h⟩ <;> rw [h]
  · exact .of_lost _ _ rfl
  · exact hs.congr rfl rfl
  · exact hs

/-- In IDLE the reset does not reach the array; with an operation in flight the array is lost (R210, U11, log 10). -/
theorem codecReset_flashOk (s : State) (hs : FlashOk s) : FlashOk (codecReset s) := by
  unfold codecReset
  split
  · exact hs.congr rfl rfl
  · exact .of_lost _ _ rfl

/-- Settles O26: every part of a step keeps the array canonical and inside. -/
theorem flashStaysCanonicalAndInside : Obligations.FlashStaysCanonicalAndInside :=
  step_keeps FlashOk
    (hin := fun _ _ _ hs => hs.congr rfl rfl)
    (hclock := fun _ hs => hs.congr rfl rfl)
    (hwp := fun _ _ hs => hs.congr rfl rfl)
    (hacc := fun _ _ hs _ => hs.congr rfl rfl)
    (hgap := gap_flashOk)
    (htick := tick_flashOk)
    (hcomplete := devComplete_flashOk)
    (hreset := codecReset_flashOk)

end Sys2Proof.Machine
end

section
/-! Who may change the bits of the Status Register: bit 6 nobody, BP and SRP only Write Status (R20, R24, R26). -/

namespace Sys2Proof.Machine

/-! ## The bits above WEL -/

/-- Clearing or setting WIP or WEL leaves SR[7:2] as it was (R133, R134). -/
theorem srSetWip_zero_upper (s : Byte) : srSetWip s 0 &&& 0xFC = s &&& 0xFC := by
  rw [show (0 : Byte) = 0#8 from rfl, srSetWip_zero, BitVec.and_assoc]; rfl

theorem srSetWip_one_upper (s : Byte) : srSetWip s 1 &&& 0xFC = s &&& 0xFC := by
  rw [show (1 : Byte) = 1#8 from rfl, srSetWip_one, BitVec.and_or_distrib_right]; simp

theorem srSetWel_zero_upper (s : Byte) : srSetWel s 0 &&& 0xFC = s &&& 0xFC := by
  rw [show (0 : Byte) = 0#8 from rfl, srSetWel_zero, BitVec.and_assoc]; rfl

theorem srSetWel_one_upper (s : Byte) : srSetWel s 1 &&& 0xFC = s &&& 0xFC := by
  rw [show (1 : Byte) = 1#8 from rfl, srSetWel_one, BitVec.and_or_distrib_right]; simp

theorem Device.finish_sr_upper (d : Device) : d.finish.sr &&& 0xFC = d.sr &&& 0xFC :=
  (srSetWel_zero_upper _).trans (srSetWip_zero_upper _)

/-- R20, R26: an effect rule leaves SR[7:2] as it was, or is Write Status, which writes what R26 says. -/
theorem effect_sr_upper (p : Part) (c : Nat) (i : Instr) (d d' : Device) (h : effect p c i d = .ok d') :
    d'.sr &&& 0xFC = d.sr &&& 0xFC ∨ ∃ v, i = .wrsr v ∧ d'.sr &&& 0xFC = srWritten d.sr v &&& 0xFC := by
  rcases effect_cases p c i d d' h with rfl | ⟨_, _, _, rfl⟩ | ⟨_, _, _, rfl⟩ | ⟨v, hi, _, _, _, rfl⟩ |
    ⟨v, hi, _, _, _, rfl⟩ | ⟨_, _, _, rfl⟩ | ⟨_, _, _, rfl⟩ | ⟨_, _, _, rfl⟩ | ⟨_, _, rfl⟩
  · exact .inl rfl
  · exact .inl (srSetWel_one_upper _)
  · exact .inl (srSetWel_zero_upper _)
  · exact .inr ⟨v, hi, srSetWip_one_upper _⟩
  · exact .inr ⟨v, hi, srSetWel_zero_upper _⟩
  · exact .inl (srSetWel_zero_upper _)
  · exact .inl (srSetWip_one_upper _)
  · exact .inl rfl
  · exact .inl rfl

/-- Write Status writes BP and SRP whole (R26). -/
theorem srWritten_protection (s v : Byte) : srWritten s v &&& 0xBC = v &&& 0xBC := by
  ext i hi
  rw [srWritten_eq]
  interval_cases i <;> simp

/-- Write Status leaves the reserved bit (R24, R26). -/
theorem srWritten_reserved (s v : Byte) : (srWritten s v).getLsbD 6 = s.getLsbD 6 := by
  rw [srWritten_eq]
  simp

theorem protection_of_upper {x y : Byte} (h : x &&& 0xFC = y &&& 0xFC) : x &&& 0xBC = y &&& 0xBC := by
  simpa [BitVec.and_assoc] using congrArg (· &&& 0xBC#8) h

theorem reserved_of_upper {x y : Byte} (h : x &&& 0xFC = y &&& 0xFC) : x.getLsbD 6 = y.getLsbD 6 := by
  simpa using congrArg (·.getLsbD 6) h

/-! ## The reserved bit (R24) -/

theorem effect_reserved (p : Part) (c : Nat) (i : Instr) (d d' : Device) (h : effect p c i d = .ok d') :
    d'.sr.getLsbD 6 = d.sr.getLsbD 6 := by
  rcases effect_sr_upper p c i d d' h with h | ⟨v, _, h⟩
  · exact reserved_of_upper h
  · exact (reserved_of_upper h).trans (srWritten_reserved _ _)

/-- Bit 6 of SR holds `b`. -/
def ReservedIs (b : Bool) (d : Device) : Prop := d.sr.getLsbD 6 = b

theorem ReservedIs.finish {b : Bool} {d : Device} (h : ReservedIs b d) : ReservedIs b d.finish :=
  (reserved_of_upper d.finish_sr_upper).trans h

theorem ReservedIs.effect {b : Bool} {d d' : Device} {p : Part} {c : Nat} {i : Instr} (h : ReservedIs b d)
    (he : effect p c i d = .ok d') : ReservedIs b d' := (effect_reserved p c i d d' he).trans h

/-- Settles O31: no part of an unmarked step writes bit 6. -/
theorem reservedBitIsPreserved : Obligations.ReservedBitIsPreserved := by
  intro s t h hw
  exact step_keeps (fun u => u.wrong = none → ReservedIs (s.dev.sr.getLsbD 6) u.dev)
    (hin := fun _ _ _ hu => hu)
    (hclock := fun _ hu => hu)
    (hwp := fun _ _ hu => hu)
    (hacc := fun _ _ hu _ => hu)
    (hgap := gap_keeps_dev _ fun _ => .finish)
    (htick := fun u v hu huv =>
      tick_keeps_dev _ (fun _ _ _ hd => hd) u v (fun _ _ _ _ _ hd he => hd.effect he) hu huv)
    (hcomplete := devComplete_keeps_dev _ fun _ => .finish)
    (hreset := codecReset_keeps_dev _ fun _ _ _ hd => hd)
    s t (fun _ => rfl) h hw

/-! ## BP and SRP (R20, R26) -/

/-- BP and SRP are those of `sr`, or the operation `i` is Write Status and they are those of its operand. -/
def ProtectionFrom (i : Instr) (sr : Byte) (d : Device) : Prop :=
  d.sr &&& 0xBC = sr &&& 0xBC ∨ ∃ v, i = .wrsr v ∧ d.sr &&& 0xBC = v &&& 0xBC

theorem ProtectionFrom.finish {i : Instr} {sr : Byte} {d : Device} (h : ProtectionFrom i sr d) :
    ProtectionFrom i sr d.finish := by
  unfold ProtectionFrom
  rwa [protection_of_upper d.finish_sr_upper]

theorem ProtectionFrom.effect {i : Instr} {sr : Byte} {d d' : Device} {p : Part} {c : Nat} (h : ProtectionFrom i sr d)
    (he : effect p c (i.asHeard 0) d = .ok d') : ProtectionFrom i sr d' := by
  rcases effect_sr_upper p c _ d d' he with hup | ⟨v, hi, hup⟩
  · unfold ProtectionFrom
    rwa [protection_of_upper hup]
  · exact .inr ⟨v, (Instr.asHeard_eq_wrsr 0 i v).1 hi, (protection_of_upper hup).trans (srWritten_protection _ _)⟩

/-- Settles O32: the device decodes what was sent, so only a Write Status that was sent writes BP and SRP. -/
theorem protectionBitsChangeByWriteStatusOnly : Obligations.ProtectionBitsChangeByWriteStatusOnly := by
  intro i s t h hw
  have hfrom : ProtectionFrom i s.dev.sr t.dev :=
    exec_keeps_dev _ (hbook := fun _ _ _ hd => hd) (hfinish := fun _ => .finish) i
      (heffect := fun _ _ _ _ hd he => hd.effect he) s t (.inl rfl) h hw
  constructor
  · intro hop
    rcases hfrom with hsame | ⟨v, rfl, _⟩
    · exact hsame
    · exact absurd rfl hop
  · intro v hi _
    rcases hfrom with hsame | ⟨v', hv', hsr⟩
    · exact .inl hsame
    · cases hi.symm.trans hv'
      exact .inr hsr

end Sys2Proof.Machine
end

section
/-! The device in power-down: it obeys Release Power Down only (R28, R117, R205). -/

namespace Sys2Proof.Machine

/-- A whole operation in the reference environment: it ends with `done` and without an error, and the device has acted on
its whole encoding (R108, R115). -/
theorem exec_ready (i : Instr) (s : State) (hs : s.Ready) (hwf : i.wellFormed = true) :
    ∃ t c, exec i s = .next t ∧ t.codec.done = true ∧ t.codec.err = 0x00 ∧ Acted s t c (encode i) := by
  cases hx : i.op.xfer i.n with
  | none =>
    obtain ⟨t, hexec, hfin, hact⟩ := exec_ready_none i s hs hwf hx
    exact ⟨t, _, hexec, hfin.done, hfin.err, encode_eq_frame i (by simp [hx]) ▸ hact⟩
  | read m =>
    have henc : encode i = frame i.op i.addr i.srIn := encode_eq_frame i (by simp [hx])
    obtain ⟨t, data, hexec, _, hfin, hact⟩ := exec_ready_read i s m hs hwf hx _ (henc ▸ decode_encode i m)
    exact ⟨t, _, hexec, hfin.done, hfin.err, henc ▸ hact⟩
  | write =>
    obtain ⟨t, hexec, hfin, hact⟩ := exec_ready_write i s hs hwf hx (payload_length_eq i hwf hx)
    exact ⟨t, _, hexec, hfin.done, hfin.err, hact⟩

theorem ifAccepted_of_not_writable (p : Part) (f : BpRange → Bool) (acc : Except GoneWrong Device) (d : Device)
    (h : d.writable = false) : ifAccepted p f acc d = .ok d := by simp [ifAccepted, h]

theorem ifAcceptedAt_of_not_writable (p : Part) (a : Addr) (acc : Except GoneWrong Device) (d : Device)
    (h : d.writable = false) : ifAcceptedAt p a acc d = .ok d := by
  simp [ifAcceptedAt, h, ifAccepted_of_not_writable]

/-- Every effect rule but Release Power Down asks first whether the device is awake (R117; log 21). -/
theorem effect_asleep (p : Part) (c : Nat) (i : Instr) (d : Device) (hpd : d.pd = true) (hi : i ≠ .rdp) :
    effect p c i d = .ok d := by
  have hw : d.writable = false := by simp [Device.writable, hpd]
  cases i with
  | wren => simp [effect, effectWren, hpd]
  | wrdi => simp [effect, effectWrdi, hpd]
  | wrsr v => simp [effect, effectWrsr, hw]
  | pp a n payload => exact ifAcceptedAt_of_not_writable p a _ d hw
  | se a => exact ifAcceptedAt_of_not_writable p a _ d hw
  | be a => exact ifAcceptedAt_of_not_writable p a _ d hw
  | ce => exact ifAccepted_of_not_writable p _ _ d hw
  | dp => simp [effect, effectDp, hpd]
  | rdp => exact absurd rfl hi
  | rdsr | read _ _ | fastRead _ _ | rddevid | rdjedec => rfl

/-- Settles O34: the device acts on what it heard, and asleep the act is none. -/
theorem asleepOnlyReleaseIsObeyed : Obligations.AsleepOnlyReleaseIsObeyed := by
  intro i s hs hpd hwf hi
  obtain ⟨t, c, hexec, hdone, herr, hact⟩ := exec_ready i s hs hwf
  have hasleep : effect s.part c (i.asHeard 0) (s.dev.heard (encode i)) = .ok (s.dev.heard (encode i)) :=
    effect_asleep _ _ _ _ hpd ((Instr.asHeard_eq_rdp 0 i).not.2 hi)
  obtain ⟨hw, hdev⟩ := hact.ok _ _ (decode_encode i 0) hasleep
  exact ⟨t, hexec, hdone, herr, hw, hdev.trans (Device.heard_put_away _ _)⟩

end Sys2Proof.Machine
end

section
/-! The machine at reset, and what the codec's registers hold when an operation is accepted. -/

namespace Sys2Proof.Machine

/-! ## The invariants at reset (R31, R32, R109) -/

/-- At reset the line is high, the device deselected, the trace empty. -/
theorem reset_disciplined : Disciplined State.reset where
  cs_low_iff := by decide
  selected_iff := by decide
  bus := ⟨.high, rfl, rfl⟩
  transfer := nofun
  legal := nofun

/-- The array at reset is empty: every byte reads as erased (log 14). -/
theorem reset_flashOk : FlashOk State.reset where
  canonical := rfl
  inside := nofun

theorem reset_not_wip : State.reset.dev.wip = false := by decide

/-- The device at reset is not busy (log 12), so nothing is asked of it. -/
theorem reset_deviceOk : DeviceOk State.reset where
  wel_of_wip := fun _ h => absurd (reset_not_wip.symm.trans h) (by decide)
  awake_of_wip := fun _ h => absurd (reset_not_wip.symm.trans h) (by decide)
  idle_of_not_busy := fun _ _ _ => reset_not_wip

theorem reset_errOk : ErrOk State.reset where
  codes := .inl rfl
  marked := fun _ h => absurd rfl h

/-- Settles O29. -/
theorem invariantsAtReset : Obligations.InvariantsAtReset :=
  ⟨reset_disciplined, reset_flashOk, reset_deviceOk, reset_errOk⟩

/-! ## What is left of the codec's earlier registers (R10, R78) -/

/-- The state with the chip-select line at another level: all that two codecs can still differ in after S-ACCEPT. -/
def State.withCs (l : Level) (s : State) : State := { s with codec := { s.codec with cs := l } }

/-- S-ACCEPT writes every register but the chip-select line. -/
theorem sAccept_of_codec (i : Instr) (s : State) (c : Codec) :
    sAccept i { s with codec := c } = (sAccept i s).withCs c.cs := rfl

/-- Whether the device completes does not depend on the line. -/
theorem gap_withCs (l : Level) (s : State) : gap (s.withCs l) = (gap s).withCs l := by
  unfold gap devComplete
  simp only [apply_ite (State.withCs l)]
  rfl

/-- S-ASSERT writes the line without reading it. -/
theorem sAssert_withCs (l : Level) (s : State) : sAssert (s.withCs l) = sAssert s := rfl

/-- From the phase ASSERT on, the level the line had is of no account. -/
theorem runBracket_withCs (fuel : Nat) (l : Level) (s : State) (hp : s.codec.phase = .assert) :
    runBracket (fuel + 1) (s.withCs l) = runBracket (fuel + 1) s := by
  have hp' : (s.withCs l).codec.phase = .assert := hp
  have htick : tick (gap (s.withCs l)) = tick (gap s) := by
    have hg : (gap s).codec.phase = .assert := (congrArg Codec.phase (gap_codec s)).trans hp
    have hg' : ((gap s).withCs l).codec.phase = .assert := hg
    simp only [gap_withCs, tick, hg, hg', sAssert_withCs]
  rw [runBracket, runBracket, if_neg (by simp [hp']), if_neg (by simp [hp]), htick]

/-- Settles O22: S-ACCEPT and S-ASSERT together write every register, and neither reads one but the phase. -/
theorem earlierOperationsLeaveNoTrace : Obligations.EarlierOperationsLeaveNoTrace := by
  intro i s c hwf hs hc
  have hacc : ∀ u : State, u.codec.phase = .idle → exec i u = runBracket 4 (sAccept i u) := fun u hu => by
    rw [exec_eq_operate, operate, if_pos (by simp [acceptable, hu, hwf])]
  rw [hacc _ hc, hacc s hs, sAccept_of_codec]
  exact runBracket_withCs 3 c.cs (sAccept i s) rfl

end Sys2Proof.Machine
end

section
/-! The array and the operand of a program or erase (R41, R47, R49, R60): a Page Program stays in one page,
and no operation changes a byte outside the unit it names. -/

namespace Sys2Proof.Machine

/-! ## Targets (R47) -/

/-- An offset below 256 is determined by its target. -/
theorem target_inj (a : Addr) (j k : Nat) (hj : j < 256) (hk : k < 256) (h : target a j = target a k) : j = k := by
  have hnat := congrArg BitVec.toNat h
  rw [target_toNat, target_toNat] at hnat
  omega

/-- Every target is in the page of the address. -/
theorem target_page (a : Addr) (j : Nat) : (target a j).toNat / 256 = a.toNat / 256 := by
  rw [target_toNat]
  omega

/-- Settles O48: the target as a number says it all. -/
theorem pageWrapTargets : Obligations.PageWrapTargets := by
  intro a j k hj hk
  refine ⟨target_inj a j k hj hk, target_page a j, fun hbefore => ?_, fun hafter => ?_⟩
  · rw [target_toNat]
    omega
  · rw [target_toNat]
    omega

/-! ## Units (R41) -/

/-- Clearing the low `k` bits of an address gives the first address of its unit of `2 ^ k` bytes. -/
theorem clearLow_toNat (a : Addr) (k : Nat) :
    (a &&& (BitVec.allOnes 24 <<< k)).toNat = 2 ^ k * (a.toNat / 2 ^ k) := by
  have hshift : a &&& (BitVec.allOnes 24 <<< k) = (a >>> k) <<< k := by
    ext i hi
    by_cases hk : i < k
    · simp [hk]
    · have hki : k + (i - k) = i := by omega
      simp [-BitVec.reduceAllOnes, hk, hki, BitVec.getLsbD_eq_getElem hi]
  have hle : 2 ^ k * (a.toNat / 2 ^ k) ≤ a.toNat := Nat.mul_div_le _ _
  rw [hshift, BitVec.toNat_shiftLeft, BitVec.toNat_ushiftRight, Nat.shiftRight_eq_div_pow, Nat.shiftLeft_eq,
    Nat.mul_comm, Nat.mod_eq_of_lt (hle.trans_lt a.isLt)]

theorem sectorBase_toNat (a : Addr) : (sectorBase a).toNat = 4096 * (a.toNat / 4096) := clearLow_toNat a 12

theorem blockBase_toNat (a : Addr) : (blockBase a).toNat = 65536 * (a.toNat / 65536) := clearLow_toNat a 16

/-- The operation may change the byte at `x`: it lies in the unit that the operation names, the whole array for CE. -/
def Instr.reaches (x : Nat) (i : Instr) : Prop :=
  match i.op with
  | .pp => x / 256 = i.addr.toNat / 256
  | .se => x / 4096 = i.addr.toNat / 4096
  | .be => x / 65536 = i.addr.toNat / 65536
  | .ce => True
  | _ => False

/-- A program or erase leaves every byte outside its unit as it was. -/
theorem flashAfter_read_of_not_reaches (p : Part) (c : Nat) (i : Instr) (m : Memory) (hm : m.wf = true) (x : Nat)
    (hx : ¬Instr.reaches x i) : (flashAfter p c i m).read x = m.read x := by
  cases i with
  | pp a n payload =>
    refine memWriteFrom_read_other c a 0 payload m hm x fun j _ htarget => hx ?_
    exact htarget ▸ target_page a (0 + j)
  | se a =>
    have hout : ¬(4096 * (a.toNat / 4096) ≤ x ∧ x < 4096 * (a.toNat / 4096) + 4096) := by
      have : x / 4096 ≠ a.toNat / 4096 := hx
      omega
    exact (Memory.read_erase m _ _ x).trans (if_neg (sectorBase_toNat a ▸ hout))
  | be a =>
    have hout : ¬(65536 * (a.toNat / 65536) ≤ x ∧ x < 65536 * (a.toNat / 65536) + 65536) := by
      have : x / 65536 ≠ a.toNat / 65536 := hx
      omega
    exact (Memory.read_erase m _ _ x).trans (if_neg (blockBase_toNat a ▸ hout))
  | ce => exact absurd trivial hx
  | _ => rfl

/-- Lengths do not matter to the change of the array. -/
theorem flashAfter_asHeard (p : Part) (c k : Nat) (i : Instr) : flashAfter p c (i.asHeard k) = flashAfter p c i := by
  cases i <;> rfl

/-- An operation that is no program or erase has no change to make. -/
theorem flashAfter_of_not_changesArray (p : Part) (c : Nat) (i : Instr) (m : Memory)
    (h : Instr.changesArray i = false) : flashAfter p c i m = m := by
  cases i with
  | pp _ _ _ | se _ | be _ | ce => cases h
  | _ => rfl

/-! ## What an operation leaves of the array -/

/-- The array is canonical and agrees with `m` outside the unit of `i`; it is `m` where `i` is no program or erase. -/
structure ArrayKept (i : Instr) (m : Memory) (d : Device) : Prop where
  canonical : d.flash.wf = true
  same : Instr.changesArray i = false → d.flash = m
  outside : ∀ x, ¬Instr.reaches x i → d.flash.read x = m.read x

theorem ArrayKept.effect {i : Instr} {m : Memory} {d d' : Device} {p : Part} {c : Nat} (h : ArrayKept i m d)
    (he : effect p c (i.asHeard 0) d = .ok d') : ArrayKept i m d' := by
  rcases effect_flash _ _ _ _ _ he with hf | ⟨_, hf⟩
  · exact ⟨hf ▸ h.canonical, hf ▸ h.same, hf ▸ h.outside⟩
  · rw [flashAfter_asHeard] at hf
    refine ⟨hf ▸ flashAfter_wf _ _ _ _ h.canonical, fun hi => ?_, fun x hx => ?_⟩
    · rw [hf, flashAfter_of_not_changesArray _ _ _ _ hi, h.same hi]
    · rw [hf, flashAfter_read_of_not_reaches _ _ _ _ h.canonical x hx, h.outside x hx]

/-- An operation that leaves the run unmarked keeps the array outside its unit, accepted or not. -/
theorem exec_arrayKept (i : Instr) (s t : State) (hm : s.dev.flash.wf = true) (h : exec i s = .next t)
    (hw : t.wrong = none) : ArrayKept i s.dev.flash t.dev :=
  exec_keeps_dev _ (hbook := fun _ _ _ hd => ⟨hd.canonical, hd.same, hd.outside⟩)
    (hfinish := fun _ hd => ⟨hd.canonical, hd.same, hd.outside⟩) i
    (heffect := fun _ _ _ _ hd he => hd.effect he) s t ⟨hm, fun _ => rfl, fun _ _ => rfl⟩ h hw

/-- Settles O33: whatever the operation, the array is kept outside its unit. -/
theorem arrayChangesOnlyInTheOperandsUnit : Obligations.ArrayChangesOnlyInTheOperandsUnit := by
  intro i s t x hm h hw
  have hkept := exec_arrayKept i s t hm h hw
  refine ⟨fun hpp hse hbe hce => hkept.same ?_, fun hop hx => hkept.outside x ?_, fun hop hx => hkept.outside x ?_,
    fun hop hx => hkept.outside x ?_⟩
  · simp [Instr.changesArray, hpp, hse, hbe, hce]
  · simpa [Instr.reaches, hop] using hx
  · simpa [Instr.reaches, hop] using hx
  · simpa [Instr.reaches, hop] using hx

end Sys2Proof.Machine
end

section
/-! A program or erase of an awake, write-enabled device that is not accepted: a protected unit (R53, R158), and an
operand to which the device gives no meaning (R51, R53, R63; log 8, 21). -/

namespace Sys2Proof.Machine

/-! ## The checks in their order (log 21) -/

theorem ifAccepted_of_lookup_none (p : Part) (f : BpRange → Bool) (acc : Except GoneWrong Device) (d : Device)
    (hw : d.writable = true) (hr : bpLookup p d.bp = none) : ifAccepted p f acc d = .error .bpInvalid := by
  simp [ifAccepted, hw, hr]

theorem ifAccepted_of_lookup_some (p : Part) (f : BpRange → Bool) (acc : Except GoneWrong Device) (d : Device)
    (r : BpRange) (hw : d.writable = true) (hr : bpLookup p d.bp = some r) :
    ifAccepted p f acc d = if f r then .ok (d.rejected p) else acc := by
  simp [ifAccepted, hw, hr]

theorem ifAcceptedAt_of_outside (p : Part) (a : Addr) (acc : Except GoneWrong Device) (d : Device)
    (hw : d.writable = true) (ha : p.totalSize ≤ a.toNat) : ifAcceptedAt p a acc d = .error .addressOutside := by
  simp [ifAcceptedAt, hw, ha]

/-- At an address that exists only protection is left to ask. -/
theorem ifAcceptedAt_of_inside (p : Part) (a : Addr) (acc : Except GoneWrong Device) (d : Device)
    (ha : a.toNat < p.totalSize) :
    ifAcceptedAt p a acc d = ifAccepted p (fun r => bpProtects r (block a)) acc d := by
  simp [ifAcceptedAt, Nat.not_le.2 ha]

/-- PP, SE and BE ask the same of their address; they differ in what acceptance does. -/
theorem effect_addressed (p : Part) (c : Nat) (i : Instr) (d : Device) (hi : i.op = .pp ∨ i.op = .se ∨ i.op = .be) :
    ∃ acc, effect p c i d = ifAcceptedAt p i.addr acc d := by
  cases i with
  | pp _ _ _ | se _ | be _ => exact ⟨_, rfl⟩
  | _ => rcases hi with hi | hi | hi <;> cases hi

/-- CE asks whether any block is protected (R157). -/
theorem effect_chipErase (p : Part) (c : Nat) (i : Instr) (d : Device) (hi : i.op = .ce) :
    ∃ acc, effect p c i d = ifAccepted p (fun r => bpProtectsAny r p.nBlocks) acc d := by
  cases i with
  | ce => exact ⟨_, rfl⟩
  | _ => cases hi

theorem bpProtectsAny_eq_true (r : BpRange) (n : Nat) :
    bpProtectsAny r n = true ↔ ∃ b, b < n ∧ bpProtects r b = true := by
  simp [bpProtectsAny]

/-! ## A protected unit -/

/-- The unit of the program or erase `i` is protected under `r`: the block of its address, which exists, or for CE some
block (R53, R157). -/
def UnitProtected (p : Part) (r : BpRange) (i : Instr) : Prop :=
  ((i.op = .pp ∨ i.op = .se ∨ i.op = .be) ∧ i.addr.toNat < p.totalSize ∧ bpProtects r (block i.addr) = true) ∨
    (i.op = .ce ∧ ∃ b, b < p.nBlocks ∧ bpProtects r b = true)

theorem UnitProtected.asHeard {p : Part} {r : BpRange} {i : Instr} (h : UnitProtected p r i) (m : Nat) :
    UnitProtected p r (i.asHeard m) := by
  simpa [UnitProtected] using h

theorem effect_of_protected (p : Part) (c : Nat) (i : Instr) (d : Device) (r : BpRange) (hw : d.writable = true)
    (hr : bpLookup p d.bp = some r) (hp : UnitProtected p r i) : effect p c i d = .ok (d.rejected p) := by
  rcases hp with ⟨hi, ha, hblock⟩ | ⟨hi, hany⟩
  · obtain ⟨acc, he⟩ := effect_addressed p c i d hi
    rw [he, ifAcceptedAt_of_inside p i.addr acc d ha, ifAccepted_of_lookup_some _ _ _ d r hw hr, if_pos hblock]
  · obtain ⟨acc, he⟩ := effect_chipErase p c i d hi
    rw [he, ifAccepted_of_lookup_some _ _ _ d r hw hr, if_pos ((bpProtectsAny_eq_true _ _).2 hany)]

/-- What a rejection leaves once the selection is put away. -/
theorem Device.rejected_heard_put_away (p : Part) (l : List Byte) (d : Device) :
    { (d.heard l).rejected p with sel := none } =
      { d.untouched with sr := if p.welClearsOnReject then d.sr &&& 0xFD else d.sr } := by
  unfold Device.rejected
  split
  · exact congrArg (fun sr => { d.untouched with sr := sr }) (srSetWel_zero d.sr)
  · rfl

/-- Settles O54: the device hears the operation and rejects it. -/
theorem protectedTargetIsIgnored : Obligations.ProtectedTargetIsIgnored := by
  intro i s r hwf hs hpd hwel hr hp
  obtain ⟨t, c, hexec, hdone, herr, hact⟩ := exec_ready i s hs hwf
  have hwritable : (s.dev.heard (encode i)).writable = true := by simp [hpd, hwel]
  have hprot : UnitProtected s.part r i := hp
  have hreject := effect_of_protected s.part c _ (s.dev.heard (encode i)) r hwritable hr (hprot.asHeard 0)
  obtain ⟨hw, hdev⟩ := hact.ok _ _ (decode_encode i 0) hreject
  exact ⟨t, hexec, hdone, herr, hw, hdev.trans (Device.rejected_heard_put_away _ _ _)⟩

/-! ## An operation without meaning -/

/-- A Page Program of 0 or more than 256 bytes has no meaning where it is not protected (R63, U5). -/
theorem effectPp_of_length (p : Part) (c : Nat) (a : Addr) (payload : List Byte) (d : Device) (r : BpRange)
    (hw : d.writable = true) (ha : a.toNat < p.totalSize) (hr : bpLookup p d.bp = some r)
    (hblock : bpProtects r (block a) = false) (hn : payload.length = 0 ∨ 256 < payload.length) :
    effectPp p c a payload d = .error .programLength := by
  rw [effectPp, ifAcceptedAt_of_inside p a _ d ha, ifAccepted_of_lookup_some _ _ _ d r hw hr,
    if_neg (Bool.eq_false_iff.1 hblock), if_pos hn]

/-- As `exec_ready`, with every register of the codec. -/
theorem exec_ready_finished (i : Instr) (s : State) (hs : s.Ready) (hwf : i.wellFormed = true) :
    ∃ t c, exec i s = .next t ∧
      (∃ response moved value events, Finished s t i (frame i.op i.addr i.srIn) response moved value events) ∧
      Acted s t c (encode i) := by
  cases hx : i.op.xfer i.n with
  | none =>
    obtain ⟨t, hexec, hfin, hact⟩ := exec_ready_none i s hs hwf hx
    exact ⟨t, _, hexec, ⟨_, _, _, _, hfin⟩, encode_eq_frame i (by simp [hx]) ▸ hact⟩
  | read m =>
    have henc : encode i = frame i.op i.addr i.srIn := encode_eq_frame i (by simp [hx])
    obtain ⟨t, data, hexec, _, hfin, hact⟩ := exec_ready_read i s m hs hwf hx _ (henc ▸ decode_encode i m)
    exact ⟨t, _, hexec, ⟨_, _, _, _, hfin⟩, henc ▸ hact⟩
  | write =>
    obtain ⟨t, hexec, hfin, hact⟩ := exec_ready_write i s hs hwf hx (payload_length_eq i hwf hx)
    exact ⟨t, _, hexec, ⟨_, _, _, _, hfin⟩, hact⟩

/-- Settles O55: the codec ends as ever, and each cause is what the effect rule answers to the operation heard. -/
theorem operationWithoutMeaningMarksTheRun : Obligations.OperationWithoutMeaningMarksTheRun := by
  intro i s hwf hs hpd hwel
  obtain ⟨t, c, hexec, ⟨_, _, _, _, hfin⟩, hact⟩ := exec_ready_finished i s hs hwf
  have hwritable : (s.dev.heard (encode i)).writable = true := by simp [hpd, hwel]
  have hmark (w) (he : effect s.part c (i.asHeard 0) (s.dev.heard (encode i)) = .error w) : t.wrong = some w :=
    hact.noMeaning _ w (decode_encode i 0) he
  refine ⟨t, hexec, hfin.done, hfin.err, hfin.cs, fun hi ha => hmark _ ?_, fun hi ha hr => hmark _ ?_,
    fun hi hr => hmark _ ?_, fun r hi ha hr hblock hn => hmark _ ?_⟩
  · obtain ⟨acc, he⟩ := effect_addressed s.part c (i.asHeard 0) (s.dev.heard (encode i)) (by simpa using hi)
    rw [he, Instr.asHeard_addr, ifAcceptedAt_of_outside _ _ _ _ hwritable ha]
  · obtain ⟨acc, he⟩ := effect_addressed s.part c (i.asHeard 0) (s.dev.heard (encode i)) (by simpa using hi)
    rw [he, Instr.asHeard_addr, ifAcceptedAt_of_inside _ _ _ _ ha, ifAccepted_of_lookup_none _ _ _ _ hwritable hr]
  · obtain ⟨acc, he⟩ := effect_chipErase s.part c (i.asHeard 0) (s.dev.heard (encode i)) (by simpa using hi)
    rw [he, ifAccepted_of_lookup_none _ _ _ _ hwritable hr]
  · cases i with
    | pp a n payload =>
      have hlen : payload.length = n := payload_length_eq (.pp a n payload) hwf rfl
      exact effectPp_of_length _ _ a payload _ r hwritable ha hr hblock (hlen.symm ▸ hn)
    | _ => cases hi

end Sys2Proof.Machine
end

section
/-! A step of the machine runs what its input asks for (R55, R82, R87). -/

namespace Sys2Proof.Machine

/-! ## Requests -/

/-- A code that is none of the 14 opcodes asks for nothing (R82). -/
theorem instr_eq_none (r : Request) (h : ∀ o : Op, r.code ≠ o.opcode) : r.instr = none := by
  cases hr : r.instr with
  | none => rfl
  | some i => exact absurd (latched_operands r i hr).2 (h i.op)

/-- The step that takes a call (R55). -/
theorem step_call (s : State) (r : Request) (rest : List Input) (h : s.inputs = .call r :: rest) :
    step s = stepCall r { s with inputs := rest, port := r.operands } := by simp [step, h]

/-- The step that takes a request on the port (R102). -/
theorem step_present (s : State) (r : Request) (rest : List Input) (h : s.inputs = .present r :: rest) :
    step s = .next (stepPresent r { s with inputs := rest, port := r.operands }) := by simp [step, h]

theorem stepCall_of_instr (r : Request) (i : Instr) (s : State) (h : r.instr = some i) : stepCall r s = exec i s := by
  simp [stepCall, h]

theorem stepCall_of_unused (r : Request) (s : State) (h : r.instr = none) : stepCall r s = .next s := by
  simp [stepCall, h]

theorem stepPresent_of_unused (r : Request) (s : State) (h : r.instr = none) : stepPresent r s = s := by
  simp [stepPresent, h]

/-- A table word that decodes is called by the operation's own request. -/
theorem requestOfWord_of_decode (nbits w : Nat) (i : Instr) (h : decodeTableWord nbits w = some i) :
    requestOfWord nbits w = i.request := by simp [requestOfWord, h]

/-- With the codec in IDLE, placing a table word adds an input and nothing else. -/
theorem withFetchWord_of_idle (s : State) (nbits w : Nat) (h : s.codec.phase = .idle) :
    s.withFetchWord nbits w = { s with inputs := .call (requestOfWord nbits w) :: s.inputs } := by
  simp [State.withFetchWord, ← h]

/-- Settles O11: each input is taken by its own arm of `step`, and a request names its operation. -/
theorem stepRunsTheDecodedInstruction : Obligations.StepRunsTheDecodedInstruction := by
  refine ⟨fun s r rest i hin hr => ?_, fun s r rest hin hcode => ?_, instr_request, fun s nbits w i hp hw => ?_,
    fun s active rest hin => by simp [step, hin]⟩
  · rw [step_call s r rest hin, stepCall_of_instr r i _ hr]
  · have hnone := instr_eq_none r hcode
    rcases hin with hin | hin
    · rw [step_call s r rest hin, stepCall_of_unused r _ hnone]
    · rw [step_present s r rest hin, stepPresent_of_unused r _ hnone]
  · rw [withFetchWord_of_idle s nbits w hp, requestOfWord_of_decode nbits w i hw,
      step_call _ i.request s.inputs rfl, stepCall_of_instr _ i _ (instr_request i)]

end Sys2Proof.Machine
end

section
/-! The end of a selection: the device applies the effect rule of what it heard (R115); and Write Status there (R54,
R127). -/

namespace Sys2Proof.Machine

/-! ## The effect rule at `SEL(HIGH)` -/

/-- S-DEASSERT of an operation without error in an unmarked run: the device takes the effect rule's answer to the
operation it heard (R115, R192). -/
theorem tick_deassert_of_effect (s : State) (i : Instr) (d : Device) (hp : s.codec.phase = .deassert)
    (hsel : s.nextSelect = .returns) (herr : s.codec.err = errNone) (hok : s.Ok)
    (hi : decode (s.dev.sel.getD []) 0 = .ok i) (he : effect s.part s.clock i s.dev = .ok d) :
    ∃ t, tick s = .next t ∧ t.wrong = none ∧ t.dev = { d with sel := none } := by
  have hact : deviceActs (s.selected .high) = (s.selected .high).acted d := by
    simp [deviceActs, show s.wrong = none from hok, herr, hi, he]
  refine ⟨deasserted s, ?_, ?_, ?_⟩
  · simp only [tick, hp, sDeassert, onSelect_of_returns deasserted s hsel]
  · rw [deasserted_wrong, hact]
    exact hok
  · rw [deasserted_dev, hact, State.acted_dev]

/-! ## Write Status (R54, R127) -/

/-- Write Status is accepted by an awake device, not busy, with WEL, unless SRP is set with the pin active. -/
theorem wrsr_accepted_iff (d : Device) :
    (d.writable && !d.srLocked) = true ↔ d.pd = false ∧ d.selBusy = false ∧ d.sr.getLsbD 1 = true ∧
      ¬(d.sr.getLsbD 7 = true ∧ d.wp = true) := by
  simp only [Device.srLocked, Bool.and_eq_true, Device.writable_iff, Bool.not_eq_true', ← Bool.not_eq_true,
    Device.wel_eq, Device.srp_eq, and_assoc]

/-- What Write Status writes into SR, WIP or WEL included (R26, R127). -/
def srAfterWrsr (p : Part) (sr v : Byte) : Byte :=
  if p.wrsrBusy then ((sr &&& 0x43) ||| (v &&& 0xBC)) ||| 0x01 else ((sr &&& 0x43) ||| (v &&& 0xBC)) &&& 0xFD

theorem srAfterWrsr_eq (p : Part) (sr v : Byte) :
    srAfterWrsr p sr v = if p.wrsrBusy then srSetWip (srWritten sr v) 1 else srSetWel (srWritten sr v) 0 := by
  rw [srWritten_eq, srAfterWrsr]
  split
  · exact (srSetWip_one _).symm
  · exact (srSetWel_zero _).symm

theorem effectWrsr_eq (p : Part) (v : Byte) (d : Device) :
    effectWrsr p v d = if d.writable && !d.srLocked then { d with sr := srAfterWrsr p d.sr v } else d := by
  rw [effectWrsr, srAfterWrsr_eq]
  split
  · split <;> rfl
  · rfl

/-- Settles O40: the device decodes the Write Status it heard and applies R127. -/
theorem writeStatusEffect : Obligations.WriteStatusEffect := by
  intro s v hp hsel herr hok hstream
  have hdec : decode (s.dev.sel.getD []) 0 = .ok (.wrsr v) := by
    rw [hstream]
    exact decode_encode (.wrsr v) 0
  obtain ⟨t, htick, hw, hdev⟩ := tick_deassert_of_effect s (.wrsr v) _ hp hsel herr hok hdec rfl
  refine ⟨t, htick, hw, hdev.trans ?_⟩
  simp only [← wrsr_accepted_iff, effectWrsr_eq]
  split <;> rfl

end Sys2Proof.Machine
end

section
/-! Decoding and encoding undo each other (R71, R77, R83): what a stream that decodes must look like, and which
instructions the device hears as they were sent. -/

namespace Sys2Proof

/-! ## Instructions heard as they were sent -/

/-- Well-formedness and the length of a read are what the frame does not carry (R83, R102). -/
theorem Instr.asHeard_eq_self_iff (m : Nat) (i : Instr) :
    i.asHeard m = i ↔ i.wellFormed = true ∧ (i.op = .read ∨ i.op = .fastRead → i.n = m) := by
  cases i with
  | read a n => simp [Instr.asHeard, Instr.wellFormed, Instr.op, Instr.n, eq_comm]
  | fastRead a n => simp [Instr.asHeard, Instr.wellFormed, Instr.op, Instr.n, eq_comm]
  | pp a n payload => simp [Instr.asHeard, Instr.wellFormed, Instr.op]
  | _ => simp [Instr.asHeard, Instr.wellFormed, Instr.op]

/-- Settles O2: the device decodes the instruction as heard (`decode_encode`), which a well-formed one is. -/
theorem decodeOfEncodeIsTheInstruction : Obligations.DecodeOfEncodeIsTheInstruction := by
  intro i hwf
  have hheard : i.asHeard i.n = i := (Instr.asHeard_eq_self_iff i.n i).2 ⟨hwf, fun _ => rfl⟩
  rw [decode_encode, hheard]

/-! ## Streams that decode -/

/-- Only a stream that begins with an opcode decodes (R72, R82). -/
theorem exists_opcode_of_decode (stream : List Byte) (n : Nat) (i : Instr) (h : decode stream n = .ok i) :
    ∃ op rest, stream = op.opcode :: rest ∧ decodeRest op n rest = .ok i := by
  cases stream with
  | nil => cases h
  | cons b rest =>
    cases hop : Op.ofOpcode b with
    | none => simp [decode, hop] at h
    | some op => exact ⟨op, rest, by rw [eq_opcode_of_ofOpcode b op hop], by simpa [decode, hop] using h⟩

/-- A one-byte frame ends after its opcode. -/
theorem decodeF1_eq_ok (op : Op) (i j : Instr) (rest : List Byte) :
    decodeF1 op i rest = .ok j ↔ rest = [] ∧ i = j := by
  cases rest <;> simp [decodeF1]

/-- Any three bytes are the bytes of an address (R73). -/
theorem exists_addr_of_bytes (hi mid lo : Byte) : ∃ a, hi = addrHi a ∧ mid = addrMid a ∧ lo = addrLo a :=
  ⟨addrOf hi mid lo, (addrHi_addrOf hi mid lo).symm, (addrMid_addrOf hi mid lo).symm, (addrLo_addrOf hi mid lo).symm⟩

/-- After its opcode a four-byte frame is an address. -/
theorem exists_addr_of_decodeF3 (op : Op) (f : Addr → Instr) (j : Instr) (rest : List Byte)
    (h : decodeF3 op f rest = .ok j) : ∃ a, rest = [addrHi a, addrMid a, addrLo a] ∧ f a = j := by
  unfold decodeF3 at h
  split at h
  next hi mid lo =>
    obtain ⟨a, rfl, rfl, rfl⟩ := exists_addr_of_bytes hi mid lo
    rw [addrOf_bytes] at h
    exact ⟨a, rfl, Except.ok.inj h⟩
  next => cases h

/-- What follows the opcode of a stream that decodes is what the encoder puts there, format by format (R71). -/
theorem encode_of_decodeRest (op : Op) (n : Nat) (rest : List Byte) (i : Instr) (h : decodeRest op n rest = .ok i) :
    encode i = op.opcode :: rest := by
  cases op with
  | wren | wrdi | rdsr | ce | dp | rdp | rdjedec =>
    obtain ⟨rfl, rfl⟩ := (decodeF1_eq_ok _ _ _ _).1 h
    rfl
  | read | se | be =>
    simp only [decodeRest] at h
    obtain ⟨a, rfl, rfl⟩ := exists_addr_of_decodeF3 _ _ _ _ h
    rfl
  | wrsr =>
    simp only [decodeRest] at h
    split at h
    next v => cases h; rfl
    next => cases h
  | fastRead =>
    simp only [decodeRest] at h
    split at h
    next hi mid lo d =>
      obtain ⟨a, rfl, rfl, rfl⟩ := exists_addr_of_bytes hi mid lo
      rw [addrOf_bytes] at h
      split at h
      next hd => subst hd; cases h; rfl
      next => cases h
    next => cases h
  | pp =>
    simp only [decodeRest] at h
    split at h
    next hi mid lo payload =>
      obtain ⟨a, rfl, rfl, rfl⟩ := exists_addr_of_bytes hi mid lo
      rw [addrOf_bytes] at h
      cases h
      rfl
    next => cases h
  | rddevid =>
    simp only [decodeRest] at h
    split at h
    next z1 z2 z3 =>
      split at h
      next hz => obtain ⟨rfl, rfl, rfl⟩ := hz; cases h; rfl
      next => cases h
    next => cases h

/-- A stream that decodes is the encoding of what it decodes to (R83). -/
theorem encode_of_decode (stream : List Byte) (n : Nat) (i : Instr) (h : decode stream n = .ok i) :
    encode i = stream := by
  obtain ⟨op, rest, rfl, hrest⟩ := exists_opcode_of_decode stream n i h
  exact encode_of_decodeRest op n rest i hrest

/-- Settles O3: the stream is the encoding, and decoding that gives the instruction as heard. -/
theorem encodeOfDecodeIsTheStream : Obligations.EncodeOfDecodeIsTheStream := by
  intro stream n i h
  have henc : encode i = stream := encode_of_decode stream n i h
  have hheard : i.asHeard n = i := by
    rw [← henc, decode_encode] at h
    exact Except.ok.inj h
  exact ⟨henc, (Instr.asHeard_eq_self_iff n i).1 hheard⟩

/-- Settles O1: each frame is the encoding of its operation; the invalid streams are refused by evaluation. -/
theorem workedFramesDecode : Obligations.WorkedFramesDecode :=
  ⟨decode_encode .wren 0, decode_encode (.wrsr 0x9C) 0, decode_encode (.read 0xABCDEF 2) 2,
    decode_encode (.fastRead 0x000100 3) 3, decode_encode (.pp 0x001000 4 [0xDE, 0xAD, 0xBE, 0xEF]) 0,
    decode_encode (.se 0x012345) 0, decode_encode (.be 0x012345) 0, decode_encode .ce 0, decode_encode .dp 0,
    decode_encode .rdp 0, decode_encode .rddevid 0, decode_encode .rdjedec 0, rfl, rfl, rfl, rfl⟩

end Sys2Proof
end

section
/-! The frame: its opcode, its length and its address field (R71 to R73, R77); and the table's words, the frame as one
number with byte 0 most significant (R71). -/

namespace Sys2Proof

/-! ## Opcode and length -/

theorem opcode_injective : Function.Injective Op.opcode := fun o o' h =>
  Option.some.inj (by rw [← ofOpcode_opcode o, h, ofOpcode_opcode])

theorem frame_head? (o : Op) (a : Addr) (v : Byte) : (frame o a v).head? = some o.opcode := by cases o <;> rfl

theorem frame_length (o : Op) (a : Addr) (v : Byte) : (frame o a v).length = o.format.length := by cases o <;> rfl

/-- Settles O5: a frame has the length of its operation's format, and R77's table lists those by opcode. -/
theorem opcodeFixesOperationAndLength : Obligations.OpcodeFixesOperationAndLength := by
  refine ⟨fun o o' h => opcode_injective h, fun o a v => ⟨frame_head? o a v, ?_⟩⟩
  rw [frame_length]
  cases o <;> decide

/-! ## The address field -/

/-- The three address bytes are the digits of the address in base 256 (R73). -/
theorem addr_toNat_eq (a : Addr) :
    a.toNat = 65536 * (addrHi a).toNat + 256 * (addrMid a).toNat + (addrLo a).toNat := by
  simp only [addrHi, addrMid, addrLo, BitVec.extractLsb'_toNat, Nat.shiftRight_eq_div_pow]
  omega

/-- Settles O6: in F3 and F4 alike the bytes after the opcode are the address field. -/
theorem addressGoesOutMostSignificantByteFirst : Obligations.AddressGoesOutMostSignificantByteFirst := by
  intro o a v ho
  refine ⟨addrHi a, addrMid a, addrLo a, ?_, addr_toNat_eq a, addrOf_bytes a⟩
  rcases ho with rfl | rfl | rfl | rfl | rfl <;> rfl

/-! ## Frames as numbers -/

/-- The bytes as one unsigned number whose most significant byte is byte 0 (R71). -/
def wordOfBytes : List Byte → Nat
  | [] => 0
  | b :: rest => b.toNat * 256 ^ rest.length + wordOfBytes rest

theorem wordOfBytes_lt (l : List Byte) : wordOfBytes l < 256 ^ l.length := by
  induction l with
  | nil => exact Nat.one_pos
  | cons b rest ih =>
    calc b.toNat * 256 ^ rest.length + wordOfBytes rest
      _ < (b.toNat + 1) * 256 ^ rest.length := by rw [Nat.succ_mul]; omega
      _ ≤ 256 * 256 ^ rest.length := Nat.mul_le_mul_right _ b.isLt
      _ = 256 ^ (rest.length + 1) := (Nat.pow_succ' ..).symm

/-- What stands above the lowest `k` bytes of a number is not in them. -/
theorem bytesOfWord_mul_add (k m w : Nat) : bytesOfWord k (m * 256 ^ k + w) = bytesOfWord k w := by
  induction k generalizing m with
  | zero => rfl
  | succ k ih =>
    have hshift : m * 256 ^ (k + 1) + w = (m * 256) * 256 ^ k + w := by rw [Nat.pow_succ', Nat.mul_assoc]
    have hbyte : BitVec.ofNat 8 (m * 256 + w / 256 ^ k) = BitVec.ofNat 8 (w / 256 ^ k) :=
      BitVec.eq_of_toNat_eq (by simp)
    rw [hshift, bytesOfWord, bytesOfWord, ih, Nat.add_comm, Nat.add_mul_div_right _ _ (Nat.pow_pos (by decide)),
      Nat.add_comm, hbyte]

/-- The model's reading of a table word gives the numbered bytes back. -/
theorem bytesOfWord_wordOfBytes (l : List Byte) : bytesOfWord l.length (wordOfBytes l) = l := by
  induction l with
  | nil => rfl
  | cons b rest ih =>
    have hhead : (b.toNat * 256 ^ rest.length + wordOfBytes rest) / 256 ^ rest.length = b.toNat := by
      rw [Nat.add_comm, Nat.add_mul_div_right _ _ (Nat.pow_pos (by decide)), Nat.div_eq_of_lt (wordOfBytes_lt rest),
        Nat.zero_add]
    rw [wordOfBytes, List.length_cons, bytesOfWord, hhead, bytesOfWord_mul_add, ih, BitVec.ofNat_toNat,
      BitVec.setWidth_eq]

/-- A stream as long as its opcode's frame or longer is its own table row: no zero bytes are added. -/
theorem streamOfWord_opcode_cons (o : Op) (rest : List Byte) (h : o.format.length ≤ rest.length + 1) :
    streamOfWord (8 * (rest.length + 1)) (wordOfBytes (o.opcode :: rest)) = o.opcode :: rest := by
  have hbytes : bytesOfWord (rest.length + 1) (wordOfBytes (o.opcode :: rest)) = o.opcode :: rest :=
    bytesOfWord_wordOfBytes (o.opcode :: rest)
  simp only [streamOfWord, Nat.mul_div_cancel_left _ (by decide : 0 < 8), hbytes, ofOpcode_opcode, List.length_cons,
    Nat.sub_eq_zero_of_le h, List.replicate_zero, List.append_nil]

/-- An encoding is its opcode and what follows, together no shorter than the frame (R71, R77). -/
theorem exists_encode_eq_opcode_cons (i : Instr) :
    ∃ rest, encode i = i.op.opcode :: rest ∧ i.op.format.length ≤ rest.length + 1 := by
  have hcons : encode i = i.op.opcode :: (encode i).tail := by cases i <;> rfl
  have hlen : i.op.format.length ≤ (encode i).length := by simp [encode, frame_length]
  rw [hcons] at hlen
  exact ⟨(encode i).tail, hcons, hlen⟩

/-- The word of an encoding stands for the instruction, read with length 0 (R71, log 28). -/
theorem decodeTableWord_of_encode (i : Instr) (w : Nat) (h : wordOfBytes (encode i) = w) :
    decodeTableWord (8 * (encode i).length) w = some (i.asHeard 0) := by
  subst h
  obtain ⟨rest, hcons, hlen⟩ := exists_encode_eq_opcode_cons i
  have hstream : streamOfWord (8 * (encode i).length) (wordOfBytes (encode i)) = encode i := by
    rw [hcons]
    exact streamOfWord_opcode_cons i.op rest hlen
  simp only [decodeTableWord, hstream, decode_encode]

/-- The number of a frame in the format F2 (R71). -/
theorem wordOfBytes_status (b v : Byte) : wordOfBytes [b, v] = b.toNat * 2 ^ 8 + v.toNat := by
  simp [wordOfBytes]

/-- The number of a frame in the format F3 (R71). -/
theorem wordOfBytes_addr (b : Byte) (a : Addr) :
    wordOfBytes [b, addrHi a, addrMid a, addrLo a] = b.toNat * 2 ^ 24 + a.toNat := by
  simp only [addr_toNat_eq a, wordOfBytes, List.length_cons, List.length_nil]
  omega

/-- The number of a frame in the format F4: F3's, and the dummy byte (R71, R74). -/
theorem wordOfBytes_addr_dummy (b : Byte) (a : Addr) :
    wordOfBytes [b, addrHi a, addrMid a, addrLo a, 0x00] = b.toNat * 2 ^ 32 + a.toNat * 2 ^ 8 := by
  simp only [addr_toNat_eq a, wordOfBytes, List.length_cons, List.length_nil, BitVec.ofNat_eq_ofNat, BitVec.toNat_ofNat]
  omega

/-- Settles O4: each word of the table is the number of its operation's encoding. -/
theorem tableWordsAreBigEndianFrames : Obligations.TableWordsAreBigEndianFrames := by
  intro a v
  exact ⟨decodeTableWord_of_encode (.wrsr v) _ (wordOfBytes_status 0x01 v),
    decodeTableWord_of_encode (.read a 0) _ (wordOfBytes_addr 0x03 a),
    decodeTableWord_of_encode (.fastRead a 0) _ (wordOfBytes_addr_dummy 0x0B a),
    decodeTableWord_of_encode (.pp a 0 []) _ (wordOfBytes_addr 0x02 a),
    decodeTableWord_of_encode (.se a) _ (wordOfBytes_addr 0x20 a),
    decodeTableWord_of_encode (.be a) _ (wordOfBytes_addr 0xD8 a)⟩

end Sys2Proof
end

section
/-! The sequencer's steps as equations: the next state of each phase under a name of its own, with its fields, and the
tick of each phase in terms of them (R103 to R107, R118). -/

namespace Sys2Proof.Machine

/-! ## S-FRAME's next state (R104) -/

/-- The state after S-FRAME whose write took `k` bytes. -/
def framed (k : Nat) (s : State) : State :=
  checkCount k s.codec.fb.length
    { s with
      codec := { s.codec with cntFrame := k, phase := phaseAfterFrame (s.codec.op.xfer s.codec.n) }
      dev := s.dev.hear (s.codec.fb.take k)
      answers := s.answers.tail
      trace := s.trace ++ [.wr s.codec.fb k] }

@[simp] theorem framed_codec (k : Nat) (s : State) :
    (framed k s).codec =
      { s.codec with
        cntFrame := k
        phase := phaseAfterFrame (s.codec.op.xfer s.codec.n)
        err := if k < s.codec.fb.length then errTransportIncomplete else s.codec.err } := checkCount_codec ..
@[simp] theorem framed_dev (k : Nat) (s : State) : (framed k s).dev = s.dev.hear (s.codec.fb.take k) :=
  checkCount_dev ..
@[simp] theorem framed_part (k : Nat) (s : State) : (framed k s).part = s.part := checkCount_part ..
@[simp] theorem framed_wrong (k : Nat) (s : State) : (framed k s).wrong = s.wrong := checkCount_wrong ..
@[simp] theorem framed_port (k : Nat) (s : State) : (framed k s).port = s.port := checkCount_port ..
@[simp] theorem framed_inputs (k : Nat) (s : State) : (framed k s).inputs = s.inputs := checkCount_inputs ..
@[simp] theorem framed_answers (k : Nat) (s : State) : (framed k s).answers = s.answers.tail := checkCount_answers ..
@[simp] theorem framed_selects (k : Nat) (s : State) : (framed k s).selects = s.selects := checkCount_selects ..
@[simp] theorem framed_clock (k : Nat) (s : State) : (framed k s).clock = s.clock := checkCount_clock ..
@[simp] theorem framed_due (k : Nat) (s : State) : (framed k s).due = s.due := checkCount_due ..
@[simp] theorem framed_trace (k : Nat) (s : State) : (framed k s).trace = s.trace ++ [.wr s.codec.fb k] :=
  checkCount_trace ..

/-! ## S-XFER's next state, read kind (R105) -/

/-- The `m` bytes the codec takes in where the read moved `k`. -/
def dataIn (m k : Nat) (s : State) : List Byte := received s.clock m k (deviceResponse s m)

@[simp] theorem dataIn_length (m k : Nat) (s : State) : (dataIn m k s).length = m := received_length ..

/-- Below the count the bytes are the device's response (R101, R115). -/
theorem dataIn_getElem? (m k : Nat) (s : State) (j : Nat) (hk : k ≤ m) (hj : j < k)
    (hr : j < (deviceResponse s m).length) : (dataIn m k s)[j]? = (deviceResponse s m)[j]? := by
  simp [dataIn, received, Nat.lt_of_lt_of_le hj hk, hj, hr]

/-- The state after S-XFER whose read of `m` bytes moved `k`. -/
def readIn (m k : Nat) (s : State) : State :=
  checkCount k m
    { s with
      codec := { s.codec with resp := dataIn m k s, cntXfer := k, phase := .deassert }
      answers := s.answers.tail
      clock := s.clock + 1
      trace := s.trace ++ [.rd m k (dataIn m k s)] }

@[simp] theorem readIn_codec (m k : Nat) (s : State) :
    (readIn m k s).codec =
      { s.codec with
        resp := dataIn m k s
        cntXfer := k
        phase := .deassert
        err := if k < m then errTransportIncomplete else s.codec.err } := checkCount_codec ..
@[simp] theorem readIn_dev (m k : Nat) (s : State) : (readIn m k s).dev = s.dev := checkCount_dev ..
@[simp] theorem readIn_part (m k : Nat) (s : State) : (readIn m k s).part = s.part := checkCount_part ..
@[simp] theorem readIn_wrong (m k : Nat) (s : State) : (readIn m k s).wrong = s.wrong := checkCount_wrong ..
@[simp] theorem readIn_port (m k : Nat) (s : State) : (readIn m k s).port = s.port := checkCount_port ..
@[simp] theorem readIn_inputs (m k : Nat) (s : State) : (readIn m k s).inputs = s.inputs := checkCount_inputs ..
@[simp] theorem readIn_answers (m k : Nat) (s : State) : (readIn m k s).answers = s.answers.tail :=
  checkCount_answers ..
@[simp] theorem readIn_selects (m k : Nat) (s : State) : (readIn m k s).selects = s.selects := checkCount_selects ..
@[simp] theorem readIn_clock (m k : Nat) (s : State) : (readIn m k s).clock = s.clock + 1 := checkCount_clock ..
@[simp] theorem readIn_due (m k : Nat) (s : State) : (readIn m k s).due = s.due := checkCount_due ..
@[simp] theorem readIn_trace (m k : Nat) (s : State) : (readIn m k s).trace = s.trace ++ [.rd m k (dataIn m k s)] :=
  checkCount_trace ..

/-! ## S-XFER's next state, write kind (R106) -/

/-- The state after S-XFER whose write of the payload took `k` bytes. -/
def writtenOut (k : Nat) (s : State) : State :=
  checkCount k s.codec.n
    { s with
      codec := { s.codec with cntXfer := k, phase := .deassert }
      dev := s.dev.hear (s.codec.payload.take k)
      answers := s.answers.tail
      trace := s.trace ++ [.wr s.codec.payload k] }

@[simp] theorem writtenOut_codec (k : Nat) (s : State) :
    (writtenOut k s).codec =
      { s.codec with
        cntXfer := k
        phase := .deassert
        err := if k < s.codec.n then errTransportIncomplete else s.codec.err } := checkCount_codec ..
@[simp] theorem writtenOut_dev (k : Nat) (s : State) : (writtenOut k s).dev = s.dev.hear (s.codec.payload.take k) :=
  checkCount_dev ..
@[simp] theorem writtenOut_part (k : Nat) (s : State) : (writtenOut k s).part = s.part := checkCount_part ..
@[simp] theorem writtenOut_wrong (k : Nat) (s : State) : (writtenOut k s).wrong = s.wrong := checkCount_wrong ..
@[simp] theorem writtenOut_port (k : Nat) (s : State) : (writtenOut k s).port = s.port := checkCount_port ..
@[simp] theorem writtenOut_inputs (k : Nat) (s : State) : (writtenOut k s).inputs = s.inputs := checkCount_inputs ..
@[simp] theorem writtenOut_answers (k : Nat) (s : State) : (writtenOut k s).answers = s.answers.tail :=
  checkCount_answers ..
@[simp] theorem writtenOut_selects (k : Nat) (s : State) : (writtenOut k s).selects = s.selects := checkCount_selects ..
@[simp] theorem writtenOut_clock (k : Nat) (s : State) : (writtenOut k s).clock = s.clock := checkCount_clock ..
@[simp] theorem writtenOut_due (k : Nat) (s : State) : (writtenOut k s).due = s.due := checkCount_due ..
@[simp] theorem writtenOut_trace (k : Nat) (s : State) : (writtenOut k s).trace = s.trace ++ [.wr s.codec.payload k] :=
  checkCount_trace ..

/-- What S-DEASSERT writes on the codec's side, all at once (R107). -/
theorem deasserted_codec (s : State) :
    (deasserted s).codec =
      { s.codec with cs := .high, result := decodeResult s.codec.op s.codec.resp, done := true, phase := .idle } := rfl

/-! ## The tick of each phase (R118) -/

theorem tick_assert (s : State) (hp : s.codec.phase = .assert) : tick s = onSelect asserted s := by
  simp [tick, hp, sAssert]

theorem tick_frame (s : State) (hp : s.codec.phase = .frame) : tick s = sFrame s := by simp [tick, hp]

theorem tick_deassert (s : State) (hp : s.codec.phase = .deassert) : tick s = onSelect deasserted s := by
  simp [tick, hp, sDeassert]

theorem tick_xfer_read (s : State) (m : Nat) (hp : s.codec.phase = .xfer) (hx : s.codec.op.xfer s.codec.n = .read m) :
    tick s = sXferRead m s := by simp [tick, hp, sXfer, hx]

theorem tick_xfer_write (s : State) (hp : s.codec.phase = .xfer) (hx : s.codec.op.xfer s.codec.n = .write) :
    tick s = sXferWrite s := by simp [tick, hp, sXfer, hx]

theorem sFrame_of_count (s : State) (k : Nat) (h : s.nextAnswer.count s.codec.fb.length = some k) :
    sFrame s = .next (framed k s) := by
  simp only [sFrame, busWrite, h]
  rfl

theorem sXferRead_of_count (s : State) (m k : Nat) (h : s.nextAnswer.count m = some k) :
    sXferRead m s = .next (readIn m k s) := by
  simp only [sXferRead, busRead, h]
  rfl

theorem sXferWrite_of_count (s : State) (k : Nat) (h : s.nextAnswer.count s.codec.payload.length = some k) :
    sXferWrite s = .next (writtenOut k s) := by
  simp only [sXferWrite, busWrite, h]
  rfl

theorem sFrame_of_never (s : State) (h : s.nextAnswer = .never) : sFrame s = .fault .transportHang := by
  simp [sFrame, busWrite, h, Answer.count]

theorem sXferRead_of_never (s : State) (m : Nat) (h : s.nextAnswer = .never) :
    sXferRead m s = .fault .transportHang := by simp [sXferRead, busRead, h, Answer.count]

theorem sXferWrite_of_never (s : State) (h : s.nextAnswer = .never) : sXferWrite s = .fault .transportHang := by
  simp [sXferWrite, busWrite, h, Answer.count]

/-- All that one sequencer step can do, phase by phase (R118), each next state by its name. -/
theorem tick_next_cases (s t : State) (h : tick s = .next t) :
    (s.codec.phase = .idle ∧ t = s) ∨
    (s.codec.phase = .assert ∧ s.nextSelect = .returns ∧ t = asserted s) ∨
    (s.codec.phase = .frame ∧ ∃ k, s.nextAnswer.count s.codec.fb.length = some k ∧ t = framed k s) ∨
    (s.codec.phase = .xfer ∧ s.codec.op.xfer s.codec.n = .none ∧ t = s) ∨
    (s.codec.phase = .xfer ∧ ∃ m k, s.codec.op.xfer s.codec.n = .read m ∧ s.nextAnswer.count m = some k ∧
      t = readIn m k s) ∨
    (s.codec.phase = .xfer ∧ s.codec.op.xfer s.codec.n = .write ∧
      ∃ k, s.nextAnswer.count s.codec.payload.length = some k ∧ t = writtenOut k s) ∨
    (s.codec.phase = .deassert ∧ s.nextSelect = .returns ∧ t = deasserted s) := by
  rcases tick_cases s t h with h | h | ⟨hp, h⟩ | h | ⟨hp, m, hx, h⟩ | ⟨hp, hx, h⟩ | h
  · exact .inl h
  · exact .inr (.inl h)
  · exact .inr (.inr (.inl ⟨hp, sFrame_next s t h⟩))
  · exact .inr (.inr (.inr (.inl h)))
  · obtain ⟨k, hk, rfl⟩ := sXferRead_next m s t h
    exact .inr (.inr (.inr (.inr (.inl ⟨hp, m, k, hx, hk, rfl⟩))))
  · exact .inr (.inr (.inr (.inr (.inr (.inl ⟨hp, hx, sXferWrite_next s t h⟩)))))
  · exact .inr (.inr (.inr (.inr (.inr (.inr h)))))

/-! ## The statements about single steps -/

/-- Settles O15: the next state of S-ASSERT, its WIP sample written as the bit. -/
theorem assertSelectsTheDevice : Obligations.AssertSelectsTheDevice := by
  intro s hp hsel
  rw [tick_assert s hp, onSelect_of_returns asserted s hsel, ← Device.wip_eq]
  rfl

/-- S-FRAME goes to DEASSERT where no transfer follows, and to XFER otherwise (R104). -/
theorem phaseAfterFrame_eq_ite (x : Transfer) : phaseAfterFrame x = if x = .none then .deassert else .xfer := by
  cases x <;> rfl

/-- Settles O16: the fields of S-FRAME's next state. -/
theorem frameStepWritesOnceAndTestsTheCount : Obligations.FrameStepWritesOnceAndTestsTheCount := by
  intro s k hp hk
  refine ⟨framed k s, ?_, framed_trace k s, ?_, framed_wrong k s, framed_dev k s⟩
  · rw [tick_frame s hp, sFrame_of_count s k hk]
  · rw [framed_codec, phaseAfterFrame_eq_ite]
    rfl

/-- The length of each read (R79). -/
theorem xfer_read_length (o : Op) (n m : Nat) (h : o.xfer n = .read m) :
    (o = .rdsr → m = 1) ∧ (o = .rddevid → m = 2) ∧ (o = .rdjedec → m = 3) ∧ (o = .read ∨ o = .fastRead → m = n) := by
  cases o <;> simp_all [Op.xfer]

/-- Settles O17: the fields of S-XFER's next state, read kind. -/
theorem readTransferRecordsTheResponse : Obligations.ReadTransferRecordsTheResponse := by
  intro s m k hp hx hk
  refine ⟨readIn m k s, dataIn m k s, ?_, dataIn_length m k s, readIn_trace m k s,
    fun j hj hr => dataIn_getElem? m k s j (Answer.count_le _ _ _ hk) hj hr, readIn_codec m k s, readIn_wrong m k s,
    readIn_dev m k s, xfer_read_length _ _ _ hx⟩
  rw [tick_xfer_read s m hp hx, sXferRead_of_count s m k hk]

/-- Page Program is the one operation that writes a payload (R79). -/
theorem xfer_eq_write_iff (o : Op) (n : Nat) : o.xfer n = .write ↔ o = .pp := by cases o <;> simp [Op.xfer]

/-- Settles O18: the fields of S-XFER's next state, write kind. -/
theorem payloadTransferIsASecondWrite : Obligations.PayloadTransferIsASecondWrite := by
  intro s k hp hx hk
  refine ⟨writtenOut k s, ?_, (xfer_eq_write_iff _ _).1 hx, writtenOut_trace k s, writtenOut_codec k s,
    writtenOut_wrong k s, writtenOut_dev k s⟩
  rw [tick_xfer_write s hp hx, sXferWrite_of_count s k hk]

/-- The operations without a value leave the result 0 (R107, R17). -/
theorem decodeResult_of_no_value (o : Op) (resp : List Byte) (h1 : o ≠ .rdsr) (h2 : o ≠ .rddevid) (h3 : o ≠ .rdjedec) :
    decodeResult o resp = 0x0000 := by
  cases o with
  | rdsr => exact absurd rfl h1
  | rddevid => exact absurd rfl h2
  | rdjedec => exact absurd rfl h3
  | _ => rfl

/-- Settles O19: the fields of S-DEASSERT's next state. -/
theorem deassertDecodesTheResult : Obligations.DeassertDecodesTheResult := by
  intro s hp hsel
  refine ⟨deasserted s, decodeResult s.codec.op s.codec.resp, ?_, deasserted_trace s, rfl, deasserted_dev_sel s,
    deasserted_selects s, ?_, ?_, ?_, decodeResult_of_no_value _ _⟩
  · rw [tick_deassert s hp, onSelect_of_returns deasserted s hsel]
  all_goals
    intro ho
    rw [ho]
    rfl

/-- Settles O20: the phases of the next states, by the phase the step is taken in. -/
theorem phasesFollowTheTable : Obligations.PhasesFollowTheTable := by
  intro s t hs h
  rcases tick_next_cases s t h with ⟨hp, rfl⟩ | ⟨hp, _, rfl⟩ | ⟨hp, k, _, rfl⟩ | ⟨hp, hx, rfl⟩ | ⟨hp, m, k, hx, _, rfl⟩ |
    ⟨hp, hx, k, _, rfl⟩ | ⟨hp, _, rfl⟩
  case inr.inr.inr.inl => exact absurd hx (hs.transfer hp)
  all_goals simp +contextual [hp, phaseAfterFrame_eq_ite]

end Sys2Proof.Machine
end

section
/-! The chip-select discipline (R101, R109, R115): every part of a step keeps it. -/

namespace Sys2Proof.Machine

/-! ## The bus after one more event -/

/-- The scan of a trace takes one event after the other. -/
theorem busScan_append (trace : List Event) (e : Event) :
    busScan (trace ++ [e]) = (busScan trace).bind fun m => busNext m e := by
  simp [busScan]

theorem busScan_of_event {trace : List Event} {m m' : BusMode} (e : Event) (hm : busScan trace = some m)
    (he : busNext m e = some m') : busScan (trace ++ [e]) = some m' := by
  rw [busScan_append, hm]
  exact he

/-! ## The discipline, kept -/

/-- The discipline speaks of the codec, the device's selection and the trace only. -/
theorem Disciplined.congr {s t : State} (hs : Disciplined s) (hc : t.codec = s.codec) (hd : t.dev.sel = s.dev.sel)
    (ht : t.trace = s.trace) : Disciplined t where
  cs_low_iff := hc ▸ hs.cs_low_iff
  selected_iff := hc ▸ hd ▸ hs.selected_iff
  bus := hc ▸ ht ▸ hs.bus
  transfer := hc ▸ hs.transfer
  legal := ht ▸ hs.legal

theorem Disciplined.legal_append {s : State} (hs : Disciplined s) (e : Event) (he : e.legal = true) :
    ∀ x ∈ s.trace ++ [e], x.legal = true := by
  intro x hx
  rcases List.mem_append.1 hx with hx | hx
  · exact hs.legal x hx
  · exact List.mem_singleton.1 hx ▸ he

/-- S-ACCEPT: the line stays HIGH, no event (R102). -/
theorem sAccept_disciplined (i : Instr) (s : State) (hs : Disciplined s) (hp : s.codec.phase = .idle) :
    Disciplined (sAccept i s) where
  cs_low_iff := by simpa [hp] using hs.cs_low_iff
  selected_iff := hs.selected_iff
  bus := by simpa [hp, busModeFits] using hs.bus
  transfer := nofun
  legal := hs.legal

/-- S-ASSERT opens a selection (R103). -/
theorem asserted_disciplined (s : State) (hs : Disciplined s) (hp : s.codec.phase = .assert) :
    Disciplined (asserted s) where
  cs_low_iff := by simp
  selected_iff := by simp
  bus := by
    obtain ⟨m, hm, hfit⟩ := hs.bus
    obtain rfl : m = .high := by simpa [hp, busModeFits] using hfit
    exact ⟨.low 0, busScan_of_event _ hm rfl, rfl⟩
  transfer := nofun
  legal := hs.legal_append _ rfl

/-- A state in a phase of the selection: the line is LOW and the device selected. -/
theorem Disciplined.low {s : State} (hs : Disciplined s)
    (hp : s.codec.phase = .frame ∨ s.codec.phase = .xfer ∨ s.codec.phase = .deassert) :
    s.codec.cs = .low ∧ s.dev.sel.isSome = true :=
  ⟨hs.cs_low_iff.2 hp, hs.selected_iff.2 (hs.cs_low_iff.2 hp)⟩

/-- S-FRAME makes the first transfer of the selection (R104). -/
theorem framed_disciplined (k : Nat) (s : State) (hs : Disciplined s) (hp : s.codec.phase = .frame)
    (hk : k ≤ s.codec.fb.length) : Disciplined (framed k s) where
  cs_low_iff := by
    rw [framed_codec, phaseAfterFrame_eq_ite]
    split <;> simp [(hs.low (.inl hp)).1]
  selected_iff := by simpa using hs.selected_iff
  bus := by
    obtain ⟨m, hm, hfit⟩ := hs.bus
    obtain rfl : m = .low 0 := by simpa [hp, busModeFits] using hfit
    refine ⟨.low 1, ?_, ?_⟩
    · rw [framed_trace]
      exact busScan_of_event _ hm rfl
    · rw [framed_codec, phaseAfterFrame_eq_ite]
      split <;> simp [busModeFits]
  transfer := fun hxfer hx => by
    rw [framed_codec] at hx hxfer
    simp [hx, phaseAfterFrame] at hxfer
  legal := by
    rw [framed_trace]
    exact hs.legal_append _ (decide_eq_true hk)

/-- S-XFER makes the second and last transfer of the selection, whichever kind it is (R105, R106). -/
theorem Disciplined.transferred {s t : State} (hs : Disciplined s) (hp : s.codec.phase = .xfer) (e : Event)
    (hphase : t.codec.phase = .deassert) (hcs : t.codec.cs = s.codec.cs)
    (hsel : t.dev.sel.isSome = s.dev.sel.isSome) (htrace : t.trace = s.trace ++ [e]) (he : e.legal = true)
    (hnext : busNext (.low 1) e = some (.low 2)) : Disciplined t where
  cs_low_iff := by simp [hcs, hphase, (hs.low (.inr (.inl hp))).1]
  selected_iff := by rw [hsel, hcs]; exact hs.selected_iff
  bus := by
    obtain ⟨m, hm, hfit⟩ := hs.bus
    obtain rfl : m = .low 1 := by simpa [hp, busModeFits] using hfit
    exact ⟨.low 2, htrace ▸ busScan_of_event e hm hnext, by simp [hphase, busModeFits]⟩
  transfer := by simp [hphase]
  legal := htrace ▸ hs.legal_append e he

/-- S-DEASSERT closes a selection that has had one or two transfers (R107). -/
theorem deasserted_disciplined (s : State) (hs : Disciplined s) (hp : s.codec.phase = .deassert) :
    Disciplined (deasserted s) where
  cs_low_iff := by simp
  selected_iff := by simp
  bus := by
    obtain ⟨m, hm, hfit⟩ := hs.bus
    refine ⟨.high, ?_, rfl⟩
    rw [deasserted_trace]
    rcases (by simpa [hp, busModeFits] using hfit : m = .low 1 ∨ m = .low 2) with rfl | rfl
    all_goals exact busScan_of_event _ hm rfl
  transfer := nofun
  legal := by
    rw [deasserted_trace]
    exact hs.legal_append _ rfl

theorem tick_disciplined (s t : State) (hs : Disciplined s) (h : tick s = .next t) : Disciplined t := by
  rcases tick_next_cases s t h with ⟨_, rfl⟩ | ⟨hp, _, rfl⟩ | ⟨hp, k, hk, rfl⟩ | ⟨_, _, rfl⟩ | ⟨hp, m, k, _, hk, rfl⟩ |
    ⟨hp, _, k, hk, rfl⟩ | ⟨hp, _, rfl⟩
  · exact hs
  · exact asserted_disciplined s hs hp
  · exact framed_disciplined k s hs hp (Answer.count_le _ _ _ hk)
  · exact hs
  · exact hs.transferred hp _ (by simp) (by simp) (by simp) (readIn_trace m k s)
      (by simpa [Event.legal] using Answer.count_le _ _ _ hk) rfl
  · exact hs.transferred hp _ (by simp) (by simp) (by simp) (writtenOut_trace k s)
      (decide_eq_true (Answer.count_le _ _ _ hk)) rfl
  · exact deasserted_disciplined s hs hp

theorem gap_disciplined (s : State) (hs : Disciplined s) : Disciplined (gap s) := by
  rcases gap_cases s with h | ⟨_, _, h⟩ <;> rw [h]
  · exact hs
  · exact hs.congr rfl rfl rfl

theorem devComplete_disciplined (s : State) (hs : Disciplined s) : Disciplined (devComplete s) := by
  rcases devComplete_cases s with ⟨_, h⟩ | ⟨_, _, h⟩ | ⟨_, _, h⟩ <;> rw [h]
  · exact hs.congr rfl rfl rfl
  · exact hs.congr rfl rfl rfl
  · exact hs

/-- A reset puts the line HIGH, deselects the device and starts the trace anew (R210, log 10). -/
theorem codecReset_disciplined (s : State) : Disciplined (codecReset s) :=
  reset_disciplined.congr rfl rfl rfl

/-- Settles O25: each part of a step keeps the discipline. -/
theorem chipSelectDisciplineIsKept : Obligations.ChipSelectDisciplineIsKept :=
  step_keeps Disciplined
    (hin := fun _ _ _ hs => hs.congr rfl rfl rfl)
    (hclock := fun _ hs => hs.congr rfl rfl rfl)
    (hwp := fun _ _ hs => hs.congr rfl rfl rfl)
    (hacc := sAccept_disciplined)
    (hgap := gap_disciplined)
    (htick := tick_disciplined)
    (hcomplete := devComplete_disciplined)
    (hreset := fun s _ => codecReset_disciplined s)

end Sys2Proof.Machine
end

section
/-! An internal operation runs on an enabled and awake device only, and starts at the end of a selection only (R115,
R117, R159): every part of a step that leaves the run unmarked keeps it so. -/

namespace Sys2Proof.Machine

/-! ## The invariant, of the device alone -/

/-- What `DeviceOk` says of the device in an unmarked run. -/
structure Device.Sound (d : Device) : Prop where
  wel_of_wip : d.wip = true → d.wel = true
  awake_of_wip : d.wip = true → d.pd = false
  idle_of_not_busy : d.sel.isSome = true → d.selBusy = false → d.wip = false

theorem deviceOk_iff (s : State) : DeviceOk s ↔ (s.wrong = none → s.dev.Sound) :=
  ⟨fun h hw => ⟨h.wel_of_wip hw, h.awake_of_wip hw, h.idle_of_not_busy hw⟩,
    fun h => ⟨fun hw => (h hw).wel_of_wip, fun hw => (h hw).awake_of_wip, fun hw => (h hw).idle_of_not_busy⟩⟩

/-- The array, the pin and the bytes heard do not matter. -/
theorem Device.Sound.congr {d d' : Device} (h : d.Sound) (hsr : d'.sr = d.sr) (hpd : d'.pd = d.pd)
    (hsel : d'.sel.isSome = d.sel.isSome) (hbusy : d'.selBusy = d.selBusy) : d'.Sound := by
  have hwip : d'.wip = d.wip := congrArg (srWip · == 1) hsr
  have hwel : d'.wel = d.wel := congrArg (srWel · == 1) hsr
  exact ⟨hwip ▸ hwel ▸ h.wel_of_wip, hwip ▸ hpd ▸ h.awake_of_wip, hwip ▸ hsel ▸ hbusy ▸ h.idle_of_not_busy⟩

theorem Device.Sound.of_not_wip {d : Device} (h : d.wip = false) : d.Sound :=
  ⟨fun hw => by simp [h] at hw, fun hw => by simp [h] at hw, fun _ _ => h⟩

/-- A device that is not selected may be busy, if it is enabled and awake. -/
theorem Device.Sound.of_busy {d : Device} (hsel : d.sel = none) (hwel : d.wel = true) (hpd : d.pd = false) : d.Sound :=
  ⟨fun _ => hwel, fun _ => hpd, fun hs => by simp [hsel] at hs⟩

theorem Device.Sound.put_away {d : Device} (h : d.Sound) : { d with sel := none }.Sound :=
  ⟨h.wel_of_wip, h.awake_of_wip, nofun⟩

/-! ## The bits that the effect rules leave -/

@[simp] theorem srSetWel_one_wip (s : Byte) : (srSetWel s 1#8)[0] = s[0] := by simp [srSetWel_one]
@[simp] theorem srSetWel_zero_wip (s : Byte) : (srSetWel s 0#8)[0] = s[0] := by simp [srSetWel_zero]
@[simp] theorem srSetWip_one_wel (s : Byte) : (srSetWip s 1#8)[1] = s[1] := by simp [srSetWip_one]
@[simp] theorem srWritten_wip (s v : Byte) : (srWritten s v)[0] = s[0] := by simp [srWritten_eq]
@[simp] theorem srWritten_wel (s v : Byte) : (srWritten s v)[1] = s[1] := by simp [srWritten_eq]

/-! ## The effect at the end of a selection -/

/-- In a selection that began busy an operation is heeded only once the internal operation has ended (R117, U16). -/
theorem Device.not_wip_of_heeds {d : Device} {c : Nat} (hb : d.selBusy = true) (hc : d.heeds c = true) :
    d.wip = false := by
  simp only [Device.heeds, hb, if_true, Bool.and_eq_true, Bool.not_eq_true'] at hc
  exact hc.1

/-- WREN, WRDI, DP and RDP are heeded by a device that is not busy (R117, U16). -/
theorem Device.Sound.not_wip_of_heeds {d : Device} (h : d.Sound) (hsel : d.sel.isSome = true) {c : Nat}
    (hc : d.heeds c = true) : d.wip = false := by
  cases hb : d.selBusy with
  | false => exact h.idle_of_not_busy hsel hb
  | true => exact Device.not_wip_of_heeds hb hc

theorem Device.Sound.not_wip_of_writable {d : Device} (h : d.Sound) (hsel : d.sel.isSome = true)
    (hw : d.writable = true) : d.wip = false :=
  h.idle_of_not_busy hsel (d.writable_iff.1 hw).2.1

/-- The effect rules that set WIP ask for WEL and for an awake device, and the others do not act on a busy one (R117,
R158). -/
theorem Device.Sound.effect {d d' : Device} (h : d.Sound) (hsel : d.sel.isSome = true) {p : Part} {c : Nat} {i : Instr}
    (he : effect p c i d = .ok d') : { d' with sel := none }.Sound := by
  rcases effect_cases p c i d d' he with rfl | ⟨_, _, hc, rfl⟩ | ⟨_, _, hc, rfl⟩ | ⟨v, _, hw, _, _, rfl⟩ |
    ⟨v, _, hw, _, _, rfl⟩ | ⟨_, hw, _, rfl⟩ | ⟨_, hw, _, rfl⟩ | ⟨_, _, hc, rfl⟩ | ⟨_, hc, rfl⟩
  case inl => exact h.put_away
  case inr.inr.inr.inl =>
    obtain ⟨hpd, _, hwel⟩ := d.writable_iff.1 hw
    exact .of_busy rfl (by simpa [Device.wel_eq] using hwel) hpd
  case inr.inr.inr.inr.inr.inr.inl =>
    obtain ⟨hpd, _, hwel⟩ := d.writable_iff.1 hw
    exact .of_busy rfl (by simpa [Device.wel_eq] using hwel) hpd
  case inr.inr.inr.inr.inl | inr.inr.inr.inr.inr.inl =>
    exact .of_not_wip (by simpa [Device.wip_eq] using h.not_wip_of_writable hsel hw)
  all_goals exact .of_not_wip (by simpa [Device.wip_eq] using h.not_wip_of_heeds hsel hc)

/-- A device that was not selected heard no frame. -/
theorem isSome_of_decode {sel : Option (List Byte)} {n : Nat} {i : Instr} (h : decode (sel.getD []) n = .ok i) :
    sel.isSome = true := by
  cases sel with
  | none => cases h
  | some l => rfl

/-! ## The invariant, kept -/

theorem deasserted_deviceOk (s : State) (hs : DeviceOk s) : DeviceOk (deasserted s) := by
  rw [deviceOk_iff] at hs ⊢
  rw [deasserted_wrong, deasserted_dev]
  rcases deviceActs_cases (s.selected .high) with ⟨hm, h⟩ | ⟨_, w, h⟩ | ⟨hok, _, i, d, hi, he, h⟩ <;> rw [h]
  · intro hw
    exact absurd hw (Option.isSome_iff_ne_none.1 hm)
  · intro hw
    simp at hw
  · exact fun _ => (hs hok).effect (isSome_of_decode hi) he

/-- S-ASSERT samples WIP (R115). -/
theorem Device.Sound.selectLow {d : Device} (h : d.Sound) : d.selectLow.Sound :=
  ⟨h.wel_of_wip, h.awake_of_wip, fun _ hb => hb⟩

theorem Device.Sound.hear {d : Device} (h : d.Sound) (bytes : List Byte) : (d.hear bytes).Sound :=
  h.congr rfl rfl (by simp) rfl

theorem tick_deviceOk (s t : State) (hs : DeviceOk s) (h : tick s = .next t) : DeviceOk t := by
  have hsound := (deviceOk_iff s).1 hs
  rcases tick_next_cases s t h with ⟨_, rfl⟩ | ⟨_, _, rfl⟩ | ⟨_, k, _, rfl⟩ | ⟨_, _, rfl⟩ | ⟨_, m, k, _, _, rfl⟩ |
    ⟨_, _, k, _, rfl⟩ | ⟨_, _, rfl⟩
  · exact hs
  · exact (deviceOk_iff _).2 fun hw => (hsound hw).selectLow
  · exact (deviceOk_iff _).2 fun hw => framed_dev k s ▸ (hsound (framed_wrong k s ▸ hw)).hear _
  · exact hs
  · exact (deviceOk_iff _).2 fun hw => readIn_dev m k s ▸ hsound (readIn_wrong m k s ▸ hw)
  · exact (deviceOk_iff _).2 fun hw => writtenOut_dev k s ▸ (hsound (writtenOut_wrong k s ▸ hw)).hear _
  · exact deasserted_deviceOk s hs

theorem Device.finish_sound (d : Device) : d.finish.Sound := .of_not_wip d.finish_wip

theorem writeProtect_deviceOk (s : State) (b : Bool) (hs : DeviceOk s) :
    DeviceOk { s with dev := { s.dev with wp := b } } :=
  (deviceOk_iff _).2 fun hw => ((deviceOk_iff s).1 hs hw).congr rfl rfl rfl rfl

/-- In an unmarked run the reset came in IDLE and only put the selection away (R210). -/
theorem codecReset_deviceOk (s : State) (hs : DeviceOk s) : DeviceOk (codecReset s) := by
  rw [deviceOk_iff, codecReset_wrong]
  split
  · next hp =>
    rw [codecReset_dev_of_idle s hp]
    exact fun hw => ((deviceOk_iff s).1 hs hw).put_away
  · intro hw
    simp at hw

/-- Settles O27: each part of a step keeps a sound device sound while the run is unmarked; a completion makes any
device sound. -/
theorem busyDeviceIsEnabledAndAwake : Obligations.BusyDeviceIsEnabledAndAwake :=
  step_keeps DeviceOk
    (hin := fun _ _ _ hs => ⟨hs.wel_of_wip, hs.awake_of_wip, hs.idle_of_not_busy⟩)
    (hclock := fun _ hs => ⟨hs.wel_of_wip, hs.awake_of_wip, hs.idle_of_not_busy⟩)
    (hwp := writeProtect_deviceOk)
    (hacc := fun _ _ hs _ => ⟨hs.wel_of_wip, hs.awake_of_wip, hs.idle_of_not_busy⟩)
    (hgap := fun s hs => (deviceOk_iff _).2 fun hw =>
      gap_keeps_dev _ (fun d _ => d.finish_sound) s ((deviceOk_iff s).1 hs) hw)
    (htick := tick_deviceOk)
    (hcomplete := fun s hs => (deviceOk_iff _).2 fun hw =>
      devComplete_keeps_dev _ (fun d _ => d.finish_sound) s ((deviceOk_iff s).1 hs) hw)
    (hreset := codecReset_deviceOk)

end Sys2Proof.Machine
end

section
/-! Acceptance: what a request does to the codec, and that a refused one does nothing (R102, R110, log 22); and a
selection that began with WIP = 1 (R117, U16). -/

namespace Sys2Proof.Machine

/-! ## Refused requests -/

theorem acceptable_iff (i : Instr) (s : State) :
    acceptable i s = true ↔ s.codec.phase = .idle ∧ i.wellFormed = true := by
  simp [acceptable]

theorem acceptable_eq_false_iff (i : Instr) (s : State) :
    acceptable i s = false ↔ s.codec.phase ≠ .idle ∨ i.wellFormed = false := by
  rw [← Bool.not_eq_true, acceptable_iff, not_and_or, Bool.not_eq_true]

theorem exec_of_refused (i : Instr) (s : State) (h : acceptable i s = false) : exec i s = .next s := by
  simp [exec_eq_operate, operate, h]

theorem presentRequest_of_refused (i : Instr) (s : State) (h : acceptable i s = false) : presentRequest i s = s := by
  simp [presentRequest, h]

theorem presentRequest_of_accepted (i : Instr) (s : State) (h : acceptable i s = true) :
    presentRequest i s = sAccept i s := by simp [presentRequest, h]

theorem stepPresent_of_instr (r : Request) (i : Instr) (s : State) (h : r.instr = some i) :
    stepPresent r s = presentRequest i s := by simp [stepPresent, h]

/-- A request none of whose readings is acceptable has no effect, as a call and on the port. -/
theorem step_of_refused (s : State) (r : Request) (rest : List Input)
    (hin : s.inputs = .call r :: rest ∨ s.inputs = .present r :: rest)
    (h : ∀ i, r.instr = some i → acceptable i s = false) :
    step s = .next { s with inputs := rest, port := r.operands } := by
  have hboth : stepCall r { s with inputs := rest, port := r.operands } =
        .next { s with inputs := rest, port := r.operands } ∧
      stepPresent r { s with inputs := rest, port := r.operands } = { s with inputs := rest, port := r.operands } := by
    cases hr : r.instr with
    | none => exact ⟨stepCall_of_unused r _ hr, stepPresent_of_unused r _ hr⟩
    | some i =>
      rw [stepCall_of_instr r i _ hr, stepPresent_of_instr r i _ hr]
      exact ⟨exec_of_refused i _ (h i hr), presentRequest_of_refused i _ (h i hr)⟩
  rcases hin with hin | hin
  · rw [step_call s r rest hin, hboth.1]
  · rw [step_present s r rest hin, hboth.2]

/-- Settles O13: a busy codec refuses whatever is asked, and an ill-formed Page Program is refused in IDLE too. -/
theorem requestWhileBusyHasNoEffect : Obligations.RequestWhileBusyHasNoEffect := by
  intro s i h
  have hi : acceptable i s = false := (acceptable_eq_false_iff i s).2 h
  refine ⟨exec_of_refused i s hi, presentRequest_of_refused i s hi, fun r rest hin hr => ?_⟩
  refine step_of_refused s r rest hin fun j hj => ?_
  rcases hr with hp | hr
  · exact (acceptable_eq_false_iff j s).2 (.inl hp)
  · obtain rfl : i = j := Option.some.inj (hr.symm.trans hj)
    exact hi

/-! ## Accepted requests (R102) -/

/-- S-ACCEPT's guard in terms of the request's operands. -/
theorem wellFormed_iff_of_instr (r : Request) (i : Instr) (h : r.instr = some i) :
    i.wellFormed = true ↔ (i.op = .pp → r.operands.payload.length = r.operands.n) := by
  have hlatched := (latched_operands r i h).1
  cases i with
  | pp a n payload =>
    rw [← hlatched]
    simp [Instr.wellFormed, Instr.op, Instr.latched]
  | _ => simp [Instr.wellFormed, Instr.op]

/-- Settles O14: S-ACCEPT latches the four operands of the request, since it is the request that drives the port. -/
theorem acceptLatchesAndClears : Obligations.AcceptLatchesAndClears := by
  intro s r rest i hin hr
  have hguard : acceptable i { s with inputs := rest, port := r.operands } = true ↔
      s.codec.phase = .idle ∧ (i.op = .pp → r.operands.payload.length = r.operands.n) := by
    rw [acceptable_iff, wellFormed_iff_of_instr r i hr]
  rw [step_present s r rest hin, stepPresent_of_instr r i _ hr]
  by_cases hacc : acceptable i { s with inputs := rest, port := r.operands } = true
  · rw [presentRequest_of_accepted i _ hacc, if_pos (hguard.1 hacc), sAccept, (latched_operands r i hr).1]
    rfl
  · rw [presentRequest_of_refused i _ (Bool.eq_false_iff.2 hacc), if_neg fun h => hacc (hguard.2 h)]

/-! ## A selection that began busy (R117) -/

/-- A device that is not writable never answers that an operation has no meaning (log 21). -/
theorem effect_ok_of_not_writable (p : Part) (c : Nat) (i : Instr) (d : Device) (hw : d.writable = false) :
    ∃ d', effect p c i d = .ok d' := by
  cases i with
  | pp a n payload => exact ⟨d, ifAcceptedAt_of_not_writable p a _ d hw⟩
  | se a => exact ⟨d, ifAcceptedAt_of_not_writable p a _ d hw⟩
  | be a => exact ⟨d, ifAcceptedAt_of_not_writable p a _ d hw⟩
  | ce => exact ⟨d, ifAccepted_of_not_writable p _ _ d hw⟩
  | _ => exact ⟨_, rfl⟩

/-- Settles O35: a busy selection is not writable, so of the effect rules only the four that ask whether the device
heeds can act. -/
theorem busySelectionIsIgnored : Obligations.BusySelectionIsIgnored := by
  intro i s hp hsel herr hok hi hb
  have hw : s.dev.writable = false := by simp [Device.writable, hb]
  obtain ⟨d, he⟩ := effect_ok_of_not_writable s.part s.clock i s.dev hw
  obtain ⟨t, htick, hwrong, hdev⟩ := tick_deassert_of_effect s i d hp hsel herr hok hi he
  refine ⟨t, htick, hwrong, ?_⟩
  rw [hdev]
  rcases effect_cases _ _ i s.dev d he with rfl | ⟨rfl, hpd, hc, rfl⟩ | ⟨rfl, hpd, hc, rfl⟩ | ⟨_, _, hw', _⟩ |
    ⟨_, _, hw', _⟩ | ⟨_, hw', _⟩ | ⟨_, hw', _⟩ | ⟨rfl, hpd, hc, rfl⟩ | ⟨rfl, hc, rfl⟩
  · exact .inl rfl
  · refine .inr ⟨Device.not_wip_of_heeds hb hc, .inl ⟨rfl, hpd, ?_⟩⟩
    exact congrArg (fun sr => { s.dev with sel := none, sr := sr }) (srSetWel_one _)
  · refine .inr ⟨Device.not_wip_of_heeds hb hc, .inr (.inl ⟨rfl, hpd, ?_⟩)⟩
    exact congrArg (fun sr => { s.dev with sel := none, sr := sr }) (srSetWel_zero _)
  · exact absurd hw' (by simp [hw])
  · exact absurd hw' (by simp [hw])
  · exact absurd hw' (by simp [hw])
  · exact absurd hw' (by simp [hw])
  · exact .inr ⟨Device.not_wip_of_heeds hb hc, .inr (.inr (.inl ⟨rfl, hpd, rfl⟩))⟩
  · exact .inr ⟨Device.not_wip_of_heeds hb hc, .inr (.inr (.inr ⟨rfl, rfl⟩))⟩

end Sys2Proof.Machine
end

section
/-! A whole operation over any transport (R108): where a call never returns the operation stops there, and where all
return it runs the whole bracket, whatever the counts and the device (R113, R117, R118). -/

namespace Sys2Proof

/-! ## What a transfer asks for and leaves (R79) -/

/-- How many bytes the transfer asks the transport for (R79): none where there is no transfer. -/
def Instr.requested (i : Instr) : Nat :=
  match i.op.xfer i.n with
  | .none => 0
  | .read m => m
  | .write => i.n

/-- How many bytes the operation reads (R79). -/
def Instr.bytesIn (i : Instr) : Nat :=
  match i.op.xfer i.n with
  | .none => 0
  | .read m => m
  | .write => 0

end Sys2Proof

namespace Sys2Proof.Machine

/-! ## The bracket, step by step -/

theorem exec_of_accepted (i : Instr) (s : State) (h : acceptable i s = true) :
    exec i s = runBracket 4 (sAccept i s) := by
  simp [exec_eq_operate, operate, h]

theorem runBracket_of_next (fuel : Nat) (s t : State) (hp : s.codec.phase ≠ .idle) (h : tick (gap s) = .next t) :
    runBracket (fuel + 1) s = runBracket fuel t := by simp [runBracket, hp, h]

theorem runBracket_of_fault (fuel : Nat) (s : State) (f : Fault) (hp : s.codec.phase ≠ .idle)
    (h : tick (gap s) = .fault f) : runBracket (fuel + 1) s = .fault f := by simp [runBracket, hp, h]

theorem gap_nextSelect (s : State) : (gap s).nextSelect = s.nextSelect := by simp [State.nextSelect, gap_selects]

theorem gap_nextAnswer (s : State) : (gap s).nextAnswer = s.nextAnswer := by simp [State.nextAnswer, gap_answers]

/-- A select call that does not hang returns. -/
theorem SelectAnswer.eq_returns {a : SelectAnswer} (h : a ≠ .never) : a = .returns := by
  cases a with
  | returns => rfl
  | never => exact absurd rfl h

/-- S-ASSERT of an operation (R103). -/
theorem exec_asserted (i : Instr) (s : State) (ha : acceptable i s = true) (hsel : s.nextSelect = .returns) :
    exec i s = runBracket 3 (asserted (gap (sAccept i s))) := by
  rw [exec_of_accepted i s ha]
  refine runBracket_of_next 3 _ _ nofun ?_
  rw [tick_assert _ (by simp [gap_codec])]
  exact onSelect_of_returns asserted (gap (sAccept i s)) ((gap_nextSelect _).trans hsel)

/-- The state after S-FRAME of the operation `i`, whose frame's write took `k` bytes (R104). -/
def afterFrame (i : Instr) (k : Nat) (s : State) : State := framed k (gap (asserted (gap (sAccept i s))))

@[simp] theorem afterFrame_codec (i : Instr) (k : Nat) (s : State) :
    (afterFrame i k s).codec =
      { (sAccept i s).codec with
        cs := .low
        cntFrame := k
        phase := phaseAfterFrame (i.op.xfer i.n)
        err := if k < (frame i.op i.addr i.srIn).length then errTransportIncomplete else errNone } := by
  simp [afterFrame, gap_codec, xfer_latched]
@[simp] theorem afterFrame_part (i : Instr) (k : Nat) (s : State) : (afterFrame i k s).part = s.part := by
  simp [afterFrame, gap_part]
@[simp] theorem afterFrame_port (i : Instr) (k : Nat) (s : State) : (afterFrame i k s).port = s.port := by
  simp [afterFrame, gap_port]
@[simp] theorem afterFrame_inputs (i : Instr) (k : Nat) (s : State) : (afterFrame i k s).inputs = s.inputs := by
  simp [afterFrame, gap_inputs]
@[simp] theorem afterFrame_answers (i : Instr) (k : Nat) (s : State) :
    (afterFrame i k s).answers = s.answers.tail := by simp [afterFrame, gap_answers]
@[simp] theorem afterFrame_selects (i : Instr) (k : Nat) (s : State) :
    (afterFrame i k s).selects = s.selects.tail := by simp [afterFrame, gap_selects]
@[simp] theorem afterFrame_trace (i : Instr) (k : Nat) (s : State) :
    (afterFrame i k s).trace = s.trace ++ [.sel .low, .wr (frame i.op i.addr i.srIn) k] := by
  simp [afterFrame, gap_trace, gap_codec]

theorem afterFrame_nextAnswer (i : Instr) (k : Nat) (s : State) :
    (afterFrame i k s).nextAnswer = s.answered.nextAnswer := by simp [State.nextAnswer]

/-- In front of S-FRAME the buffer holds the frame, and the transport's answer is still the first. -/
theorem asserted_frame (i : Instr) (s : State) :
    (gap (asserted (gap (sAccept i s)))).codec.phase = .frame ∧
      (gap (asserted (gap (sAccept i s)))).codec.fb = frame i.op i.addr i.srIn ∧
      (gap (asserted (gap (sAccept i s)))).nextAnswer = s.nextAnswer := by
  simp [gap_codec, State.nextAnswer, gap_answers]

/-- S-FRAME of an operation (R104). -/
theorem exec_framed (i : Instr) (s : State) (k : Nat) (ha : acceptable i s = true) (hsel : s.nextSelect = .returns)
    (hk : s.nextAnswer.count (frame i.op i.addr i.srIn).length = some k) :
    exec i s = runBracket 2 (afterFrame i k s) := by
  obtain ⟨hp, hfb, hnext⟩ := asserted_frame i s
  rw [exec_asserted i s ha hsel]
  refine runBracket_of_next 2 _ _ nofun ?_
  rw [tick_frame _ hp]
  exact sFrame_of_count _ k (by rw [hnext, hfb, hk])

/-! ## S-XFER, whichever kind -/

/-- The transfer's event, if there is a transfer: `k` bytes moved, `data` read (R105, R106). -/
def transferEvents (i : Instr) (k : Nat) (data : List Byte) : List Event :=
  match i.op.xfer i.n with
  | .none => []
  | .read m => [.rd m k data]
  | .write => [.wr i.payload k]

/-- The answer to the transfer's call is `k` bytes; where there is no transfer the count stays 0. -/
def TransferReturns (i : Instr) (s : State) (k : Nat) : Prop :=
  if i.op.xfer i.n = .none then k = 0 else s.answered.nextAnswer.count i.requested = some k

/-- The state `u` in front of S-DEASSERT, from the state `v` after S-FRAME: the transfer, if there is one, moved `k`
bytes and read `data`. -/
structure Transferred (i : Instr) (k : Nat) (data : List Byte) (v u : State) : Prop where
  codec : u.codec =
    { v.codec with
      resp := data
      cntXfer := k
      phase := .deassert
      err := if k < i.requested then errTransportIncomplete else v.codec.err }
  trace : u.trace = v.trace ++ transferEvents i k data
  part : u.part = v.part
  port : u.port = v.port
  inputs : u.inputs = v.inputs
  selects : u.selects = v.selects
  length : data.length = i.bytesIn

/-- With no transfer, a read or a write, the bracket comes in front of S-DEASSERT with a step left. -/
theorem runBracket_transferred (i : Instr) (s : State) (k1 k2 : Nat) (hwf : i.wellFormed = true)
    (hk : TransferReturns i s k2) :
    ∃ fuel u data, runBracket 2 (afterFrame i k1 s) = runBracket (fuel + 1) u ∧
      Transferred i k2 data (afterFrame i k1 s) u := by
  have hnext := afterFrame_nextAnswer i k1 s
  have hphase : i.op.xfer i.n ≠ .none → (gap (afterFrame i k1 s)).codec.phase = .xfer := fun hx => by
    simp [gap_codec, phaseAfterFrame_eq_ite, hx]
  have hkind : (gap (afterFrame i k1 s)).codec.op.xfer (gap (afterFrame i k1 s)).codec.n = i.op.xfer i.n := by
    simp [gap_codec, xfer_latched]
  cases hx : i.op.xfer i.n with
  | none =>
    obtain rfl : k2 = 0 := by simpa [TransferReturns, hx] using hk
    refine ⟨1, _, [], rfl, ?_⟩
    constructor <;> simp [hx, phaseAfterFrame, Instr.requested, transferEvents, Instr.bytesIn]
  | read m =>
    have hm : s.answered.nextAnswer.count m = some k2 := by simpa [TransferReturns, Instr.requested, hx] using hk
    refine ⟨0, readIn m k2 (gap (afterFrame i k1 s)), dataIn m k2 (gap (afterFrame i k1 s)),
      runBracket_of_next 1 _ _ (by simp [hx, phaseAfterFrame]) ?_, ?_⟩
    · rw [tick_xfer_read _ m (hphase (by simp [hx])) (hkind.trans hx), sXferRead_of_count]
      rw [gap_nextAnswer, hnext, hm]
    · constructor <;>
        simp [gap_codec, gap_trace, gap_part, gap_port, gap_inputs, gap_selects, hx, Instr.requested,
          transferEvents, Instr.bytesIn]
  | write =>
    obtain ⟨hpayload, hn⟩ := payload_latched i s.port hx
    have hm : s.answered.nextAnswer.count i.n = some k2 := by simpa [TransferReturns, Instr.requested, hx] using hk
    refine ⟨0, writtenOut k2 (gap (afterFrame i k1 s)), [],
      runBracket_of_next 1 _ _ (by simp [hx, phaseAfterFrame]) ?_, ?_⟩
    · rw [tick_xfer_write _ (hphase (by simp [hx])) (hkind.trans hx), sXferWrite_of_count]
      simp [gap_nextAnswer, hnext, gap_codec, hpayload, payload_length_eq i hwf hx, hm]
    · constructor <;>
        simp [gap_codec, gap_trace, gap_part, gap_port, gap_inputs, gap_selects, hx, hpayload, hn, Instr.requested,
          transferEvents, Instr.bytesIn]

/-! ## The end of the operation, over any transport (R107, R108) -/

/-- The transport's answers to the calls that the operation `i` makes: both select calls return, the frame's write takes
`k1` bytes, and the transfer moves `k2` (R7, R101). -/
structure Returned (i : Instr) (s : State) (k1 k2 : Nat) : Prop where
  selectLow : s.nextSelect = .returns
  selectHigh : s.selects.tail.headD .returns = .returns
  framed : s.nextAnswer.count (frame i.op i.addr i.srIn).length = some k1
  transferred : TransferReturns i s k2

/-- The machine at `done = 1` after the operation `i`, for any counts and any device: every register of the codec, the
events, and what no operation touches (R100, R108, R113). -/
structure Ended (i : Instr) (s : State) (k1 k2 : Nat) (data : List Byte) (t : State) : Prop where
  codec : t.codec =
    { phase := .idle
      cs := .high
      op := i.op
      addr := (i.latched s.port).addr
      srIn := (i.latched s.port).srIn
      n := (i.latched s.port).n
      payload := (i.latched s.port).payload
      fb := frame i.op i.addr i.srIn
      resp := data
      cntFrame := k1
      cntXfer := k2
      err := if k1 < (frame i.op i.addr i.srIn).length ∨ k2 < i.requested then 0x01 else 0x00
      done := true
      result := decodeResult i.op data }
  trace : t.trace =
    s.trace ++ [.sel .low, .wr (frame i.op i.addr i.srIn) k1] ++ transferEvents i k2 data ++ [.sel .high]
  part : t.part = s.part
  port : t.port = s.port
  inputs : t.inputs = s.inputs
  selects : t.selects = s.selects.drop 2
  length : data.length = i.bytesIn

/-- S-DEASSERT ends the operation that was framed and transferred. -/
theorem Transferred.ended {i : Instr} {s u : State} {k1 k2 : Nat} {data : List Byte}
    (h : Transferred i k2 data (afterFrame i k1 s) u) : Ended i s k1 k2 data (deasserted (gap u)) where
  codec := by
    have herr : u.codec.err = if k1 < (frame i.op i.addr i.srIn).length ∨ k2 < i.requested then 0x01 else 0x00 := by
      rw [h.codec, afterFrame_codec]
      by_cases h2 : k2 < i.requested <;> simp [h2, errTransportIncomplete, errNone]
    rw [deasserted_codec, gap_codec, ← herr, h.codec]
    simp
  trace := by simp [gap_trace, h.trace]
  part := by simp [gap_part, h.part]
  port := by simp [gap_port, h.port]
  inputs := by simp [gap_inputs, h.inputs]
  selects := by simp [gap_selects, h.selects, tail_tail]
  length := h.length

/-- An operation all of whose calls return runs to its end (R108). -/
theorem exec_ended (i : Instr) (s : State) (k1 k2 : Nat) (ha : acceptable i s = true) (hr : Returned i s k1 k2) :
    ∃ t data, exec i s = .next t ∧ Ended i s k1 k2 data t := by
  obtain ⟨fuel, u, data, hrun, hu⟩ := runBracket_transferred i s k1 k2 ((acceptable_iff i s).1 ha).2 hr.transferred
  have hphase : u.codec.phase = .deassert := by rw [hu.codec]
  have hnext : (gap u).nextSelect = .returns := by
    rw [gap_nextSelect, State.nextSelect, hu.selects, afterFrame_selects, hr.selectHigh]
  have htick : tick (gap u) = .next (deasserted (gap u)) := by
    rw [tick_deassert _ (by rw [gap_codec, hphase]), onSelect_of_returns deasserted _ hnext]
  refine ⟨_, data, ?_, hu.ended⟩
  rw [exec_framed i s k1 ha hr.selectLow hr.framed, hrun, runBracket_of_next fuel u _ (by simp [hphase]) htick,
    runBracket_idle fuel _ (deasserted_codec_phase _)]

/-! ## Calls that never return (R118, U15) -/

/-- In a phase that makes a write or read call, a call that never returns stops the machine. -/
theorem tick_of_never (s : State)
    (hp : s.codec.phase = .frame ∨ (s.codec.phase = .xfer ∧ s.codec.op.xfer s.codec.n ≠ .none))
    (h : s.nextAnswer = .never) : tick s = .fault .transportHang := by
  rcases hp with hp | ⟨hp, hx⟩
  · rw [tick_frame s hp, sFrame_of_never s h]
  · cases hk : s.codec.op.xfer s.codec.n with
    | none => exact absurd hk hx
    | read m => rw [tick_xfer_read s m hp hk, sXferRead_of_never s m h]
    | write => rw [tick_xfer_write s hp hk, sXferWrite_of_never s h]

/-- In a phase that makes a select call, a call that never returns stops the machine. -/
theorem tick_of_select_never (s : State) (hp : s.codec.phase = .assert ∨ s.codec.phase = .deassert)
    (h : s.nextSelect = .never) : tick s = .fault .transportHang := by
  rcases hp with hp | hp
  · rw [tick_assert s hp, onSelect_of_never asserted s h]
  · rw [tick_deassert s hp, onSelect_of_never deasserted s h]

/-- One of the calls that the operation makes never returns. -/
def Hangs (i : Instr) (s : State) : Prop :=
  SelectAnswer.never ∈ s.selects.take 2 ∨ s.nextAnswer = .never ∨
    (i.op.xfer i.n ≠ .none ∧ s.answered.nextAnswer = .never)

/-- The two select calls of an operation. -/
theorem never_mem_take_two (s : State) :
    SelectAnswer.never ∈ s.selects.take 2 ↔ s.nextSelect = .never ∨ s.selects.tail.headD .returns = .never := by
  unfold State.nextSelect
  rcases s.selects with _ | ⟨a, _ | ⟨b, l⟩⟩ <;> simp [eq_comm]

theorem exists_transferReturns (i : Instr) (s : State)
    (h : i.op.xfer i.n ≠ .none → s.answered.nextAnswer ≠ .never) :
    ∃ k, TransferReturns i s k := by
  unfold TransferReturns
  split
  · exact ⟨0, rfl⟩
  · next hx => exact Answer.count_isSome _ _ (h hx)

/-- Either one of an operation's calls never returns, or all return. -/
theorem hangs_or_returned (i : Instr) (s : State) : Hangs i s ∨ ∃ k1 k2, Returned i s k1 k2 := by
  by_cases h : Hangs i s
  · exact .inl h
  · simp only [Hangs, never_mem_take_two, not_or, not_and] at h
    obtain ⟨⟨hlow, hhigh⟩, hframe, hxfer⟩ := h
    obtain ⟨k1, hk1⟩ := Answer.count_isSome _ (frame i.op i.addr i.srIn).length hframe
    obtain ⟨k2, hk2⟩ := exists_transferReturns i s hxfer
    exact .inr ⟨k1, k2, SelectAnswer.eq_returns hlow, SelectAnswer.eq_returns hhigh, hk1, hk2⟩

theorem exec_hangs_selectLow (i : Instr) (s : State) (ha : acceptable i s = true) (h : s.nextSelect = .never) :
    exec i s = .fault .transportHang := by
  rw [exec_of_accepted i s ha]
  refine runBracket_of_fault 3 _ _ nofun (tick_of_select_never _ (.inl ?_) ((gap_nextSelect _).trans h))
  rw [gap_codec, sAccept_codec_phase]

theorem exec_hangs_frame (i : Instr) (s : State) (ha : acceptable i s = true) (hlow : s.nextSelect = .returns)
    (h : s.nextAnswer = .never) : exec i s = .fault .transportHang := by
  obtain ⟨hp, _, hnext⟩ := asserted_frame i s
  rw [exec_asserted i s ha hlow]
  exact runBracket_of_fault 2 _ _ nofun (tick_of_never _ (.inl hp) (hnext.trans h))

theorem exec_hangs_transfer (i : Instr) (s : State) (k1 : Nat) (ha : acceptable i s = true)
    (hlow : s.nextSelect = .returns) (hk1 : s.nextAnswer.count (frame i.op i.addr i.srIn).length = some k1)
    (hx : i.op.xfer i.n ≠ .none) (h : s.answered.nextAnswer = .never) : exec i s = .fault .transportHang := by
  have hphase : (afterFrame i k1 s).codec.phase = .xfer := by simp [phaseAfterFrame_eq_ite, hx]
  rw [exec_framed i s k1 ha hlow hk1]
  refine runBracket_of_fault 1 _ _ (by rw [hphase]; nofun) (tick_of_never _ (.inr ⟨?_, ?_⟩) ?_)
  · rw [gap_codec, hphase]
  · simpa [gap_codec, xfer_latched] using hx
  · rw [gap_nextAnswer, afterFrame_nextAnswer, h]

theorem exec_hangs_selectHigh (i : Instr) (s : State) (k1 k2 : Nat) (ha : acceptable i s = true)
    (hlow : s.nextSelect = .returns) (hk1 : s.nextAnswer.count (frame i.op i.addr i.srIn).length = some k1)
    (hk2 : TransferReturns i s k2) (h : s.selects.tail.headD .returns = .never) : exec i s = .fault .transportHang := by
  obtain ⟨fuel, u, data, hrun, hu⟩ := runBracket_transferred i s k1 k2 ((acceptable_iff i s).1 ha).2 hk2
  have hphase : u.codec.phase = .deassert := by rw [hu.codec]
  rw [exec_framed i s k1 ha hlow hk1, hrun]
  refine runBracket_of_fault fuel u _ (by simp [hphase]) (tick_of_select_never _ (.inr (by rw [gap_codec, hphase])) ?_)
  rw [gap_nextSelect, State.nextSelect, hu.selects, afterFrame_selects, h]

/-- An operation one of whose calls never returns stops there: at the first of them, the others having returned. -/
theorem exec_of_hangs (i : Instr) (s : State) (ha : acceptable i s = true) (h : Hangs i s) :
    exec i s = .fault .transportHang := by
  by_cases hlow : s.nextSelect = .never
  · exact exec_hangs_selectLow i s ha hlow
  by_cases hframe : s.nextAnswer = .never
  · exact exec_hangs_frame i s ha (SelectAnswer.eq_returns hlow) hframe
  obtain ⟨k1, hk1⟩ := Answer.count_isSome _ (frame i.op i.addr i.srIn).length hframe
  by_cases hxfer : i.op.xfer i.n ≠ .none ∧ s.answered.nextAnswer = .never
  · exact exec_hangs_transfer i s k1 ha (SelectAnswer.eq_returns hlow) hk1 hxfer.1 hxfer.2
  obtain ⟨k2, hk2⟩ := exists_transferReturns i s fun hx hn => hxfer ⟨hx, hn⟩
  refine exec_hangs_selectHigh i s k1 k2 ha (SelectAnswer.eq_returns hlow) hk1 hk2 ?_
  rcases h with h | h | h
  · exact ((never_mem_take_two s).1 h).resolve_left hlow
  · exact absurd h hframe
  · exact absurd h hxfer

/-- An accepted operation that ends had all its calls returned. -/
theorem exec_next_ended (i : Instr) (s t : State) (ha : acceptable i s = true) (h : exec i s = .next t) :
    ∃ k1 k2 data, Returned i s k1 k2 ∧ Ended i s k1 k2 data t := by
  rcases hangs_or_returned i s with hh | ⟨k1, k2, hr⟩
  · rw [exec_of_hangs i s ha hh] at h
    cases h
  · obtain ⟨u, data, hu, hend⟩ := exec_ended i s k1 k2 ha hr
    cases hu.symm.trans h
    exact ⟨k1, k2, data, hr, hend⟩

/-! ## Every operation runs the whole bracket (R108) -/

/-- Over a perfect transport every count is the request, so `err` is 0x00 (R9, R113). -/
theorem Returned.counts_of_perfect {i : Instr} {s : State} {k1 k2 : Nat} (h : Returned i s k1 k2)
    (hs : s.PerfectTransport) : k1 = (frame i.op i.addr i.srIn).length ∧ ¬k2 < i.requested := by
  have hfirst := h.framed
  have hsecond := h.transferred
  rw [hs.nextAnswer] at hfirst
  rw [TransferReturns, (hs.suffix (t := s.answered) (List.tail_suffix _) (List.suffix_refl _)).nextAnswer] at hsecond
  refine ⟨(Option.some.inj hfirst).symm, ?_⟩
  split at hsecond
  · next hx => simp [Instr.requested, hx]
  · exact (Option.some.inj hsecond).not_gt

/-- Settles O21: an operation all of whose calls return is `Ended`, and what that says for each kind of transfer. -/
theorem operationRunsItsWholeBracket : Obligations.OperationRunsItsWholeBracket := by
  intro i s k1 k2 hwf hp hsel hk1 hk2
  rw [never_mem_take_two, not_or] at hsel
  have hr : Returned i s k1 k2 := by
    refine ⟨SelectAnswer.eq_returns hsel.1, SelectAnswer.eq_returns hsel.2, hk1, ?_⟩
    cases hx : i.op.xfer i.n <;> simpa [TransferReturns, Instr.requested, hx] using hk2
  obtain ⟨t, data, hexec, hend⟩ := exec_ended i s k1 k2 ((acceptable_iff i s).2 ⟨hp, hwf⟩) hr
  have hperfect : s.PerfectTransport → t.codec.err = 0x00 := fun hs => by
    obtain ⟨rfl, hk2⟩ := hr.counts_of_perfect hs
    rw [hend.codec]
    simp [hk2]
  refine ⟨t, data, hexec, Answer.count_le _ _ _ hk1, ?_, ?_⟩
  · have hlength := hend.length
    have htrace := hend.trace
    have herr := congrArg Codec.err hend.codec
    cases hx : i.op.xfer i.n with
    | none =>
      simp only [Instr.bytesIn, Instr.requested, transferEvents, hx] at hlength herr htrace
      exact ⟨List.eq_nil_of_length_eq_zero hlength, by simpa using htrace, by simpa using herr⟩
    | read m =>
      simp only [Instr.bytesIn, Instr.requested, transferEvents, hx] at hk2 hlength herr htrace
      exact ⟨Answer.count_le _ _ _ hk2, hlength, by simpa using htrace, herr⟩
    | write =>
      simp only [Instr.bytesIn, Instr.requested, transferEvents, hx] at hk2 hlength herr htrace
      exact ⟨Answer.count_le _ _ _ hk2, List.eq_nil_of_length_eq_zero hlength, by simpa using htrace, herr⟩
  · rw [hend.codec] at hperfect ⊢
    exact ⟨rfl, rfl, rfl, rfl, rfl, rfl, rfl, rfl, rfl, rfl, rfl, rfl, rfl, hend.part, hend.port, hend.inputs,
      hend.selects, hperfect⟩

/-! ## What the codec sees of the device (R117, R193) -/

/-- The transport's answers are all that decides which calls return, and with which counts. -/
theorem Returned.congr {i : Instr} {s s' : State} {k1 k2 : Nat} (h : Returned i s k1 k2) (ha : s'.answers = s.answers)
    (hs : s'.selects = s.selects) : Returned i s' k1 k2 where
  selectLow := by simpa [State.nextSelect, hs] using h.selectLow
  selectHigh := hs ▸ h.selectHigh
  framed := by simpa [State.nextAnswer, ha] using h.framed
  transferred := by simpa [TransferReturns, State.nextAnswer, ha] using h.transferred

/-- The events of a transfer differ in the bytes read only. -/
theorem transferEvents_withoutData (i : Instr) (k : Nat) (data data' : List Byte) :
    (transferEvents i k data).map Event.withoutData = (transferEvents i k data').map Event.withoutData := by
  unfold transferEvents
  split <;> rfl

theorem Ended.data_eq_nil {i : Instr} {s t : State} {k1 k2 : Nat} {data : List Byte} (h : Ended i s k1 k2 data t)
    (hx : ∀ m, i.op.xfer i.n ≠ .read m) : data = [] := by
  refine List.eq_nil_of_length_eq_zero (h.length.trans ?_)
  unfold Instr.bytesIn
  split
  · rfl
  · next m hm => exact absurd hm (hx m)
  · rfl

/-- Settles O23: both machines end with the codec and the events that the operation, the port and the transport's
answers fix; only the bytes read are the device's. -/
theorem codecCannotSeeTheDevice : Obligations.CodecCannotSeeTheDevice := by
  intro i s s' t hcodec hport hanswers hselects htrace hexec
  have hacc : acceptable i s' = acceptable i s := by simp [acceptable, hcodec]
  cases ha : acceptable i s with
  | false =>
    cases (exec_of_refused i s ha).symm.trans hexec
    exact ⟨s', exec_of_refused i s' (hacc.trans ha), by rw [hcodec], by rw [hcodec], by rw [htrace],
      fun _ => ⟨hcodec, htrace⟩⟩
  | true =>
    obtain ⟨k1, k2, data, hr, hend⟩ := exec_next_ended i s t ha hexec
    obtain ⟨t', data', hexec', hend'⟩ := exec_ended i s' k1 k2 (hacc.trans ha) (hr.congr hanswers hselects)
    refine ⟨t', hexec', ?_, ?_, ?_, fun hx => ?_⟩
    · rw [hend'.codec, hend.codec, hport]
    · rw [hend'.codec, hend.codec]
      exact hend'.length.trans hend.length.symm
    · simp only [hend'.trace, hend.trace, htrace, List.map_append, transferEvents_withoutData i k2 data' data]
    · rw [hend'.codec, hend.codec, hend'.trace, hend.trace, hport, htrace, hend'.data_eq_nil hx, hend.data_eq_nil hx]
      exact ⟨rfl, rfl⟩

end Sys2Proof.Machine
end

section
/-! What stops the machine (R118, R206): no step refuses, and a step that faults made a call that never returned. -/

namespace Sys2Proof.Machine

/-! ## The calls that a bracket has still to make -/

/-- At most so many write and read calls, from a phase to the end of the operation. -/
def Phase.calls : Phase → Nat
  | .idle => 0
  | .assert => 2
  | .frame => 2
  | .xfer => 1
  | .deassert => 0

/-- So many select calls. -/
def Phase.selectCalls : Phase → Nat
  | .idle => 0
  | .assert => 2
  | .frame => 1
  | .xfer => 1
  | .deassert => 1

/-- One of the calls still to be made in this operation may never return. -/
def HangAhead (s : State) : Prop :=
  Answer.never ∈ s.answers.take (Phase.calls s.codec.phase) ∨
    SelectAnswer.never ∈ s.selects.take (Phase.selectCalls s.codec.phase)

/-- In any phase at most two calls of each kind are to be made. -/
theorem HangAhead.take_two {s : State} (h : HangAhead s) :
    Answer.never ∈ s.answers.take 2 ∨ SelectAnswer.never ∈ s.selects.take 2 := by
  have hcalls : Phase.calls s.codec.phase ≤ 2 := by cases s.codec.phase <;> decide
  have hselects : Phase.selectCalls s.codec.phase ≤ 2 := by cases s.codec.phase <;> decide
  exact h.imp (fun h => List.take_subset_take_left _ hcalls h) fun h => List.take_subset_take_left _ hselects h

theorem never_mem_of_nextAnswer {s : State} (h : s.nextAnswer = .never) (n : Nat) :
    Answer.never ∈ s.answers.take (n + 1) := by
  unfold State.nextAnswer at h
  cases hl : s.answers with
  | nil => simp [hl] at h
  | cons a l =>
    obtain rfl : a = .never := by simpa [hl] using h
    simp

theorem never_mem_of_nextSelect {s : State} (h : s.nextSelect = .never) (n : Nat) :
    SelectAnswer.never ∈ s.selects.take (n + 1) := by
  unfold State.nextSelect at h
  cases hl : s.selects with
  | nil => simp [hl] at h
  | cons a l =>
    obtain rfl : a = .never := by simpa [hl] using h
    simp

/-- What is among the first `n` once one answer is used was among the first `n + 1`. -/
theorem mem_take_succ_of_tail {α : Type} {a : α} {l : List α} {n : Nat} (h : a ∈ l.tail.take n) :
    a ∈ l.take (n + 1) := by
  cases l with
  | nil => simp at h
  | cons b l => exact List.mem_cons_of_mem b h

/-! ## Going on, unless a call hangs -/

/-- The outcome is a next state, or `hang` holds and it is the fault: never a refusal. -/
def GoesOnUnless (hang : Prop) (r : Result) : Prop := (∃ t, r = .next t) ∨ (hang ∧ r = .fault .transportHang)

theorem GoesOnUnless.imp {a b : Prop} {r : Result} (h : GoesOnUnless a r) (hab : a → b) : GoesOnUnless b r :=
  Or.imp_right (And.imp_left hab) h

theorem GoesOnUnless.not_refused {a : Prop} {r : Result} (h : GoesOnUnless a r) (e : Refusal) : r ≠ .refused e := by
  rcases h with ⟨t, rfl⟩ | ⟨_, rfl⟩ <;> nofun

theorem GoesOnUnless.of_fault {a : Prop} {r : Result} (h : GoesOnUnless a r) {f : Fault} (hf : r = .fault f) : a := by
  rcases h with ⟨t, rfl⟩ | ⟨ha, _⟩
  · cases hf
  · exact ha

theorem onSelect_goesOn (taken : State → State) (s : State) :
    GoesOnUnless (s.nextSelect = .never) (onSelect taken s) := by
  by_cases h : s.nextSelect = .never
  · exact .inr ⟨h, onSelect_of_never taken s h⟩
  · exact .inl ⟨_, onSelect_of_returns taken s (SelectAnswer.eq_returns h)⟩

/-- A step that makes one write or read call, of `req` bytes, goes on unless that call never returns. -/
theorem goesOn_of_call (s : State) (req : Nat) (r : Result) (taken : Nat → State)
    (hnever : s.nextAnswer = .never → r = .fault .transportHang)
    (hnext : ∀ k, s.nextAnswer.count req = some k → r = .next (taken k)) : GoesOnUnless (s.nextAnswer = .never) r := by
  by_cases h : s.nextAnswer = .never
  · exact .inr ⟨h, hnever h⟩
  · obtain ⟨k, hk⟩ := Answer.count_isSome _ req h
    exact .inl ⟨_, hnext k hk⟩

theorem sFrame_goesOn (s : State) : GoesOnUnless (s.nextAnswer = .never) (sFrame s) :=
  goesOn_of_call s _ _ _ (sFrame_of_never s) (sFrame_of_count s)

theorem sXferRead_goesOn (m : Nat) (s : State) : GoesOnUnless (s.nextAnswer = .never) (sXferRead m s) :=
  goesOn_of_call s _ _ _ (sXferRead_of_never s m) (sXferRead_of_count s m)

theorem sXferWrite_goesOn (s : State) : GoesOnUnless (s.nextAnswer = .never) (sXferWrite s) :=
  goesOn_of_call s _ _ _ (sXferWrite_of_never s) (sXferWrite_of_count s)

theorem sXfer_goesOn (s : State) : GoesOnUnless (s.nextAnswer = .never) (sXfer s) := by
  unfold sXfer
  cases s.codec.op.xfer s.codec.n with
  | none => exact .inl ⟨s, rfl⟩
  | read m => exact sXferRead_goesOn m s
  | write => exact sXferWrite_goesOn s

/-- Each phase goes on, unless its own call never returns (R118). -/
theorem tick_goesOn (s : State) : GoesOnUnless (HangAhead s) (tick s) := by
  unfold tick HangAhead
  cases s.codec.phase with
  | idle => exact .inl ⟨s, rfl⟩
  | assert => exact (onSelect_goesOn asserted s).imp fun h => .inr (never_mem_of_nextSelect h 1)
  | frame => exact (sFrame_goesOn s).imp fun h => .inl (never_mem_of_nextAnswer h 1)
  | xfer => exact (sXfer_goesOn s).imp fun h => .inl (never_mem_of_nextAnswer h 0)
  | deassert => exact (onSelect_goesOn deasserted s).imp fun h => .inr (never_mem_of_nextSelect h 0)

/-! ## A whole bracket, and a step -/

/-- What is ahead after a step was ahead before it: each step uses up the call it makes. -/
theorem tick_hangAhead (s t : State) (h : tick s = .next t) (ht : HangAhead t) : HangAhead s := by
  unfold HangAhead at *
  rcases tick_next_cases s t h with ⟨_, rfl⟩ | ⟨hp, _, rfl⟩ | ⟨hp, k, _, rfl⟩ | ⟨_, _, rfl⟩ | ⟨hp, m, k, _, _, rfl⟩ |
    ⟨hp, _, k, _, rfl⟩ | ⟨hp, _, rfl⟩
  · exact ht
  · exact hp ▸ ht.imp_right mem_take_succ_of_tail
  · have hcalls : Phase.calls (phaseAfterFrame (s.codec.op.xfer s.codec.n)) ≤ 1 := by
      cases s.codec.op.xfer s.codec.n <;> simp [phaseAfterFrame, Phase.calls]
    have hselects : Phase.selectCalls (phaseAfterFrame (s.codec.op.xfer s.codec.n)) = 1 := by
      cases s.codec.op.xfer s.codec.n <;> rfl
    rw [framed_codec, framed_answers, framed_selects, hselects] at ht
    exact hp ▸ ht.imp_left fun h => mem_take_succ_of_tail (List.take_subset_take_left _ hcalls h)
  · exact ht
  · rw [readIn_codec, readIn_selects] at ht
    exact hp ▸ .inr (ht.resolve_left (by simp [Phase.calls]))
  · rw [writtenOut_codec, writtenOut_selects] at ht
    exact hp ▸ .inr (ht.resolve_left (by simp [Phase.calls]))
  · simp [Phase.calls, Phase.selectCalls] at ht

theorem gap_hangAhead (s : State) : HangAhead (gap s) ↔ HangAhead s := by
  simp only [HangAhead, gap_codec, gap_answers, gap_selects]

theorem runBracket_goesOn (fuel : Nat) (s : State) : GoesOnUnless (HangAhead s) (runBracket fuel s) := by
  induction fuel generalizing s with
  | zero => exact .inl ⟨s, rfl⟩
  | succ fuel ih =>
    by_cases hp : s.codec.phase = .idle
    · exact .inl ⟨s, runBracket_idle _ s hp⟩
    · have hgap := (tick_goesOn (gap s)).imp (gap_hangAhead s).1
      rcases hgap with ⟨t, ht⟩ | ⟨hh, hf⟩
      · rw [runBracket_of_next fuel s t hp ht]
        exact (ih t).imp fun h => (gap_hangAhead s).1 (tick_hangAhead _ t ht h)
      · exact .inr ⟨hh, runBracket_of_fault fuel s _ hp hf⟩

/-- A call that may never return is among the next two of its kind. -/
def HangSoon (s : State) : Prop := Answer.never ∈ s.answers.take 2 ∨ SelectAnswer.never ∈ s.selects.take 2

theorem exec_goesOn (i : Instr) (s : State) : GoesOnUnless (HangSoon s) (exec i s) := by
  cases ha : acceptable i s with
  | true => exact exec_of_accepted i s ha ▸ runBracket_goesOn 4 (sAccept i s)
  | false => exact .inl ⟨s, exec_of_refused i s ha⟩

/-- Each input is taken by an operation, a sequencer step or a total function of the state. -/
theorem step_goesOn (s : State) : GoesOnUnless (HangSoon s) (step s) := by
  unfold step
  split
  · exact (tick_goesOn (gap s).ticked).imp fun h => ((gap_hangAhead s).1 h).take_two
  · exact (tick_goesOn _).imp HangAhead.take_two
  · next r rest _ =>
    unfold stepCall
    cases r.instr with
    | none => exact .inl ⟨_, rfl⟩
    | some i => exact exec_goesOn i _
  all_goals exact .inl ⟨_, rfl⟩

/-- Settles O12: what a step can answer at all, and where a call that never returns stops it. -/
theorem onlyAHangingTransportStops : Obligations.OnlyAHangingTransportStops := by
  refine ⟨fun s => ⟨(step_goesOn s).not_refused, fun f => (step_goesOn s).of_fault⟩, tick_of_never,
    tick_of_select_never, fun i s hwf hp h => ?_⟩
  exact exec_of_hangs i s ((acceptable_iff i s).2 ⟨hp, hwf⟩) h

end Sys2Proof.Machine
end

section
/-! A call and the small steps (R102, R108, R116; log 2, 5): a sequencer step and an operation do the same whatever
inputs are still to come, and so a call is a run of the inputs `present`, `complete` and `wait`. -/

namespace Sys2Proof.Machine

/-! ## The inputs that are still to come -/

/-- The state with other inputs to come. -/
def State.withInputs (l : List Input) (s : State) : State := { s with inputs := l }

@[simp] theorem State.withInputs_codec (l : List Input) (s : State) : (s.withInputs l).codec = s.codec := rfl
@[simp] theorem State.withInputs_dev (l : List Input) (s : State) : (s.withInputs l).dev = s.dev := rfl
@[simp] theorem State.withInputs_part (l : List Input) (s : State) : (s.withInputs l).part = s.part := rfl
@[simp] theorem State.withInputs_wrong (l : List Input) (s : State) : (s.withInputs l).wrong = s.wrong := rfl
@[simp] theorem State.withInputs_port (l : List Input) (s : State) : (s.withInputs l).port = s.port := rfl
@[simp] theorem State.withInputs_answers (l : List Input) (s : State) : (s.withInputs l).answers = s.answers := rfl
@[simp] theorem State.withInputs_selects (l : List Input) (s : State) : (s.withInputs l).selects = s.selects := rfl
@[simp] theorem State.withInputs_clock (l : List Input) (s : State) : (s.withInputs l).clock = s.clock := rfl
@[simp] theorem State.withInputs_due (l : List Input) (s : State) : (s.withInputs l).due = s.due := rfl
@[simp] theorem State.withInputs_trace (l : List Input) (s : State) : (s.withInputs l).trace = s.trace := rfl
@[simp] theorem State.withInputs_inputs (l : List Input) (s : State) : (s.withInputs l).inputs = l := rfl

/-- The outcome with its next state changed. -/
def onNext (f : State → State) (r : Result) : Result :=
  match r with
  | .next t => .next (f t)
  | .fault e => .fault e
  | .refused e => .refused e

@[simp] theorem onNext_next (f : State → State) (t : State) : onNext f (.next t) = .next (f t) := rfl
@[simp] theorem onNext_fault (f : State → State) (e : Fault) : onNext f (.fault e) = .fault e := rfl

theorem devComplete_withInputs (l : List Input) (s : State) :
    devComplete (s.withInputs l) = (devComplete s).withInputs l := by
  unfold devComplete
  simp only [apply_ite (State.withInputs l)]
  rfl

theorem gap_withInputs (l : List Input) (s : State) : gap (s.withInputs l) = (gap s).withInputs l := by
  unfold gap
  simp only [apply_ite (State.withInputs l), ← devComplete_withInputs]
  rfl

/-- Nor does the device at `SEL(HIGH)` see them, branch by branch. -/
theorem deviceActs_withInputs (l : List Input) (s : State) :
    deviceActs (s.withInputs l) = (deviceActs s).withInputs l := by
  unfold deviceActs
  simp only [apply_ite (State.withInputs l)]
  refine if_congr Iff.rfl rfl (if_congr Iff.rfl rfl ?_)
  simp only [State.withInputs_dev, State.withInputs_part, State.withInputs_clock]
  cases decode (s.dev.sel.getD []) 0 with
  | error e => rfl
  | ok i => cases he : effect s.part s.clock i s.dev <;> simp only [he] <;> rfl

theorem deasserted_withInputs (l : List Input) (s : State) :
    deasserted (s.withInputs l) = (deasserted s).withInputs l := by
  have h : deviceActs ((s.withInputs l).selected .high) = (deviceActs (s.selected .high)).withInputs l :=
    deviceActs_withInputs l (s.selected .high)
  simp only [deasserted, deviceDeselected, h]
  rfl

theorem framed_withInputs (l : List Input) (k : Nat) (s : State) :
    framed k (s.withInputs l) = (framed k s).withInputs l := by
  simp only [framed, checkCount, apply_ite (State.withInputs l)]
  rfl

theorem readIn_withInputs (l : List Input) (m k : Nat) (s : State) :
    readIn m k (s.withInputs l) = (readIn m k s).withInputs l := by
  simp only [readIn, checkCount, apply_ite (State.withInputs l)]
  rfl

theorem writtenOut_withInputs (l : List Input) (k : Nat) (s : State) :
    writtenOut k (s.withInputs l) = (writtenOut k s).withInputs l := by
  simp only [writtenOut, checkCount, apply_ite (State.withInputs l)]
  rfl

theorem withInputs_nextSelect (l : List Input) (s : State) : (s.withInputs l).nextSelect = s.nextSelect := rfl

theorem onSelect_withInputs (l : List Input) (taken : State → State)
    (h : ∀ s, taken (s.withInputs l) = (taken s).withInputs l) (s : State) :
    onSelect taken (s.withInputs l) = onNext (State.withInputs l) (onSelect taken s) := by
  simp only [onSelect, withInputs_nextSelect, h]
  cases s.nextSelect <;> rfl

theorem sFrame_withInputs (l : List Input) (s : State) :
    sFrame (s.withInputs l) = onNext (State.withInputs l) (sFrame s) := by
  by_cases h : s.nextAnswer = .never
  · rw [sFrame_of_never s h, sFrame_of_never (s.withInputs l) h, onNext_fault]
  · obtain ⟨k, hk⟩ := Answer.count_isSome _ s.codec.fb.length h
    rw [sFrame_of_count s k hk, sFrame_of_count (s.withInputs l) k hk, onNext_next, framed_withInputs]

theorem sXferRead_withInputs (l : List Input) (m : Nat) (s : State) :
    sXferRead m (s.withInputs l) = onNext (State.withInputs l) (sXferRead m s) := by
  by_cases h : s.nextAnswer = .never
  · rw [sXferRead_of_never s m h, sXferRead_of_never (s.withInputs l) m h, onNext_fault]
  · obtain ⟨k, hk⟩ := Answer.count_isSome _ m h
    rw [sXferRead_of_count s m k hk, sXferRead_of_count (s.withInputs l) m k hk, onNext_next, readIn_withInputs]

theorem sXferWrite_withInputs (l : List Input) (s : State) :
    sXferWrite (s.withInputs l) = onNext (State.withInputs l) (sXferWrite s) := by
  by_cases h : s.nextAnswer = .never
  · rw [sXferWrite_of_never s h, sXferWrite_of_never (s.withInputs l) h, onNext_fault]
  · obtain ⟨k, hk⟩ := Answer.count_isSome _ s.codec.payload.length h
    rw [sXferWrite_of_count s k hk, sXferWrite_of_count (s.withInputs l) k hk, onNext_next, writtenOut_withInputs]

/-- A sequencer step does not see the inputs. -/
theorem tick_withInputs (l : List Input) (s : State) :
    tick (s.withInputs l) = onNext (State.withInputs l) (tick s) := by
  simp only [tick, State.withInputs_codec]
  cases s.codec.phase with
  | idle => rfl
  | assert => exact onSelect_withInputs l asserted (fun _ => rfl) s
  | frame => exact sFrame_withInputs l s
  | xfer =>
    simp only [sXfer, State.withInputs_codec]
    cases s.codec.op.xfer s.codec.n with
    | none => rfl
    | read m => exact sXferRead_withInputs l m s
    | write => exact sXferWrite_withInputs l s
  | deassert => exact onSelect_withInputs l deasserted (deasserted_withInputs l) s

/-- Nor does a bracket. -/
theorem runBracket_withInputs (l : List Input) (fuel : Nat) (s : State) :
    runBracket fuel (s.withInputs l) = onNext (State.withInputs l) (runBracket fuel s) := by
  induction fuel generalizing s with
  | zero => rfl
  | succ fuel ih =>
    have htick : tick (gap (s.withInputs l)) = onNext (State.withInputs l) (tick (gap s)) := by
      rw [gap_withInputs, tick_withInputs]
    by_cases hp : s.codec.phase = .idle
    · rw [runBracket_idle _ s hp, runBracket_idle _ (s.withInputs l) hp, onNext_next]
    · rcases tick_goesOn (gap s) with ⟨t, ht⟩ | ⟨_, hf⟩
      · rw [runBracket_of_next fuel s t hp ht, ← ih]
        exact runBracket_of_next fuel (s.withInputs l) _ hp (htick.trans (congrArg _ ht))
      · rw [runBracket_of_fault fuel s _ hp hf]
        exact runBracket_of_fault fuel (s.withInputs l) _ hp (htick.trans (congrArg _ hf))

/-- Nor does an operation. -/
theorem exec_withInputs (l : List Input) (i : Instr) (s : State) :
    exec i (s.withInputs l) = onNext (State.withInputs l) (exec i s) := by
  cases ha : acceptable i s with
  | true =>
    rw [exec_of_accepted i s ha, exec_of_accepted i (s.withInputs l) ha]
    exact runBracket_withInputs l 4 (sAccept i s)
  | false => rw [exec_of_refused i s ha, exec_of_refused i (s.withInputs l) ha, onNext_next]

theorem tick_inputs (s t : State) (h : tick s = .next t) : t.inputs = s.inputs := by
  rcases tick_next_cases s t h with ⟨_, rfl⟩ | ⟨_, _, rfl⟩ | ⟨_, k, _, rfl⟩ | ⟨_, _, rfl⟩ | ⟨_, m, k, _, _, rfl⟩ |
    ⟨_, _, k, _, rfl⟩ | ⟨_, _, rfl⟩ <;> simp

theorem exec_inputs (i : Instr) (s t : State) (h : exec i s = .next t) : t.inputs = s.inputs :=
  exec_keeps (fun u => u.inputs = s.inputs) (fun _ _ hu _ => hu) (fun u hu => (gap_inputs u).trans hu)
    (fun u v hu huv => (tick_inputs u v huv).trans hu) i s t rfl h

/-! ## Runs -/

/-- A run whose first step answers a next state goes on from there, for any machine. -/
theorem coreRun_of_next (M : Host.Core) (n : Nat) (s t : M.State) (h : M.step s = .next t) :
    M.run (n + 1) s = M.run n t := by rw [Host.Core.run, h]

/-- A run whose first step faults is that fault. -/
theorem coreRun_of_fault (M : Host.Core) (n : Nat) (s : M.State) (f : M.Fault) (h : M.step s = .fault f) :
    M.run (n + 1) s = .fault f := by rw [Host.Core.run, h]

theorem run_of_next (n : Nat) (s t : State) (h : step s = .next t) :
    Host.Core.run Sys2Proof.core (n + 1) s = Host.Core.run Sys2Proof.core n t :=
  coreRun_of_next Sys2Proof.core n s t h

theorem run_of_fault (n : Nat) (s : State) (f : Fault) (h : step s = .fault f) :
    Host.Core.run Sys2Proof.core (n + 1) s = .fault f := coreRun_of_fault Sys2Proof.core n s f h

/-- The inputs of the small steps: a sequencer step, or a completion. -/
def SmallInputs (l : List Input) : Prop := ∀ x ∈ l, x = .wait ∨ x = .complete

theorem SmallInputs.append {l l' : List Input} (h : SmallInputs l) (h' : SmallInputs l') : SmallInputs (l ++ l') :=
  fun x hx => (List.mem_append.1 hx).elim (h x) (h' x)

/-- A gap is no step at all, or the input `complete` (R116). -/
theorem exists_run_gap (s : State) :
    ∃ before, SmallInputs before ∧ ∀ n l,
      Host.Core.run Sys2Proof.core (before.length + n) (s.withInputs (before ++ l)) =
        Host.Core.run Sys2Proof.core n ((gap s).withInputs l) := by
  rcases gap_cases s with h | ⟨hw, hp, h⟩
  · exact ⟨[], nofun, fun n l => by rw [h]; simp⟩
  · have hcomplete : devComplete s = gap s := by rw [h]; simp [devComplete, hw, hp]
    refine ⟨[.complete], by simp [SmallInputs], fun n l => ?_⟩
    rw [List.length_singleton, Nat.add_comm]
    refine run_of_next n _ _ ?_
    rw [← hcomplete, ← devComplete_withInputs]
    rfl

/-- The input `wait` is one sequencer step. -/
theorem step_wait (s : State) (l : List Input) :
    step (s.withInputs (.wait :: l)) = onNext (State.withInputs l) (tick s) := tick_withInputs l s

/-- A bracket is a run of small steps. -/
theorem exists_run_bracket (fuel : Nat) (s : State) :
    ∃ later, SmallInputs later ∧
      Host.Core.run Sys2Proof.core later.length (s.withInputs (later ++ s.inputs)) = runBracket fuel s := by
  induction fuel generalizing s with
  | zero => exact ⟨[], nofun, rfl⟩
  | succ fuel ih =>
    by_cases hp : s.codec.phase = .idle
    · exact ⟨[], nofun, (runBracket_idle _ s hp).symm⟩
    obtain ⟨before, hbefore, hgap⟩ := exists_run_gap s
    rcases tick_goesOn (gap s) with ⟨t, ht⟩ | ⟨_, hf⟩
    · obtain ⟨later, hlater, hrun⟩ := ih t
      refine ⟨before ++ .wait :: later, hbefore.append (by simpa [SmallInputs] using hlater), ?_⟩
      rw [List.append_assoc, List.length_append, hgap, runBracket_of_next fuel s t hp ht, ← hrun]
      refine run_of_next later.length _ _ ?_
      rw [List.cons_append, step_wait, ht, onNext_next, tick_inputs _ t ht, gap_inputs]
    · refine ⟨before ++ [.wait], hbefore.append (by simp [SmallInputs]), ?_⟩
      rw [List.append_assoc, List.length_append, hgap, runBracket_of_fault fuel s _ hp hf]
      refine run_of_fault 0 _ _ ?_
      rw [List.cons_append, step_wait, hf, onNext_fault]

/-- Settles O24: the bracket after S-ACCEPT as a run, where the request is accepted; otherwise neither form does
anything. -/
theorem callIsARunOfSmallSteps : Obligations.CallIsARunOfSmallSteps := by
  intro s r rest i hp hr
  have hcall : step { s with inputs := .call r :: rest } = exec i { s with inputs := rest, port := r.operands } :=
    (step_call _ r rest rfl).trans (stepCall_of_instr r i _ hr)
  have hpresent (l : List Input) : step { s with inputs := .present r :: l } =
      .next (presentRequest i { s with inputs := l, port := r.operands }) := by
    rw [step_present _ r l rfl, stepPresent_of_instr r i _ hr]
  rw [hcall]
  cases ha : acceptable i { s with inputs := rest, port := r.operands } with
  | false =>
    refine ⟨[], nofun, ?_⟩
    rw [exec_of_refused i _ ha]
    exact run_of_next 0 _ _ ((hpresent rest).trans (congrArg _ (presentRequest_of_refused i _ ha)))
  | true =>
    obtain ⟨later, hlater, hrun⟩ := exists_run_bracket 4 (sAccept i { s with inputs := rest, port := r.operands })
    refine ⟨later, hlater, ?_⟩
    rw [exec_of_accepted i _ ha, ← hrun]
    refine run_of_next later.length _ _ ((hpresent (later ++ rest)).trans ?_)
    exact congrArg _ (presentRequest_of_accepted i _ ha)

end Sys2Proof.Machine
end

section
/-! DEV-COMPLETE (R57, R116, D23): what it writes, that no infinite run leaves it enabled for ever, and that a caller
who polls the status sees it (R58). -/

namespace Sys2Proof.Machine

/-! ## What a completion writes (R116) -/

theorem Device.finish_sr_eq (d : Device) : d.finish.sr = d.sr &&& 0xFC := by
  rw [Device.finish_sr, show (0 : Byte) = 0#8 from rfl, srSetWel_zero, srSetWip_zero, BitVec.and_assoc]
  rfl

theorem Device.finish_eq (d : Device) : d.finish = { d with sr := d.sr &&& 0xFC } :=
  congrArg (fun sr => { d with sr := sr }) d.finish_sr_eq

theorem devComplete_of_wip (s : State) (hok : s.wrong = none) (hw : s.dev.wip = true) :
    devComplete s = { s with dev := { s.dev with sr := s.dev.sr &&& 0xFC } } := by
  simp [devComplete, hok, hw, Device.finish_eq]

theorem devComplete_of_not_wip (s : State) (hok : s.wrong = none) (hw : s.dev.wip = false) : devComplete s = s := by
  simp [devComplete, hok, hw]

theorem step_complete (s : State) (rest : List Input) (h : s.inputs = .complete :: rest) :
    step s = .next (devComplete { s with inputs := rest }) := by simp [step, h]

/-! ## Every step comes nearer to the completion -/

theorem devComplete_inputs (s : State) : (devComplete s).inputs = s.inputs := by
  rcases devComplete_cases s with ⟨_, h⟩ | ⟨_, _, h⟩ | ⟨_, _, h⟩ <;> rw [h]

/-- Each step with an input to come uses up one. -/
theorem step_inputs (s t : State) (h : step s = .next t) : t.inputs = s.inputs.tail := by
  rcases step_cases s t h with ⟨hin, h⟩ | ⟨rest, hin, h⟩ | ⟨r, rest, hin, ⟨i, _, h⟩ | rfl⟩ |
    ⟨r, rest, hin, ⟨i, _, _, rfl⟩ | rfl⟩ | ⟨rest, hin, rfl⟩ | ⟨rest, hin, rfl⟩ |
    ⟨b, rest, hin, rfl⟩ <;> rw [hin, List.tail]
  · rw [tick_inputs _ t h, State.ticked_inputs, gap_inputs, hin]
  · exact tick_inputs _ t h
  · exact exec_inputs i _ t h
  · exact sAccept_inputs i _
  · exact devComplete_inputs _
  · exact codecReset_inputs _

/-- No rule starts an internal operation on a device that is not enabled. -/
theorem effect_not_wip (p : Part) (c : Nat) (i : Instr) (d d' : Device) (he : effect p c i d = .ok d')
    (hwel : d.wel = false) (hwip : d.wip = false) : d'.wip = false := by
  have hnot : d.writable ≠ true := fun hw => by simp [(d.writable_iff.1 hw).2.2] at hwel
  rcases effect_cases p c i d d' he with rfl | ⟨_, _, _, rfl⟩ | ⟨_, _, _, rfl⟩ | ⟨_, _, hw, _⟩ | ⟨_, _, hw, _⟩ |
    ⟨_, hw, _⟩ | ⟨_, hw, _⟩ | ⟨_, _, _, rfl⟩ | ⟨_, _, rfl⟩
  case inr.inr.inr.inl | inr.inr.inr.inr.inl | inr.inr.inr.inr.inr.inl | inr.inr.inr.inr.inr.inr.inl =>
    exact absurd hw hnot
  all_goals simpa [Device.wip_eq] using hwip

theorem tick_not_wip (s t : State) (h : tick s = .next t) (hwel : s.dev.wel = false) (hwip : s.dev.wip = false)
    (hok : t.wrong = none) : t.dev.wip = false :=
  tick_keeps_dev (fun d => d.wip = false) (fun _ _ _ hd => hd) s t
    (fun _ _ i d _ hd he => effect_not_wip _ _ i s.dev d he hwel hd) (fun _ => hwip) h hok

/-- The device's act does not move the end of an internal operation in progress. -/
theorem deviceActs_due (s : State) (hw : s.dev.wip = true) : (deviceActs s).due = s.due := by
  rcases deviceActs_cases s with ⟨_, h⟩ | ⟨_, w, h⟩ | ⟨_, _, i, d, _, _, h⟩ <;> rw [h]
  · rfl
  · exact State.acted_due d s hw

/-- While an internal operation is in progress, no sequencer step moves its end. -/
theorem tick_due (s t : State) (h : tick s = .next t) (hw : s.dev.wip = true) : t.due = s.due := by
  rcases tick_next_cases s t h with ⟨_, rfl⟩ | ⟨_, _, rfl⟩ | ⟨_, k, _, rfl⟩ | ⟨_, _, rfl⟩ | ⟨_, m, k, _, _, rfl⟩ |
    ⟨_, _, k, _, rfl⟩ | ⟨_, _, rfl⟩
  case inr.inr.inr.inr.inr.inr => exact deviceActs_due (s.selected .high) hw
  all_goals simp

theorem deviceActs_clock_le (s : State) : s.clock ≤ (deviceActs s).clock := by
  rcases deviceActs_cases s with ⟨_, h⟩ | ⟨_, w, h⟩ | ⟨_, _, i, d, _, _, h⟩ <;> simp [h]

theorem tick_clock_le (s t : State) (h : tick s = .next t) : s.clock ≤ t.clock := by
  rcases tick_next_cases s t h with ⟨_, rfl⟩ | ⟨_, _, rfl⟩ | ⟨_, k, _, rfl⟩ | ⟨_, _, rfl⟩ | ⟨_, m, k, _, _, rfl⟩ |
    ⟨_, _, k, _, rfl⟩ | ⟨_, _, rfl⟩
  case inr.inr.inr.inr.inr.inr => exact deviceActs_clock_le (s.selected .high)
  all_goals simp

theorem tick_trace_length_le (s t : State) (h : tick s = .next t) : s.trace.length ≤ t.trace.length := by
  rcases tick_next_cases s t h with ⟨_, rfl⟩ | ⟨_, _, rfl⟩ | ⟨_, k, _, rfl⟩ | ⟨_, _, rfl⟩ | ⟨_, m, k, _, _, rfl⟩ |
    ⟨_, _, k, _, rfl⟩ | ⟨_, _, rfl⟩ <;> simp

theorem gap_of_not_due (s : State) (h : s.moment < s.due) : gap s = s := by simp [gap, Nat.not_le.2 h]

/-- A step without an input, after which DEV-COMPLETE is still enabled, came before the end of the internal operation,
and has brought the moment nearer to it. -/
theorem step_nearer (s t : State) (hin : s.inputs = []) (h : step s = .next t) (hs : CompletionEnabled s)
    (ht : CompletionEnabled t) : s.moment < s.due ∧ t.due = s.due ∧ s.moment < t.moment := by
  obtain ⟨hok, hwip⟩ := hs
  have htick : tick (gap s).ticked = .next t := by simpa [step, hin] using h
  by_cases hdue : s.due ≤ s.moment
  · rw [gap_of_due s hok hwip hdue] at htick
    have hended := tick_not_wip _ t htick s.dev.finish_wel s.dev.finish_wip ht.1
    exact absurd (ht.2.symm.trans hended) nofun
  · have hlt := Nat.lt_of_not_le hdue
    rw [gap_of_not_due s hlt] at htick
    have hclock := tick_clock_le _ t htick
    have htrace := tick_trace_length_le _ t htick
    refine ⟨hlt, tick_due s.ticked t htick hwip, ?_⟩
    simp only [State.moment, State.ticked_clock, State.ticked_trace] at *
    omega

/-- How far the completion is away: the inputs still to come, then the moments up to the end of the internal
operation. -/
def distance (s : State) : ℕ ×ₗ ℕ := toLex (s.inputs.length, s.due - s.moment)

theorem step_distance_lt (s t : State) (h : step s = .next t) (hs : CompletionEnabled s) (ht : CompletionEnabled t) :
    distance t < distance s := by
  have hin := step_inputs s t h
  rw [distance, distance, Prod.Lex.toLex_lt_toLex]
  cases hl : s.inputs with
  | nil =>
    obtain ⟨hlt, hdue, hmoment⟩ := step_nearer s t hl h hs ht
    exact .inr ⟨by simp [hin, hl], by simp only; omega⟩
  | cons x rest => exact .inl (by simp [hin, hl])

/-- No infinite run keeps DEV-COMPLETE enabled for ever (D23): the distance cannot fall for ever. -/
theorem weaklyFair_of_isRun (r : Nat → State) (hr : IsRun r) : WeaklyFair r := by
  have key : ∀ x : ℕ ×ₗ ℕ, ∀ n, distance (r n) = x → ∃ m, n ≤ m ∧ ¬CompletionEnabled (r m) := by
    intro x
    induction x using WellFoundedLT.induction with
    | ind x ih =>
      intro n hn
      by_cases hs : CompletionEnabled (r n)
      · by_cases ht : CompletionEnabled (r (n + 1))
        · obtain ⟨m, hm, hnot⟩ := ih _ (hn ▸ step_distance_lt _ _ (hr n) hs ht) (n + 1) rfl
          exact ⟨m, Nat.le_of_succ_le hm, hnot⟩
        · exact ⟨n + 1, Nat.le_succ n, ht⟩
      · exact ⟨n, Nat.le_refl n, hs⟩
  exact fun n => key _ n rfl

/-! ## Polling the status (R58) -/

/-- SR once the internal operation in progress, if there is one, is over. -/
def Device.settledSr (d : Device) : Byte := if d.wip then d.sr &&& 0xFC else d.sr

theorem Device.settledSr_of_not_wip {d : Device} (h : d.wip = false) : d.settledSr = d.sr := by
  simp [Device.settledSr, h]

/-- A completion is what the settled value waits for. -/
theorem Device.finish_settledSr {d : Device} (h : d.wip = true) : d.finish.settledSr = d.settledSr := by
  rw [Device.settledSr_of_not_wip d.finish_wip, Device.finish_sr_eq, Device.settledSr, if_pos h]

/-- A caller may poll: IDLE, a perfect transport, an unmarked run, an awake device. -/
structure Pollable (s : State) : Prop where
  idle : s.codec.phase = .idle
  transport : s.PerfectTransport
  ok : s.Ok
  awake : s.dev.pd = false

/-- While a poll that began in `s` runs: Read Status is being sent without an error over a perfect transport, and of the
device nothing has changed but, perhaps, by a completion. -/
structure PollFrom (s u : State) : Prop where
  sending : Sending .rdsr u
  transport : u.PerfectTransport
  err : u.codec.err = errNone
  ok : u.wrong = none
  awake : u.dev.pd = false
  sr : u.dev.settledSr = s.dev.settledSr
  due : u.due = s.due
  clock : s.clock ≤ u.clock

theorem sAccept_pollFrom (s : State) (hs : Pollable s) : PollFrom s (sAccept .rdsr s) where
  sending := sAccept_sending .rdsr s
  transport := hs.transport
  err := rfl
  ok := hs.ok
  awake := hs.awake
  sr := rfl
  due := rfl
  clock := Nat.le_refl _

theorem gap_pollFrom (s u : State) (hu : PollFrom s u) : PollFrom s (gap u) := by
  have hsending := gap_sending .rdsr u hu.sending
  rcases gap_cases u with h | ⟨_, hw, h⟩
  · exact h.symm ▸ hu
  · rw [h] at hsending ⊢
    exact { hu with sending := hsending, sr := (Device.finish_settledSr hw).trans hu.sr }

/-- Over a perfect transport a count that is returned is the request. -/
theorem State.PerfectTransport.count_eq {s : State} (h : s.PerfectTransport) {req k : Nat}
    (hk : s.nextAnswer.count req = some k) : k = req := by
  rw [h.nextAnswer] at hk
  exact (Option.some.inj hk).symm

/-- At the end of the selection the device has heard Read Status, and does nothing (R125). -/
theorem deviceActs_of_rdsr (s u : State) (hu : PollFrom s u) (hp : u.codec.phase = .deassert) :
    deviceActs (u.selected .high) = (u.selected .high).acted u.dev := by
  have hheard := hu.sending.sent hp hu.err
  simp [deviceActs, hu.ok, hu.err, hheard, decode_encode, Instr.asHeard, effect, effectRdsr]

/-- Where the effect changes nothing, nothing starts. -/
theorem State.acted_self_due (s : State) : (s.acted s.dev).due = s.due := by simp [State.acted]

theorem PollFrom.next {s u v : State} (hu : PollFrom s u) (hsending : Sending .rdsr v) (ha : v.answers <:+ u.answers)
    (hs : v.selects <:+ u.selects) (herr : v.codec.err = u.codec.err) (hw : v.wrong = u.wrong)
    (hsr : v.dev.sr = u.dev.sr) (hpd : v.dev.pd = u.dev.pd) (hdue : v.due = u.due) (hclock : u.clock ≤ v.clock) :
    PollFrom s v where
  sending := hsending
  transport := hu.transport.suffix ha hs
  err := herr.trans hu.err
  ok := hw.trans hu.ok
  awake := hpd.trans hu.awake
  sr := by
    have hsettled := hu.sr
    unfold Device.settledSr Device.wip at *
    rw [hsr, hsettled]
  due := hdue.trans hu.due
  clock := hu.clock.trans hclock

theorem deasserted_pollFrom (s u : State) (hu : PollFrom s u) (hp : u.codec.phase = .deassert)
    (hsending : Sending .rdsr (deasserted u)) : PollFrom s (deasserted u) := by
  have hact := deviceActs_of_rdsr s u hu hp
  have hdev : (deasserted u).dev = { u.dev with sel := none } := by rw [deasserted_dev, hact, State.acted_dev]
  refine hu.next hsending ?_ ?_ rfl ?_ (by rw [hdev]) (by rw [hdev]) ?_ ?_
  · rw [deasserted_answers]
  · rw [deasserted_selects]
    exact List.tail_suffix _
  · rw [deasserted_wrong, hact, State.acted_wrong, State.selected_wrong]
  · exact (congrArg State.due hact).trans (State.acted_self_due (u.selected .high))
  · exact deviceActs_clock_le (u.selected .high)

theorem tick_pollFrom (s u v : State) (hu : PollFrom s u) (h : tick u = .next v) : PollFrom s v := by
  have hsending := tick_sending .rdsr u v rfl hu.sending h
  rcases tick_next_cases u v h with ⟨_, rfl⟩ | ⟨_, _, rfl⟩ | ⟨_, k, hk, rfl⟩ | ⟨_, _, rfl⟩ | ⟨_, m, k, _, hk, rfl⟩ |
    ⟨_, hx, _⟩ | ⟨hp, _, rfl⟩
  · exact hu
  · exact hu.next hsending (List.suffix_refl _) (List.tail_suffix _) rfl rfl rfl rfl rfl (Nat.le_refl _)
  · obtain rfl := hu.transport.count_eq hk
    exact hu.next hsending (by simp [List.tail_suffix]) (by simp) (by simp) (by simp) (by simp) (by simp) (by simp)
      (by simp)
  · exact hu
  · obtain rfl := hu.transport.count_eq hk
    exact hu.next hsending (by simp [List.tail_suffix]) (by simp) (by simp) (by simp) (by simp) (by simp) (by simp)
      (by simp)
  · exact absurd (hu.sending.kind.symm.trans hx) nofun
  · exact deasserted_pollFrom s u hu hp hsending

theorem State.PerfectTransport.not_hangs {s : State} (h : s.PerfectTransport) (i : Instr) : ¬Hangs i s := by
  have hanswered := (h.suffix (t := s.answered) (List.tail_suffix _) (List.suffix_refl _)).nextAnswer
  rintro (hsel | hans | ⟨_, hans⟩)
  · exact absurd (h.2 _ (List.mem_of_mem_take hsel)) nofun
  · exact absurd (h.nextAnswer.symm.trans hans) nofun
  · exact absurd (hanswered.symm.trans hans) nofun

/-- One poll, whatever it reads: the caller may poll again, SR is no nearer to anything but its settled value, and the
moment has come nearer to the end of the internal operation. -/
theorem exec_poll (s : State) (hs : Pollable s) :
    ∃ t, exec .rdsr s = .next t ∧ Pollable t ∧ t.dev.settledSr = s.dev.settledSr ∧ t.due = s.due ∧
      s.moment < t.moment := by
  have ha : acceptable .rdsr s = true := (acceptable_iff _ s).2 ⟨hs.idle, rfl⟩
  obtain ⟨k1, k2, hr⟩ := (hangs_or_returned .rdsr s).resolve_left (hs.transport.not_hangs _)
  obtain ⟨t, data, hexec, hend⟩ := exec_ended .rdsr s k1 k2 ha hr
  have hpoll : PollFrom s t := runBracket_keeps (PollFrom s) (gap_pollFrom s) (tick_pollFrom s) 4 _ t
    (sAccept_pollFrom s hs) ((exec_of_accepted _ s ha).symm.trans hexec)
  refine ⟨t, hexec, ⟨by rw [hend.codec], hpoll.transport, hpoll.ok, hpoll.awake⟩, hpoll.sr, hpoll.due, ?_⟩
  have hclock := hpoll.clock
  simp only [State.moment, hend.trace, List.length_append, List.length_cons]
  omega

/-! ## A poll of a device that is not busy any more -/

theorem gap_gap (s : State) : gap (gap s) = gap s := by
  rcases gap_cases s with h | ⟨_, _, h⟩ <;> rw [h]
  · exact h
  · exact gap_of_not_wip _ s.dev.finish_wip

/-- S-ACCEPT decides nothing about the completion. -/
theorem sAccept_gap (i : Instr) (s : State) : sAccept i (gap s) = gap (sAccept i s) := by
  unfold gap devComplete
  simp only [apply_ite (sAccept i)]
  rfl

/-- A completion that is due before a call may as well come before it. -/
theorem exec_gap (i : Instr) (s : State) (ha : acceptable i s = true) : exec i (gap s) = exec i s := by
  have ha' : acceptable i (gap s) = true := by rwa [acceptable, gap_codec, ← acceptable]
  rw [exec_of_accepted i s ha, exec_of_accepted i (gap s) ha', sAccept_gap, runBracket, runBracket, gap_gap, gap_codec]
  rfl

theorem gap_settledSr (s : State) : (gap s).dev.settledSr = s.dev.settledSr := by
  rcases gap_cases s with h | ⟨_, hw, h⟩ <;> rw [h]
  exact Device.finish_settledSr hw

theorem Pollable.gap_ready {s : State} (hs : Pollable s) (hw : (gap s).dev.wip = false) :
    (gap s).Ready ∧ (gap s).dev.pd = false := by
  refine ⟨⟨?_, ?_, ?_, hw⟩, ?_⟩
  · rw [gap_codec, hs.idle]
  · exact hs.transport.suffix (by rw [gap_answers]) (by rw [gap_selects])
  · exact (gap_wrong s).trans hs.ok
  · rcases gap_cases s with h | ⟨_, _, h⟩ <;> rw [h] <;> exact hs.awake

/-- What a poll tells once the device is not busy: WIP = 0, and SR is what was to be waited for. -/
structure Settled (s t : State) : Prop where
  done : t.codec.done = true
  wip : srWip (t.codec.result.setWidth 8) = 0
  ok : t.wrong = none
  sr : t.dev.sr = s.dev.settledSr

theorem srWip_eq_zero {d : Device} (h : d.wip = false) : srWip d.sr = 0 := by
  rw [Device.wip_eq] at h
  have hfield : srWip d.sr = d.sr &&& 1#8 := by simp [srWip, srField]
  rw [hfield, BitVec.and_one_eq_setWidth_ofBool_getLsbD, h]
  rfl

theorem exec_poll_ready (s : State) (hs : s.Ready) (hpd : s.dev.pd = false) :
    ∃ t, exec .rdsr s = .next t ∧ Settled s t := by
  obtain ⟨t, data, hexec, hdata, hfin, hact⟩ := exec_ready_read .rdsr s 1 hs rfl rfl .rdsr (decode_encode .rdsr 1)
  obtain ⟨hw, hdev⟩ := hact.ok .rdsr _ (decode_encode .rdsr 0) rfl
  have hread : data = [s.dev.sr] := by rw [hdata]; simp [respond, respondRdsr, hpd, received]
  refine ⟨t, hexec, hfin.done, ?_, hw, ?_⟩
  · rw [hfin.result, hread]
    simpa [decodeResult, Instr.op] using srWip_eq_zero hs.2.2.2
  · rw [hdev, Device.settledSr_of_not_wip hs.2.2.2]
    rfl

/-- A poll of a device whose completion is due, or that is not busy. -/
theorem exec_poll_settled (s : State) (hs : Pollable s) (hw : (gap s).dev.wip = false) :
    ∃ t, exec .rdsr s = .next t ∧ Settled s t := by
  obtain ⟨hready, hpd⟩ := hs.gap_ready hw
  obtain ⟨t, hexec, ht⟩ := exec_poll_ready (gap s) hready hpd
  refine ⟨t, ?_, { ht with sr := ht.sr.trans (gap_settledSr s) }⟩
  rwa [exec_gap _ s ((acceptable_iff _ s).2 ⟨hs.idle, rfl⟩)] at hexec

/-- A device still busy after the gap was busy before it, and its completion is not due yet. -/
theorem not_due_of_gap_wip (s : State) (hok : s.Ok) (h : (gap s).dev.wip = true) :
    s.dev.wip = true ∧ s.moment < s.due := by
  have hwip : s.dev.wip = true := by
    rcases gap_cases s with hg | ⟨_, hw, _⟩
    · rwa [hg] at h
    · exact hw
  refine ⟨hwip, Nat.lt_of_not_le fun hdue => ?_⟩
  rw [gap_of_due s hok hwip hdue, Device.finish_wip] at h
  cases h

/-! ## The polling loop -/

/-- The operand lines as a call of Read Status drives them (log 17). -/
def atPoll (s : State) : State := { s with port := Instr.rdsr.request.operands }

/-- The machine in front of `n` polls. -/
def polls (n : Nat) (s : State) : State := s.withInputs (List.replicate n (.call Instr.rdsr.request))

theorem step_polls (n : Nat) (s t : State) (h : exec .rdsr (atPoll s) = .next t) :
    step (polls (n + 1) s) = .next (polls n t) := by
  rw [step_call (polls (n + 1) s) _ _ rfl, stepCall_of_instr _ _ _ (instr_request .rdsr)]
  exact (exec_withInputs _ .rdsr (atPoll s)).trans (congrArg _ h)

theorem Pollable.atPoll {s : State} (hs : Pollable s) : Pollable (atPoll s) :=
  ⟨hs.idle, hs.transport, hs.ok, hs.awake⟩

/-- Some positive number of polls ends with WIP = 0 read. -/
def PollingEnds (s : State) : Prop :=
  ∃ n t, 0 < n ∧ Host.Core.run Sys2Proof.core n (polls n s) = .next t ∧ Settled s t

/-- One poll does, where the completion is due. -/
theorem pollingEnds_of_settled (s : State) (hs : Pollable s) (hw : (gap (atPoll s)).dev.wip = false) :
    PollingEnds s := by
  obtain ⟨t, hexec, ht⟩ := exec_poll_settled (atPoll s) hs.atPoll hw
  exact ⟨1, polls 0 t, Nat.one_pos, run_of_next 0 _ _ (step_polls 0 s t hexec), ht.done, ht.wip, ht.ok, ht.sr⟩

/-- Polling ends, by induction on a bound of the moments still missing: each poll takes one or more of them. -/
theorem pollingEnds (d : Nat) (s : State) (hs : Pollable s) (hd : s.due ≤ s.moment + d) : PollingEnds s := by
  induction d generalizing s with
  | zero =>
    refine pollingEnds_of_settled s hs (Bool.eq_false_iff.2 fun hw => ?_)
    exact absurd (not_due_of_gap_wip (atPoll s) hs.ok hw).2 (Nat.not_lt.2 hd)
  | succ d ih =>
    obtain ⟨t, hexec, ht, hsr, hdue, hmoment⟩ := exec_poll (atPoll s) hs.atPoll
    have hbound : t.due ≤ t.moment + d := by
      have hs' : (atPoll s).due ≤ (atPoll s).moment + (d + 1) := hd
      omega
    obtain ⟨n, u, _, hrun, hu⟩ := ih t ht hbound
    refine ⟨n + 1, u, Nat.succ_pos n, (run_of_next n _ _ (step_polls n s t hexec)).trans hrun, ?_⟩
    exact { hu with sr := hu.sr.trans hsr }

/-- Settles O36: the completion's own step; no distance falls for ever; and polling ends. -/
theorem completionClearsWipAndWel : Obligations.CompletionClearsWipAndWel := by
  refine ⟨fun s rest hin hok => ?_, weaklyFair_of_isRun, fun s hidle htransport hok hawake => ?_⟩
  · rw [step_complete s rest hin, ← Device.wip_eq]
    exact ⟨fun hw => congrArg _ (devComplete_of_wip _ hok hw), fun hw => congrArg _ (devComplete_of_not_wip _ hok hw)⟩
  · obtain ⟨n, t, hn, hrun, ht⟩ := pollingEnds s.due s ⟨hidle, htransport, hok, hawake⟩ (Nat.le_add_left _ _)
    exact ⟨n, t, hn, hrun, ht.done, ht.wip, ht.ok, ht.sr⟩

end Sys2Proof.Machine
end

section
/-! The Status Register decoder (R128 to R137): what each extraction and injection function is, and what reading a field
gives after a write. -/

namespace Sys2Proof.Machine

/-! ## The fields, bit by bit -/

theorem srField_getLsbD (p : Nat) (m s : Byte) (i : Nat) :
    (srField p m s).getLsbD i = (s.getLsbD (p + i) && m.getLsbD i) := by
  simp [srField]

theorem srInject_getLsbD (p : Nat) (m s f : Byte) (i : Nat) (hi : i < 8) :
    (srInject p m s f).getLsbD i =
      ((s.getLsbD i && !(m <<< p).getLsbD i) || (f.getLsbD (i - p) && (m <<< p).getLsbD i)) := by
  have hip : i - p < 8 := by omega
  by_cases hp : i < p <;> simp [srInject, hi, hp, hip, Bool.and_comm]

/-- The field at `p` of width `m` sits at the bits of `m <<< p`. -/
theorem shiftLeft_getLsbD_add (p : Nat) (m : Byte) (i : Nat) :
    (m <<< p).getLsbD (p + i) = (decide (p + i < 8) && m.getLsbD i) := by
  simp

/-- A field that lies inside the byte: its mask has no bit that the shift pushes out. -/
theorem lt_of_mask_fits {p : Nat} {m : Byte} (h : (m <<< p) >>> p = m) {i : Nat} (hi : m.getLsbD i = true) :
    p + i < 8 := by
  rw [← h, BitVec.getLsbD_ushiftRight, shiftLeft_getLsbD_add, Bool.and_eq_true, decide_eq_true_eq] at hi
  exact hi.1

/-! ## Reading after a write (R137) -/

/-- Reading the field that was written gives what was written, masked. -/
theorem srField_srInject_same {p : Nat} {m s f : Byte} (hfit : (m <<< p) >>> p = m) :
    srField p m (srInject p m s f) = f &&& m := by
  refine BitVec.eq_of_getLsbD_eq fun i _ => ?_
  rw [srField_getLsbD, BitVec.getLsbD_and]
  cases hm : m.getLsbD i with
  | false => simp
  | true =>
    have hlt := lt_of_mask_fits hfit hm
    rw [srInject_getLsbD p m s f _ hlt, shiftLeft_getLsbD_add]
    simp [hlt, hm]

/-- Reading a field that shares no bit with the one written gives what was there. -/
theorem srField_srInject_of_disjoint {p p' : Nat} {m m' s f : Byte} (hfit : (m' <<< p') >>> p' = m')
    (hdisjoint : (m <<< p) &&& (m' <<< p') = 0) : srField p' m' (srInject p m s f) = srField p' m' s := by
  refine BitVec.eq_of_getLsbD_eq fun i _ => ?_
  rw [srField_getLsbD, srField_getLsbD]
  cases hm : m'.getLsbD i with
  | false => simp
  | true =>
    have hlt := lt_of_mask_fits hfit hm
    have hclear : (m <<< p).getLsbD (p' + i) = false := by
      have hbit := congrArg (·.getLsbD (p' + i)) hdisjoint
      simp only [BitVec.getLsbD_and, shiftLeft_getLsbD_add, hlt, hm] at hbit
      simpa using hbit
    rw [srInject_getLsbD p m s f _ hlt, hclear]
    simp

/-- A field is the byte's bits under its mask. -/
theorem srField_shiftLeft (p : Nat) (m s : Byte) : srField p m s <<< p = s &&& (m <<< p) := by
  refine BitVec.eq_of_getLsbD_eq fun i hi => ?_
  rw [BitVec.getLsbD_shiftLeft, srField_getLsbD, BitVec.getLsbD_and, BitVec.getLsbD_shiftLeft]
  by_cases hp : i < p
  · simp [hp]
  · simp [hp, hi, Nat.add_sub_of_le (Nat.le_of_not_lt hp)]

/-- The five masks make up the whole byte. -/
theorem sr_eq_or_fields (s : Byte) :
    s = (srWip s ||| (srWel s <<< 1) ||| (srBp s <<< 2) ||| (srRsv s <<< 6) ||| (srSrp s <<< 7)) := by
  rw [← BitVec.shiftLeft_zero (srWip s), srWip, srWel, srBp, srRsv, srSrp]
  simp only [srField_shiftLeft, ← BitVec.and_or_distrib_left]
  exact BitVec.and_allOnes.symm

/-! ## The statements -/

/-- Settles O7: WIP is not shifted; the other fields are as the model has them. -/
theorem statusExtractionReadsTheBits : Obligations.StatusExtractionReadsTheBits := by
  intro s
  have hwip : srWip s = s &&& 0x01 := congrArg (· &&& 0x01#8) (BitVec.ushiftRight_zero s)
  exact ⟨hwip, rfl, rfl, rfl, rfl⟩

/-- Settles O8: each mask, complemented, is the constant of its rule. -/
theorem statusInjectionWritesOneField : Obligations.StatusInjectionWritesOneField := by
  intro s f
  have hwip : srSetWip s f = (s &&& 0xFE) ||| (f &&& 0x01) :=
    congrArg ((s &&& 0xFE#8) ||| ·) (BitVec.shiftLeft_zero (f &&& 0x01#8))
  exact ⟨hwip, rfl, rfl, rfl⟩

/-- Settles O9: the masks of the five fields fit, are pairwise disjoint, and make up the byte. -/
theorem statusDecoderLaws : Obligations.StatusDecoderLaws := by
  intro s f
  refine ⟨sr_eq_or_fields s, ⟨srField_srInject_same (by decide), ?_, ?_, ?_, ?_⟩,
    ⟨srField_srInject_same (by decide), ?_, ?_, ?_, ?_⟩, ⟨srField_srInject_same (by decide), ?_, ?_, ?_, ?_⟩,
    srField_srInject_same (by decide), ?_, ?_, ?_, ?_⟩
  all_goals exact srField_srInject_of_disjoint (by decide) (by decide)

end Sys2Proof.Machine
end

section
/-! Write Enable, Write Disable and Write Status (R117, R120 to R127): the effect at the end of a selection, and the
whole operation in the reference environment. -/

namespace Sys2Proof.Machine

/-! ## WREN and WRDI at `SEL(HIGH)` (R117, U16) -/

theorem Device.heeds_of_not_selBusy {c : Nat} {d : Device} (h : d.selBusy = false) : d.heeds c = true := by
  simp [Device.heeds, h]

/-- A device busy throughout the selection takes nothing. -/
theorem Device.not_heeds_of_busy {c : Nat} {d : Device} (hb : d.selBusy = true) (hw : d.wip = true) :
    d.heeds c = false := by
  simp [Device.heeds, hb, hw]

/-- SR becomes `sr` where the device is awake and heeds the operation: the shape that WREN and WRDI share. -/
def Device.takesSr (c : Nat) (sr : Byte) (d : Device) : Device :=
  if !d.pd && d.heeds c then { d with sr := sr } else d

theorem effectWren_eq (c : Nat) (d : Device) : effectWren c d = d.takesSr c (d.sr ||| 0x02) :=
  congrArg (d.takesSr c) (srSetWel_one d.sr)

theorem effectWrdi_eq (c : Nat) (d : Device) : effectWrdi c d = d.takesSr c (d.sr &&& 0xFD) :=
  congrArg (d.takesSr c) (srSetWel_zero d.sr)

theorem Device.takesSr_of_heeds {c : Nat} {sr : Byte} {d : Device} (hpd : d.pd = false) (hc : d.heeds c = true) :
    d.takesSr c sr = { d with sr := sr } := by simp [Device.takesSr, hpd, hc]

theorem Device.takesSr_of_ignored {c : Nat} {sr : Byte} {d : Device} (h : d.pd = true ∨ d.heeds c = false) :
    d.takesSr c sr = d := by
  rcases h with h | h <;> simp [Device.takesSr, h]

theorem Device.takesSr_cases (c : Nat) (sr : Byte) (d : Device) :
    d.takesSr c sr = d ∨ d.takesSr c sr = { d with sr := sr } := (ite_eq_or_eq ..).symm

/-- The end of a selection whose operation writes SR where it is heeded: taken, ignored, or, where a completion fell
inside the selection, one of the two. -/
theorem tick_deassert_of_takesSr (s : State) (i : Instr) (sr : Byte) (hp : s.codec.phase = .deassert)
    (hsel : s.nextSelect = .returns) (herr : s.codec.err = 0x00) (hok : s.Ok) (hi : s.dev.sel = some (encode i))
    (he : effect s.part s.clock (i.asHeard 0) s.dev = .ok (s.dev.takesSr s.clock sr)) :
    ∃ t, tick s = .next t ∧ t.wrong = none ∧
      (s.dev.pd = false → s.dev.selBusy = false → t.dev = { s.dev with sel := none, sr := sr }) ∧
      (s.dev.pd = true ∨ (s.dev.selBusy = true ∧ s.dev.wip = true) → t.dev = { s.dev with sel := none }) ∧
      (t.dev = { s.dev with sel := none } ∨ t.dev = { s.dev with sel := none, sr := sr }) := by
  have hdec : decode (s.dev.sel.getD []) 0 = .ok (i.asHeard 0) := by
    rw [hi]
    exact decode_encode i 0
  obtain ⟨t, htick, hw, hdev⟩ := tick_deassert_of_effect s _ _ hp hsel herr hok hdec he
  refine ⟨t, htick, hw, fun hpd hb => ?_, fun hignored => ?_, ?_⟩
  · rw [hdev, Device.takesSr_of_heeds hpd (Device.heeds_of_not_selBusy hb)]
  · rw [hdev, Device.takesSr_of_ignored (hignored.imp_right fun hb => Device.not_heeds_of_busy hb.1 hb.2)]
  · rcases Device.takesSr_cases s.clock sr s.dev with h | h
    · exact .inl (by rw [hdev, h])
    · exact .inr (by rw [hdev, h])

/-- Settles O38. -/
theorem writeEnableEffect : Obligations.WriteEnableEffect := fun s hp hsel herr hok hstream =>
  tick_deassert_of_takesSr s .wren _ hp hsel herr hok hstream (congrArg Except.ok (effectWren_eq s.clock s.dev))

/-- Settles O39. -/
theorem writeDisableEffect : Obligations.WriteDisableEffect := fun s hp hsel herr hok hstream =>
  tick_deassert_of_takesSr s .wrdi _ hp hsel herr hok hstream (congrArg Except.ok (effectWrdi_eq s.clock s.dev))

/-! ## The whole operation in the reference environment -/

/-- An operation without a transfer, to which the device gives the meaning `d` (R108, R115). -/
theorem exec_ready_effect (i : Instr) (s : State) (d : Device) (hs : s.Ready) (hwf : i.wellFormed = true)
    (hx : i.op.xfer i.n = .none)
    (he : effect s.part s.clock (i.asHeard 0) (s.dev.heard (encode i)) = .ok d) :
    ∃ t, exec i s = .next t ∧
      Finished s t i (encode i) [] 0 (decodeResult i.op []) [.sel .low, .wr (encode i) (encode i).length, .sel .high] ∧
      t.wrong = none ∧ t.dev = { d with sel := none } := by
  obtain ⟨t, hexec, hfin, hact⟩ := exec_ready_none i s hs hwf hx
  rw [← encode_eq_frame i (by simp [hx])] at hfin hact
  exact ⟨t, hexec, hfin, hact.ok _ d (decode_encode i 0) he⟩

/-- A selection of an awake device that began with WIP = 0 is heeded. -/
theorem Device.heard_takesSr (c : Nat) (l : List Byte) (sr : Byte) (d : Device) (hpd : d.pd = false) :
    { (d.heard l).takesSr c sr with sel := none } = { d.untouched with sr := sr } := by
  rw [Device.takesSr_of_heeds (d := d.heard l) hpd (Device.heard_heeds c l d)]
  rfl

/-- Settles O42. -/
theorem wrenCompletes : Obligations.WrenCompletes := by
  intro s hs hpd
  obtain ⟨t, hexec, hfin, hw, hdev⟩ := exec_ready_effect .wren s _ hs rfl rfl (congrArg Except.ok (effectWren_eq _ _))
  exact ⟨t, hexec, hfin, hw, hdev.trans (Device.heard_takesSr _ _ _ _ hpd)⟩

/-- Settles O43. -/
theorem wrdiCompletes : Obligations.WrdiCompletes := by
  intro s hs hpd
  obtain ⟨t, hexec, hfin, hw, hdev⟩ := exec_ready_effect .wrdi s _ hs rfl rfl (congrArg Except.ok (effectWrdi_eq _ _))
  exact ⟨t, hexec, hfin, hw, hdev.trans (Device.heard_takesSr _ _ _ _ hpd)⟩

/-- Settles O45: Write Status is accepted by an awake, write-enabled, unlocked device and by no other. -/
theorem wrsrCompletes : Obligations.WrsrCompletes := by
  intro s v hs
  obtain ⟨t, hexec, hfin, hw, hdev⟩ :=
    exec_ready_effect (.wrsr v) s _ hs rfl rfl (congrArg Except.ok (effectWrsr_eq _ _ _))
  refine ⟨t, hexec, hfin, hw, fun hpd hwel hlock => ?_, fun hignored => ?_⟩
  · rw [hdev, if_pos (by simp [hpd, hwel, hlock])]
    rfl
  · rw [hdev, if_neg (by rcases hignored with h | h | h <;> simp [h])]
    rfl

end Sys2Proof.Machine
end

section
/-! Read Status (R124, R125) at any time: what it reads from a device that may complete meanwhile; and the round trip
of a composed status byte (R137). -/

namespace Sys2Proof.Machine

/-! ## The response (R125) -/

theorem deviceResponse_of_decode (s : State) (m : Nat) (i : Instr) (hok : s.Ok)
    (hi : decode (s.dev.sel.getD []) m = .ok i) : deviceResponse s m = respond s.part s.clock m i s.dev := by
  simp [deviceResponse, show s.wrong = none from hok, hi]

/-- The byte an awake device hands over is SR at the read, whatever WIP is. -/
theorem dataIn_of_rdsr (s : State) (hsel : s.dev.sel = some [0x05]) (hok : s.Ok) (hpd : s.dev.pd = false) :
    dataIn 1 1 s = [s.dev.sr] := by
  have hdec : decode (s.dev.sel.getD []) 1 = .ok .rdsr := by
    rw [hsel]
    exact decode_encode .rdsr 1
  simp [dataIn, deviceResponse_of_decode s 1 .rdsr hok hdec, respond, respondRdsr, hpd, received]

/-- Settles O41: the byte read, and that Read Status has no effect. -/
theorem readStatusResponse : Obligations.ReadStatusResponse := by
  refine ⟨fun s hp hop hsel hok hans => ?_, fun s hp hnext herr hsel hok => ?_⟩
  · obtain ⟨b, hb⟩ := List.length_eq_one_iff.1 (dataIn_length 1 1 s)
    refine ⟨readIn 1 1 s, b, ?_, ?_, fun hpd => ?_, readIn_dev 1 1 s, (readIn_wrong 1 1 s).trans hok⟩
    · rw [tick_xfer_read s 1 hp (by rw [hop]; rfl), sXferRead_of_count s 1 1 (by rw [hans]; rfl)]
    · rw [readIn_codec, hb]
    · simpa [hb] using dataIn_of_rdsr s hsel hok hpd
  · have hdec : decode (s.dev.sel.getD []) 0 = .ok .rdsr := by
      rw [hsel]
      exact decode_encode .rdsr 0
    obtain ⟨t, htick, hw, hdev⟩ := tick_deassert_of_effect s .rdsr s.dev hp hnext herr hok hdec rfl
    exact ⟨t, htick, hdev, hw⟩

/-! ## A device that may have completed -/

/-- `d'` is the device `d` at a later moment of a selection that has no effect: a completion may have come (R116), and
the selection's bookkeeping may have been written (R115). -/
structure Device.Later (d d' : Device) : Prop where
  flash : d'.flash = d.flash
  pd : d'.pd = d.pd
  wp : d'.wp = d.wp
  sr : d'.sr = d.sr ∨ (d.wip = true ∧ d'.sr = d.sr &&& 0xFC)

/-- A device completes at most once: a completion seen before is the same that is seen later. -/
theorem Device.Later.sr_trans {d e f : Device} (h : d.Later e) (h' : e.Later f) :
    f.sr = e.sr ∨ (d.wip = true ∧ f.sr = d.sr &&& 0xFC) := by
  refine h'.sr.imp_right fun ⟨hwip, hf⟩ => ?_
  rcases h.sr with he | ⟨_, he⟩
  · rw [Device.wip_eq, he, ← Device.wip_eq] at hwip
    exact ⟨hwip, he ▸ hf⟩
  · rw [Device.wip_eq, he] at hwip
    simp at hwip

theorem Device.Later.trans {d e f : Device} (h : d.Later e) (h' : e.Later f) : d.Later f where
  flash := h'.flash.trans h.flash
  pd := h'.pd.trans h.pd
  wp := h'.wp.trans h.wp
  sr := by
    rcases h.sr_trans h' with hf | hf
    · rw [hf]
      exact h.sr
    · exact .inr hf

/-- Bookkeeping alone. -/
theorem Device.later_of_bookkeeping (d : Device) (l : Option (List Byte)) (b : Bool) :
    d.Later { d with sel := l, selBusy := b } := ⟨rfl, rfl, rfl, .inl rfl⟩

theorem gap_later (s : State) : s.dev.Later (gap s).dev := by
  rcases gap_cases s with h | ⟨_, hw, h⟩ <;> rw [h]
  · exact ⟨rfl, rfl, rfl, .inl rfl⟩
  · exact ⟨rfl, rfl, rfl, .inr ⟨hw, s.dev.finish_sr_eq⟩⟩

/-- Of a device that is later and deselected, only SR and the sample `sel_busy` can differ. -/
theorem Device.Later.eq_of_sel_none {d d' : Device} (h : d.Later d') (hsel : d'.sel = none) :
    d' = { d with sel := none, sr := d'.sr, selBusy := d'.selBusy } := by
  rw [← h.flash, ← h.pd, ← h.wp, ← hsel]

/-! ## The whole operation at any time (R108, R124) -/

/-- In front of the read. -/
def atRead (s : State) : State := gap (afterFrame .rdsr 1 s)

/-- In front of the end of the selection. -/
def atEnd (s : State) : State := gap (readIn 1 1 (atRead s))

theorem atRead_phase (s : State) : (atRead s).codec.phase = .xfer := by
  simp [atRead, gap_codec, phaseAfterFrame, Instr.op, Op.xfer]

theorem atEnd_phase (s : State) : (atEnd s).codec.phase = .deassert := by simp [atEnd, gap_codec]

theorem atEnd_resp (s : State) : (atEnd s).codec.resp = dataIn 1 1 (atRead s) := by simp [atEnd, gap_codec]

theorem atEnd_answers (s : State) : (atEnd s).answers = s.answers.drop 2 := by
  simp [atEnd, atRead, gap_answers, tail_tail]

/-! Over a perfect transport each call of a poll returns, a transfer with the count that was asked for. -/

theorem PollFrom.tick_asserted {s u : State} (hu : PollFrom s u) (hp : u.codec.phase = .assert) :
    tick u = .next (asserted u) := by
  rw [tick_assert u hp, onSelect_of_returns asserted u hu.transport.nextSelect]

theorem PollFrom.tick_framed {s u : State} (hu : PollFrom s u) (hp : u.codec.phase = .frame) :
    tick u = .next (framed 1 u) := by
  rw [tick_frame u hp, sFrame_of_count u 1]
  rw [hu.transport.nextAnswer, hu.sending.fb]
  rfl

theorem PollFrom.tick_readIn {s u : State} (hu : PollFrom s u) (hp : u.codec.phase = .xfer) :
    tick u = .next (readIn 1 1 u) := by
  rw [tick_xfer_read u 1 hp hu.sending.kind, sXferRead_of_count u 1 1]
  rw [hu.transport.nextAnswer]
  rfl

theorem PollFrom.tick_deasserted {s u : State} (hu : PollFrom s u) (hp : u.codec.phase = .deassert) :
    tick u = .next (deasserted u) := by
  rw [tick_deassert u hp, onSelect_of_returns deasserted u hu.transport.nextSelect]

theorem atRead_pollFrom (s : State) (hs : Pollable s) : PollFrom s (atRead s) := by
  have haccepted : PollFrom s (gap (sAccept .rdsr s)) := gap_pollFrom s _ (sAccept_pollFrom s hs)
  have hasserted : PollFrom s (gap (asserted (gap (sAccept .rdsr s)))) :=
    gap_pollFrom s _ (tick_pollFrom s _ _ haccepted (haccepted.tick_asserted (by rw [gap_codec, sAccept_codec_phase])))
  exact gap_pollFrom s _ (tick_pollFrom s _ _ hasserted (hasserted.tick_framed (asserted_frame .rdsr s).1))

theorem atEnd_pollFrom (s : State) (hs : Pollable s) : PollFrom s (atEnd s) :=
  have hread := atRead_pollFrom s hs
  gap_pollFrom s _ (tick_pollFrom s _ _ hread (hread.tick_readIn (atRead_phase s)))

/-- Read Status runs through the four calls, a gap before each. -/
theorem exec_rdsr (s : State) (hs : Pollable s) : exec .rdsr s = .next (deasserted (atEnd s)) := by
  have hframed : exec .rdsr s = runBracket 2 (afterFrame .rdsr 1 s) :=
    exec_framed .rdsr s 1 ((acceptable_iff _ s).2 ⟨hs.idle, rfl⟩) hs.transport.nextSelect
      (by rw [hs.transport.nextAnswer]; rfl)
  have hread := (atRead_pollFrom s hs).tick_readIn (atRead_phase s)
  have hend := (atEnd_pollFrom s hs).tick_deasserted (atEnd_phase s)
  rw [hframed, runBracket_of_next 1 _ _ (by simp [phaseAfterFrame, Instr.op, Op.xfer]) hread,
    runBracket_of_next 0 _ _ (by simp) hend]
  rfl

/-! ## What Read Status leaves -/

/-- Over a perfect transport every call of an operation returns the count that was asked for (R9). -/
theorem State.PerfectTransport.returned {s : State} (h : s.PerfectTransport) (i : Instr) :
    Returned i s (frame i.op i.addr i.srIn).length i.requested where
  selectLow := h.nextSelect
  selectHigh :=
    (h.suffix (t := { s with selects := s.selects.tail }) (List.suffix_refl _) (List.tail_suffix _)).nextSelect
  framed := by rw [h.nextAnswer]; rfl
  transferred := by
    have hanswered := (h.suffix (t := s.answered) (List.tail_suffix _) (List.suffix_refl _)).nextAnswer
    unfold TransferReturns
    split
    · next hx => simp [Instr.requested, hx]
    · rw [hanswered]; rfl

/-- An operation whose counts were exact is finished, in the words of the completion statements. -/
theorem Ended.finished {i : Instr} {s t : State} {data : List Byte}
    (h : Ended i s (frame i.op i.addr i.srIn).length i.requested data t)
    (ha : t.answers = s.answers.drop ((transferEvents i i.requested data).length + 1)) :
    Finished s t i (frame i.op i.addr i.srIn) data i.requested (decodeResult i.op data)
      ([.sel .low, .wr (frame i.op i.addr i.srIn) (frame i.op i.addr i.srIn).length] ++
        transferEvents i i.requested data ++ [.sel .high]) := by
  constructor
  case trace => simp [h.trace]
  case part => exact h.part
  case port => exact h.port
  case inputs => exact h.inputs
  case selects => exact h.selects
  case answers => simp [ha]
  all_goals simp [h.codec]

theorem exec_rdsr_finished (s : State) (hs : Pollable s) :
    Finished s (deasserted (atEnd s)) .rdsr [0x05] [(atRead s).dev.sr] 1 ((atRead s).dev.sr.setWidth 16)
      [.sel .low, .wr [0x05] 1, .rd 1 1 [(atRead s).dev.sr], .sel .high] := by
  obtain ⟨t, data, hexec, hended⟩ :=
    exec_ended .rdsr s _ _ ((acceptable_iff _ s).2 ⟨hs.idle, rfl⟩) (hs.transport.returned .rdsr)
  cases (exec_rdsr s hs).symm.trans hexec
  have hread := atRead_pollFrom s hs
  have hdata : data = [(atRead s).dev.sr] := by
    have hresp : (deasserted (atEnd s)).codec.resp = data := by rw [hended.codec]
    rw [← hresp, deasserted_codec_resp, atEnd_resp,
      dataIn_of_rdsr _ (hread.sending.framed (atRead_phase s) hread.err) hread.ok hread.awake]
  subst hdata
  exact hended.finished ((deasserted_answers _).trans (atEnd_answers s))

/-- From acceptance to the read. -/
theorem atRead_later (s : State) : s.dev.Later (atRead s).dev := by
  have haccepted : s.dev.Later (gap (sAccept .rdsr s)).dev := gap_later (sAccept .rdsr s)
  have hasserted := haccepted.trans (Device.later_of_bookkeeping _ (some []) (gap (sAccept .rdsr s)).dev.wip)
  have hselected := hasserted.trans (gap_later (asserted (gap (sAccept .rdsr s))))
  have hframed : (gap (asserted (gap (sAccept .rdsr s)))).dev.Later (afterFrame .rdsr 1 s).dev := by
    rw [afterFrame, framed_dev]
    exact Device.later_of_bookkeeping _ _ _
  exact (hselected.trans hframed).trans (gap_later (afterFrame .rdsr 1 s))

/-- From the read to the end. -/
theorem deasserted_atEnd_later (s : State) (hs : Pollable s) :
    (atRead s).dev.Later (deasserted (atEnd s)).dev := by
  have hend : (atRead s).dev.Later (atEnd s).dev := by
    rw [← readIn_dev 1 1 (atRead s)]
    exact gap_later (readIn 1 1 (atRead s))
  have hact := deviceActs_of_rdsr s (atEnd s) (atEnd_pollFrom s hs) (atEnd_phase s)
  rw [deasserted_dev, hact, State.acted_dev]
  exact hend.trans (Device.later_of_bookkeeping _ none _)

/-- Settles O44: the read and the end each see a device that is later than the one before. -/
theorem rdsrCompletesAtAnyTime : Obligations.RdsrCompletesAtAnyTime := by
  intro s hidle htransport hok hpd
  have hs : Pollable s := ⟨hidle, htransport, hok, hpd⟩
  have hend := atEnd_pollFrom s hs
  have hended : PollFrom s (deasserted (atEnd s)) := tick_pollFrom s _ _ hend (hend.tick_deasserted (atEnd_phase s))
  have hread := atRead_later s
  have hafter := deasserted_atEnd_later s hs
  exact ⟨deasserted (atEnd s), (atRead s).dev.sr, exec_rdsr s hs, exec_rdsr_finished s hs, hended.ok, hread.sr,
    hread.sr_trans hafter, (hread.trans hafter).eq_of_sel_none (deasserted_dev_sel _)⟩

/-! ## The round trip (R137) -/

/-- A completion that may come comes, and leaves SR[7:2] and the rest of the machine (R116). -/
theorem devComplete_of_ok (s : State) (hok : s.Ok) :
    ∃ sr, devComplete s = { s with dev := { s.dev with sr := sr } } ∧ (devComplete s).dev.wip = false ∧
      sr &&& 0xFC = s.dev.sr &&& 0xFC := by
  rcases devComplete_cases s with ⟨hw, _⟩ | ⟨_, _, h⟩ | ⟨_, hwip, h⟩
  · exact absurd hw (by simp [show s.wrong = none from hok])
  · exact ⟨s.dev.finish.sr, h, h ▸ s.dev.finish_wip, s.dev.finish_sr_upper⟩
  · exact ⟨s.dev.sr, h, by rw [h, hwip], rfl⟩

/-- Write Status writes the operand's BP and SRP. -/
theorem srAfterWrsr_protection (p : Part) (sr v : Byte) : srAfterWrsr p sr v &&& 0xBC = v &&& 0xBC := by
  rw [srAfterWrsr_eq]
  split
  · exact (protection_of_upper (srSetWip_one_upper _)).trans (srWritten_protection sr v)
  · exact (protection_of_upper (srSetWel_zero_upper _)).trans (srWritten_protection sr v)

/-- A field is determined by the bits under its mask. -/
theorem srField_congr {p : Nat} {m x y : Byte} (hfit : (m <<< p) >>> p = m) (h : x &&& (m <<< p) = y &&& (m <<< p)) :
    srField p m x = srField p m y := by
  have hshift (z : Byte) : srField p m z = (z &&& (m <<< p)) >>> p := by
    rw [BitVec.ushiftRight_and_distrib, hfit, srField]
  rw [hshift, hshift, h]

/-- BP and SRP are the bits of `0xBC`. -/
theorem srBp_srSrp_congr {x y : Byte} (h : x &&& 0xBC = y &&& 0xBC) : srBp x = srBp y ∧ srSrp x = srSrp y := by
  have hmask (m : Byte) (hm : 0xBC &&& m = m) : x &&& m = y &&& m := by
    rw [← hm, ← BitVec.and_assoc, h, BitVec.and_assoc]
  exact ⟨srField_congr (by decide) (hmask _ (by decide)), srField_congr (by decide) (hmask _ (by decide))⟩

/-- `SR_compose` writes SRP and then BP into a byte that keeps bit 6 alone. -/
theorem srCompose_eq (s0 b p : Byte) : srCompose s0 b p = srSetBp (srSetSrp (s0 &&& 0x40) b) p := by
  ext i hi
  simp only [srCompose, srSetBp, srSetSrp, srInject]
  interval_cases i <;> simp

theorem srBp_srCompose (s0 b p : Byte) : srBp (srCompose s0 b p) = p &&& 0x0F := by
  rw [srCompose_eq]
  exact srField_srInject_same (by decide)

theorem srSrp_srCompose (s0 b p : Byte) : srSrp (srCompose s0 b p) = b &&& 0x01 := by
  rw [srCompose_eq]
  exact (srField_srInject_of_disjoint (by decide) (by decide)).trans (srField_srInject_same (by decide))

/-- Settles O10: Write Status (O45) writes BP and SRP, the completion keeps them and clears WIP, and Read Status (O44)
reads SR as it then stands. -/
theorem composedStatusReadsBack : Obligations.ComposedStatusReadsBack := by
  intro s s0 b p hs hpd hwel hlock
  obtain ⟨t, hexec, hfin, hok, haccepted, _⟩ := wrsrCompletes s (srCompose s0 b p) hs
  have hdev : t.dev = { s.dev.untouched with sr := srAfterWrsr s.part s.dev.sr (srCompose s0 b p) } :=
    haccepted hpd hwel hlock
  obtain ⟨sr, hcomplete, hwip, hupper⟩ := devComplete_of_ok t hok
  have htransport : t.PerfectTransport :=
    hs.2.1.suffix (hfin.answers ▸ List.drop_suffix _ _) (hfin.selects ▸ List.drop_suffix _ _)
  obtain ⟨u, v, hexec', hfin', _, hv, _⟩ := rdsrCompletesAtAnyTime (devComplete t) (by rw [hcomplete]; exact hfin.phase)
    (by rw [hcomplete]; exact htransport) (by rw [hcomplete]; exact hok) (by rw [hcomplete, hdev]; exact hpd)
  have hread : v = (devComplete t).dev.sr := hv.resolve_right fun h => by simp [hwip] at h
  have hresult : u.codec.result.setWidth 8 = (devComplete t).dev.sr := by
    rw [hfin'.result, hread]
    simp
  have hprotection : (devComplete t).dev.sr &&& 0xBC = srCompose s0 b p &&& 0xBC := by
    rw [hcomplete]
    refine (protection_of_upper hupper).trans ?_
    rw [hdev]
    exact srAfterWrsr_protection _ _ _
  obtain ⟨hbp, hsrp⟩ := srBp_srSrp_congr hprotection
  refine ⟨t, u, hexec, hexec', ?_, ?_, ?_⟩ <;> rw [hresult]
  · rw [hbp, srBp_srCompose]
  · rw [hsrp, srSrp_srCompose]
  · exact srWip_eq_zero hwip

end Sys2Proof.Machine
end

section
/-! Read Data and Fast Read (R140 to R144): an operation that reads has no effect on the device, and the two array reads
get the same response. -/

namespace Sys2Proof.Machine

/-! ## The response (R52, R63, R101, R144) -/

/-- Of a read whose count was exact, every byte that the device answered is its answer. -/
theorem received_getElem?_of_exact (c m j : Nat) (response : List Byte) (hj : j < m) (hr : j < response.length) :
    (received c m m response)[j]? = response[j]? := by
  simp [received, hj, hr]

@[simp] theorem memRead_length (p : Part) (c : Nat) (flash : Memory) (a : Addr) (n : Nat) :
    (memRead p c flash a n).length = n := by simp [memRead]

/-- `MemRead` at an address of the array (R63). -/
theorem memRead_getElem?_of_inside (p : Part) (c : Nat) (flash : Memory) (a : Addr) (n j : Nat) (hj : j < n)
    (hin : a.toNat + j < p.totalSize) : (memRead p c flash a n)[j]? = some (flash.read (a.toNat + j)) := by
  simp [memRead, hj, hin]

/-- What the codec takes in from an awake device that answers with its array. -/
theorem received_respondArray_getElem? (p : Part) (c n j : Nat) (a : Addr) (l : List Byte) (d : Device)
    (hpd : d.pd = false) (hj : j < n) (hin : a.toNat + j < p.totalSize) :
    (received c n n (respondArray p c a n (d.heard l)))[j]? = some (d.flash.read (a.toNat + j)) := by
  have hanswer : respondArray p c a n (d.heard l) = memRead p c d.flash a n := by simp [respondArray, hpd]
  rw [hanswer, received_getElem?_of_exact c n j _ hj (by simpa using hj),
    memRead_getElem?_of_inside p c d.flash a n j hj hin]

/-! ## The whole operation in the reference environment -/

/-- An operation that reads leaves the device as it is at the end of its selection (R125, R144, R181, R183). -/
theorem effect_of_xfer_read (p : Part) (c k m : Nat) (i : Instr) (d : Device) (hx : i.op.xfer i.n = .read m) :
    effect p c (i.asHeard k) d = .ok d := by
  cases i with
  | rdsr | read _ _ | fastRead _ _ | rddevid | rdjedec => rfl
  | wren | wrdi | wrsr _ | pp _ _ _ | se _ | be _ | ce | dp | rdp => cases hx

/-- The `m` bytes that the operation `i` takes in from a ready machine's device (R101, R115). -/
def answerTo (i : Instr) (m : Nat) (s : State) : List Byte :=
  received s.clock m m (respond s.part s.clock m (i.asHeard m) (s.dev.heard (encode i)))

@[simp] theorem answerTo_length (i : Instr) (m : Nat) (s : State) : (answerTo i m s).length = m := received_length ..

/-- An operation that reads, awake or asleep (R108, R115): the device's answer is taken in, and nothing of it changes. -/
theorem exec_ready_answer (i : Instr) (s : State) (m : Nat) (hs : s.Ready) (hwf : i.wellFormed = true)
    (hx : i.op.xfer i.n = .read m) :
    ∃ t, exec i s = .next t ∧
      Finished s t i (encode i) (answerTo i m s) m (decodeResult i.op (answerTo i m s))
        [.sel .low, .wr (encode i) (encode i).length, .rd m m (answerTo i m s), .sel .high] ∧
      t.wrong = none ∧ t.dev = s.dev.untouched := by
  have henc : encode i = frame i.op i.addr i.srIn := encode_eq_frame i (by simp [hx])
  obtain ⟨t, data, hexec, hdata, hfin, hact⟩ := exec_ready_read i s m hs hwf hx _ (henc ▸ decode_encode i m)
  rw [← henc] at hdata hfin hact
  obtain rfl : data = answerTo i m s := hdata
  obtain ⟨hw, hdev⟩ := hact.ok _ _ (decode_encode i 0) (effect_of_xfer_read _ _ 0 m i _ hx)
  exact ⟨t, hexec, hfin, hw, hdev.trans (Device.heard_put_away _ _)⟩

/-- Both array reads are answered alike: an awake device hands over its array (R141, R143, R144). -/
theorem answerTo_getElem?_of_arrayRead (i : Instr) (a : Addr) (n j : Nat) (s : State)
    (hi : i = .read a n ∨ i = .fastRead a n) (hpd : s.dev.pd = false) (hj : j < n)
    (hin : a.toNat + j < s.part.totalSize) :
    (answerTo i n s)[j]? = some (s.dev.flash.read (a.toNat + j)) := by
  have hrespond : respond s.part s.clock n (i.asHeard n) (s.dev.heard (encode i)) =
      respondArray s.part s.clock a n (s.dev.heard (encode i)) := by
    rcases hi with rfl | rfl <;> rfl
  rw [answerTo, hrespond, received_respondArray_getElem? _ _ n j a _ _ hpd hj hin]

/-- Settles O46: the answer to Read Data is the array's. -/
theorem readCompletes : Obligations.ReadCompletes := by
  intro s a n hs
  obtain ⟨t, hexec, hfin, hok, hdev⟩ := exec_ready_answer (.read a n) s n hs rfl rfl
  exact ⟨t, _, hexec, answerTo_length _ _ _, hfin,
    fun hpd j => answerTo_getElem?_of_arrayRead _ a n j s (.inl rfl) hpd, hok, hdev⟩

/-- Settles O47: the frame has a byte more than Read Data's, and the answer is the same. -/
theorem fastReadCompletes : Obligations.FastReadCompletes := by
  intro s a n hs
  obtain ⟨t, hexec, hfin, hok, hdev⟩ := exec_ready_answer (.fastRead a n) s n hs rfl rfl
  exact ⟨t, _, hexec, answerTo_length _ _ _, hfin,
    fun hpd j => answerTo_getElem?_of_arrayRead _ a n j s (.inr rfl) hpd, hok, hdev⟩

end Sys2Proof.Machine
end

section
/-! Page Program and the erases (R150 to R158): the effect of an accepted one, what the array reads as afterwards, and the
whole operation in the reference environment, accepted or without the enable. -/

namespace Sys2Proof.Machine

/-! ## The array afterwards (R41, R47, R63) -/

/-- After the erase of one of the units of `k` bytes into which the array is cut, its bytes read 0xFF and no other byte
has changed. -/
theorem Memory.read_erase_unit (m : Memory) (k a x : Nat) (hk : 0 < k) :
    (m.erase (k * (a / k)) k).read x = if x / k = a / k then erased else m.read x := by
  have hunit : x / k = a / k ↔ k * (a / k) ≤ x ∧ x < k * (a / k) + k := by
    rw [Nat.div_eq_iff hk, Nat.mul_comm k]
    omega
  simp only [Memory.read_erase, hunit]

theorem read_sectorErase (m : Memory) (a : Addr) (x : Nat) :
    (m.erase (sectorBase a).toNat sectorSize).read x = if x / 4096 = a.toNat / 4096 then erased else m.read x := by
  rw [sectorBase_toNat]
  exact Memory.read_erase_unit m 4096 a.toNat x (by decide)

theorem read_blockErase (m : Memory) (a : Addr) (x : Nat) :
    (m.erase (blockBase a).toNat blockSize).read x = if x / 65536 = a.toNat / 65536 then erased else m.read x := by
  rw [blockBase_toNat]
  exact Memory.read_erase_unit m 65536 a.toNat x (by decide)

theorem read_chipErase (m : Memory) (size x : Nat) :
    (m.erase 0 size).read x = if x < size then erased else m.read x := by
  simp [Memory.read_erase]

theorem target_toNat_ne (a : Addr) (j k : Nat) (hj : j < 256) (hk : k < 256) (hne : j ≠ k) :
    (target a j).toNat ≠ (target a k).toNat :=
  fun h => hne (target_inj a j k hj hk (BitVec.eq_of_toNat_eq h))

/-- A payload byte whose target was erased stands there afterwards: up to 256 bytes no later one has the same target. -/
theorem memWriteFrom_read_target (c : Nat) (a : Addr) (i : Nat) (bs : List Byte) (m : Memory) (hm : m.wf = true)
    (hlen : i + bs.length ≤ 256) (j : Nat) (b : Byte) (hj : bs[j]? = some b)
    (herased : m.read (target a (i + j)).toNat = erased) :
    (memWriteFrom c a i bs m).read (target a (i + j)).toNat = b := by
  induction bs generalizing i j m with
  | nil => simp at hj
  | cons v bs ih =>
    rw [List.length_cons] at hlen
    have hwf := Memory.write_wf m (target a i).toNat
      (if m.read (target a i).toNat = erased then v else Config.draw c i) hm
    rw [memWriteFrom]
    cases j with
    | zero =>
      obtain rfl : v = b := by simpa using hj
      simp only [Nat.add_zero] at herased ⊢
      rw [memWriteFrom_read_other c a (i + 1) bs _ hwf _
          fun k hk => target_toNat_ne a i (i + 1 + k) (by omega) (by omega) (by omega),
        Memory.read_write _ _ _ hm, if_pos rfl, if_pos herased]
    | succ j =>
      rw [List.getElem?_cons_succ] at hj
      have hjlt : j < bs.length := (List.getElem?_eq_some_iff.1 hj).1
      rw [show i + (j + 1) = i + 1 + j by omega] at herased ⊢
      refine ih (i + 1) _ hwf (by omega) j hj ?_
      rw [Memory.read_write _ _ _ hm, if_neg (target_toNat_ne a _ i (by omega) (by omega) (by omega)), herased]

/-! ## Acceptance (R158) -/

/-- Nothing but the enable stands in the way of the program or erase `i` where BP protects the range `r`: its address exists,
its unit is not protected, and Page Program has 1 to 256 bytes (R51, R53, R63, R157). -/
def Permitted (p : Part) (r : BpRange) (i : Instr) : Prop :=
  match i with
  | .pp a _ payload => a.toNat < p.totalSize ∧ bpProtects r (block a) = false ∧ 1 ≤ payload.length ∧ payload.length ≤ 256
  | .se a => a.toNat < p.totalSize ∧ bpProtects r (block a) = false
  | .be a => a.toNat < p.totalSize ∧ bpProtects r (block a) = false
  | .ce => ∀ b, b < p.nBlocks → bpProtects r b = false
  | _ => False

theorem Permitted.asHeard {p : Part} {r : BpRange} {i : Instr} (h : Permitted p r i) (m : Nat) :
    Permitted p r (i.asHeard m) := by
  cases i <;> exact h

theorem ifAccepted_of_accepted (p : Part) (f : BpRange → Bool) (acc : Except GoneWrong Device) (d : Device) (r : BpRange)
    (hw : d.writable = true) (hr : bpLookup p d.bp = some r) (hf : f r = false) : ifAccepted p f acc d = acc := by
  rw [ifAccepted_of_lookup_some p f acc d r hw hr, if_neg (Bool.eq_false_iff.1 hf)]

theorem ifAcceptedAt_of_accepted (p : Part) (a : Addr) (acc : Except GoneWrong Device) (d : Device) (r : BpRange)
    (hw : d.writable = true) (hr : bpLookup p d.bp = some r) (ha : a.toNat < p.totalSize)
    (hblock : bpProtects r (block a) = false) : ifAcceptedAt p a acc d = acc := by
  rw [ifAcceptedAt_of_inside p a acc d ha, ifAccepted_of_accepted p _ acc d r hw hr hblock]

/-- An accepted program or erase changes the array and sets WIP (R151, R153, R155, R157). -/
theorem effect_of_permitted (p : Part) (c : Nat) (i : Instr) (d : Device) (r : BpRange) (hw : d.writable = true)
    (hr : bpLookup p d.bp = some r) (hi : Permitted p r i) :
    effect p c i d = .ok (Device.startBusy { d with flash := flashAfter p c i d.flash }) := by
  cases i with
  | pp a n payload =>
    obtain ⟨ha, hblock, hmin, hmax⟩ := hi
    refine (ifAcceptedAt_of_accepted p a _ d r hw hr ha hblock).trans (if_neg ?_)
    omega
  | se a =>
    obtain ⟨ha, hblock⟩ := hi
    exact ifAcceptedAt_of_accepted p a _ d r hw hr ha hblock
  | be a =>
    obtain ⟨ha, hblock⟩ := hi
    exact ifAcceptedAt_of_accepted p a _ d r hw hr ha hblock
  | ce =>
    refine ifAccepted_of_accepted p _ _ d r hw hr (Bool.eq_false_iff.2 fun hany => ?_)
    obtain ⟨b, hb, hprot⟩ := (bpProtectsAny_eq_true _ _).1 hany
    exact absurd hprot (Bool.eq_false_iff.1 (hi b hb))
  | _ => exact hi.elim

/-- A device that is asleep or has WEL = 0 asks nothing else of a program or erase, and ignores it (R117, R158; log 21). -/
theorem effect_of_not_writable (p : Part) (c : Nat) (i : Instr) (d : Device)
    (hi : i.op = .pp ∨ i.op = .se ∨ i.op = .be ∨ i.op = .ce) (hw : d.writable = false) : effect p c i d = .ok d := by
  have haddressed (h : i.op = .pp ∨ i.op = .se ∨ i.op = .be) : effect p c i d = .ok d := by
    obtain ⟨acc, he⟩ := effect_addressed p c i d h
    rw [he, ifAcceptedAt_of_not_writable p i.addr acc d hw]
  rcases hi with hpp | hse | hbe | hce
  · exact haddressed (.inl hpp)
  · exact haddressed (.inr (.inl hse))
  · exact haddressed (.inr (.inr hbe))
  · obtain ⟨acc, he⟩ := effect_chipErase p c i d hce
    rw [he, ifAccepted_of_not_writable p _ acc d hw]

/-! ## The whole operation in the reference environment -/

/-- The device has accepted a program or erase that left the array `m`: WIP set, WEL kept, the rest of it as in `s`. -/
structure Accepted (s t : State) (m : Memory) : Prop where
  wrong : t.wrong = none
  dev : t.dev = { s.dev.untouched with sr := s.dev.sr ||| 0x01, flash := t.dev.flash }
  flash : t.dev.flash = m

/-- An awake, write-enabled device accepts the permitted operation that it heard. -/
theorem Acted.accepted {s t : State} {c : Nat} {i : Instr} (hact : Acted s t c (encode i)) (r : BpRange)
    (hpd : s.dev.pd = false) (hwel : s.dev.wel = true) (hr : bpLookup s.part s.dev.bp = some r)
    (hi : Permitted s.part r i) : Accepted s t (flashAfter s.part c i s.dev.flash) := by
  have hwritable : (s.dev.heard (encode i)).writable = true := by simp [hpd, hwel]
  have heffect := effect_of_permitted s.part c _ (s.dev.heard (encode i)) r hwritable hr (hi.asHeard 0)
  rw [flashAfter_asHeard] at heffect
  obtain ⟨hw, hdev⟩ := hact.ok _ _ (decode_encode i 0) heffect
  refine ⟨hw, ?_, by rw [hdev]; rfl⟩
  rw [hdev]
  exact congrArg (fun sr => { s.dev.untouched with sr := sr, flash := flashAfter s.part c i s.dev.flash })
    (srSetWip_one s.dev.sr)

/-- What the array reads as after an erase of the addresses `P`. -/
theorem Accepted.reads_of_erase {s t : State} {m : Memory} {P : Nat → Prop} [DecidablePred P] (h : Accepted s t m)
    (hread : ∀ x, m.read x = if P x then erased else s.dev.flash.read x) :
    (∀ x, P x → t.dev.flash.read x = 0xFF) ∧ ∀ x, ¬P x → t.dev.flash.read x = s.dev.flash.read x := by
  rw [h.flash]
  exact ⟨fun x hx => (hread x).trans (if_pos hx), fun x hx => (hread x).trans (if_neg hx)⟩

/-- The operation `i` is accepted without a transfer: so each erase ends (R108, R158). -/
theorem exec_ready_erase (i : Instr) (s : State) (r : BpRange) (hs : s.Ready) (hpd : s.dev.pd = false)
    (hwel : s.dev.wel = true) (hr : bpLookup s.part s.dev.bp = some r) (hwf : i.wellFormed = true)
    (hx : i.op.xfer i.n = .none) (hi : Permitted s.part r i) :
    ∃ t, exec i s = .next t ∧
      Finished s t i (encode i) [] 0 (decodeResult i.op []) [.sel .low, .wr (encode i) (encode i).length, .sel .high] ∧
      Accepted s t (flashAfter s.part s.clock i s.dev.flash) := by
  obtain ⟨t, hexec, hfin, hact⟩ := exec_ready_none i s hs hwf hx
  rw [← encode_eq_frame i (by simp [hx])] at hfin hact
  exact ⟨t, hexec, hfin, hact.accepted r hpd hwel hr hi⟩

/-- Settles O49: the payload follows the frame, and the first 256 targets are distinct. -/
theorem ppCompletes : Obligations.PpCompletes := by
  intro s a payload r hs hpd hwel hm ha hr hblock hmin hmax
  obtain ⟨t, hexec, hfin, hact⟩ :=
    exec_ready_write (.pp a payload.length payload) s hs (decide_eq_true rfl) rfl rfl
  obtain ⟨hw, hdev, hflash⟩ := hact.accepted r hpd hwel hr ⟨ha, hblock, hmin, hmax⟩
  refine ⟨t, hexec, hfin, hw, hdev, fun j b hj herased => ?_, fun x hx => ?_⟩
  · have hread := memWriteFrom_read_target s.clock a 0 payload s.dev.flash hm (by omega) j b hj
    rw [Nat.zero_add] at hread
    rw [hflash]
    exact hread herased
  · rw [hflash]
    exact memWriteFrom_read_other s.clock a 0 payload s.dev.flash hm x (by simpa using hx)

/-- Settles O50: the unit erased is the sector. -/
theorem seCompletes : Obligations.SeCompletes := by
  intro s a r hs hpd hwel ha hr hblock
  obtain ⟨t, hexec, hfin, hacc⟩ := exec_ready_erase (.se a) s r hs hpd hwel hr rfl rfl ⟨ha, hblock⟩
  exact ⟨t, hexec, hfin, hacc.wrong, hacc.dev, hacc.reads_of_erase (read_sectorErase s.dev.flash a)⟩

/-- Settles O51: the unit erased is the block. -/
theorem beCompletes : Obligations.BeCompletes := by
  intro s a r hs hpd hwel ha hr hblock
  obtain ⟨t, hexec, hfin, hacc⟩ := exec_ready_erase (.be a) s r hs hpd hwel hr rfl rfl ⟨ha, hblock⟩
  exact ⟨t, hexec, hfin, hacc.wrong, hacc.dev, hacc.reads_of_erase (read_blockErase s.dev.flash a)⟩

/-- Settles O52: with no block protected the unit erased is the whole array. -/
theorem ceCompletes : Obligations.CeCompletes := by
  intro s r hs hpd hwel hr hfree
  obtain ⟨t, hexec, hfin, hacc⟩ := exec_ready_erase .ce s r hs hpd hwel hr rfl rfl hfree
  obtain ⟨hinside, hbeyond⟩ := hacc.reads_of_erase (read_chipErase s.dev.flash s.part.totalSize)
  exact ⟨t, hexec, hfin, hacc.wrong, hacc.dev, hinside, fun x hx => hbeyond x (Nat.not_lt.2 hx)⟩

/-- Settles O53: the device hears the operation, and without the enable the effect is none. -/
theorem programEraseWithoutEnableIsIgnored : Obligations.ProgramEraseWithoutEnableIsIgnored := by
  intro i s hi hwf hs hdisabled
  obtain ⟨t, c, hexec, hdone, herr, hact⟩ := exec_ready i s hs hwf
  have hnot : (s.dev.heard (encode i)).writable = false := by
    rcases hdisabled with hpd | hwel
    · simp [hpd]
    · simp [hwel]
  have hignored := effect_of_not_writable s.part c (i.asHeard 0) _ (by simpa using hi) hnot
  obtain ⟨hw, hdev⟩ := hact.ok _ _ (decode_encode i 0) hignored
  exact ⟨t, hexec, hdone, herr, hw, hdev.trans (Device.heard_put_away _ _)⟩

end Sys2Proof.Machine
end

section
/-! Deep Power-Down and its release (R117, R170 to R173): the effect at the end of a selection, and the whole operation in the
reference environment. Awake or asleep, DP and RDP do the same thing: they write the power state where they are heeded. -/

namespace Sys2Proof.Machine

/-! ## DP and RDP at `SEL(HIGH)` (R117, U16) -/

/-- The device is asleep (`asleep` true) or awake afterwards where it heeds the operation: the shape that DP and RDP share. -/
def Device.takesPd (c : Nat) (asleep : Bool) (d : Device) : Device :=
  if d.heeds c then { d with pd := asleep } else d

/-- DP asks whether the device is awake, but a sleeping one that takes it sleeps on (R171). -/
theorem effectDp_eq (c : Nat) (d : Device) : effectDp c d = d.takesPd c true := by
  unfold effectDp Device.takesPd
  cases hpd : d.pd with
  | false => rfl
  | true =>
    have hsame : { d with pd := true } = d := hpd ▸ rfl
    simp only [hsame, ite_self]

theorem effectRdp_eq (c : Nat) (d : Device) : effectRdp c d = d.takesPd c false := rfl

theorem Device.takesPd_of_heeds {c : Nat} {asleep : Bool} {d : Device} (h : d.heeds c = true) :
    d.takesPd c asleep = { d with pd := asleep } := if_pos h

theorem Device.takesPd_of_ignored {c : Nat} {asleep : Bool} {d : Device} (h : d.heeds c = false) :
    d.takesPd c asleep = d := if_neg (Bool.eq_false_iff.1 h)

theorem Device.takesPd_cases (c : Nat) (asleep : Bool) (d : Device) :
    d.takesPd c asleep = d ∨ d.takesPd c asleep = { d with pd := asleep } := (ite_eq_or_eq ..).symm

/-- The end of a selection whose operation writes the power state where it is heeded: taken, ignored, or, where a completion
fell inside the selection, one of the two. -/
theorem tick_deassert_of_takesPd (s : State) (i : Instr) (asleep : Bool) (hp : s.codec.phase = .deassert)
    (hsel : s.nextSelect = .returns) (herr : s.codec.err = 0x00) (hok : s.Ok) (hi : s.dev.sel = some (encode i))
    (he : effect s.part s.clock (i.asHeard 0) s.dev = .ok (s.dev.takesPd s.clock asleep)) :
    ∃ t, tick s = .next t ∧ t.wrong = none ∧
      (s.dev.selBusy = false → t.dev = { s.dev with sel := none, pd := asleep }) ∧
      (s.dev.selBusy = true → s.dev.wip = true → t.dev = { s.dev with sel := none }) ∧
      (t.dev = { s.dev with sel := none } ∨ t.dev = { s.dev with sel := none, pd := asleep }) := by
  have hdec : decode (s.dev.sel.getD []) 0 = .ok (i.asHeard 0) := by
    rw [hi]
    exact decode_encode i 0
  obtain ⟨t, htick, hw, hdev⟩ := tick_deassert_of_effect s _ _ hp hsel herr hok hdec he
  refine ⟨t, htick, hw, fun hb => ?_, fun hb hwip => ?_, ?_⟩
  · rw [hdev, Device.takesPd_of_heeds (Device.heeds_of_not_selBusy hb)]
  · rw [hdev, Device.takesPd_of_ignored (Device.not_heeds_of_busy hb hwip)]
  · rcases Device.takesPd_cases s.clock asleep s.dev with h | h
    · exact .inl (by rw [hdev, h])
    · exact .inr (by rw [hdev, h])

/-- Settles O56. -/
theorem powerDownEffect : Obligations.PowerDownEffect := fun s hp hsel herr hok hstream =>
  tick_deassert_of_takesPd s .dp true hp hsel herr hok hstream (congrArg Except.ok (effectDp_eq s.clock s.dev))

/-- Settles O57. -/
theorem releasePowerDownEffect : Obligations.ReleasePowerDownEffect := fun s hp hsel herr hok hstream =>
  tick_deassert_of_takesPd s .rdp false hp hsel herr hok hstream (congrArg Except.ok (effectRdp_eq s.clock s.dev))

/-! ## The whole operation in the reference environment -/

/-- A selection that began with WIP = 0 is heeded, awake or asleep. -/
theorem Device.heard_takesPd (c : Nat) (l : List Byte) (asleep : Bool) (d : Device) :
    { (d.heard l).takesPd c asleep with sel := none } = { d.untouched with pd := asleep } := by
  rw [Device.takesPd_of_heeds (d := d.heard l) (Device.heard_heeds c l d)]
  rfl

/-- Settles O58: neither operation has a transfer, and the device heeds both. -/
theorem dpAndRdpComplete : Obligations.DpAndRdpComplete := by
  intro s hs
  constructor
  · obtain ⟨t, hexec, hfin, hw, hdev⟩ := exec_ready_effect .dp s _ hs rfl rfl (congrArg Except.ok (effectDp_eq _ _))
    exact ⟨t, hexec, hfin, hw, hdev.trans (Device.heard_takesPd _ _ _ _)⟩
  · obtain ⟨t, hexec, hfin, hw, hdev⟩ := exec_ready_effect .rdp s _ hs rfl rfl (congrArg Except.ok (effectRdp_eq _ _))
    exact ⟨t, hexec, hfin, hw, hdev.trans (Device.heard_takesPd _ _ _ _)⟩

end Sys2Proof.Machine
end

section
/-! Read Device ID and Read JEDEC ID (R180 to R184): the answer of an awake device is a constant of the part, taken in whole,
and no expected constant has a say in it. -/

namespace Sys2Proof.Machine

/-! ## The response (R101, R181, R183) -/

/-- A read whose count is exact and is the length of the answer takes in the answer, and no draw. -/
theorem received_of_exact (c m : Nat) (response : List Byte) (hlen : response.length = m) :
    received c m m response = response := by
  have hlen' : (received c m m response).length = response.length := (received_length ..).trans hlen.symm
  refine List.ext_getElem? fun j => ?_
  by_cases hj : j < response.length
  · exact received_getElem?_of_exact c m j response (hlen ▸ hj) hj
  · rw [List.getElem?_eq_none (by omega), List.getElem?_eq_none (by omega)]

/-- An awake device hands over the part's manufacturer and device IDs (R181). -/
theorem respondRddevid_of_heard (p : Part) (c n : Nat) (l : List Byte) (d : Device) (hpd : d.pd = false) :
    respondRddevid p c n (d.heard l) = [p.mfrId, p.devId] := if_pos (by simp [hpd])

/-- An awake device hands over the part's manufacturer ID, memory type and capacity (R183). -/
theorem respondRdjedec_of_heard (p : Part) (c n : Nat) (l : List Byte) (d : Device) (hpd : d.pd = false) :
    respondRdjedec p c n (d.heard l) = [p.mfrId, p.memType, p.capacity] := if_pos (by simp [hpd])

/-! ## The whole operation in the reference environment -/

/-- An operation that reads as many bytes as the device answers (R108, R115): it ends with that answer, and nothing of the
device changes. -/
theorem exec_ready_response (i : Instr) (s : State) (m : Nat) (response : List Byte) (hs : s.Ready)
    (hwf : i.wellFormed = true) (hx : i.op.xfer i.n = .read m) (hlen : response.length = m)
    (hrespond : respond s.part s.clock m (i.asHeard m) (s.dev.heard (encode i)) = response) :
    ∃ t, exec i s = .next t ∧
      Finished s t i (encode i) response m (decodeResult i.op response)
        [.sel .low, .wr (encode i) (encode i).length, .rd m m response, .sel .high] ∧
      t.wrong = none ∧ t.dev = s.dev.untouched := by
  have hanswer : answerTo i m s = response := by
    rw [answerTo, hrespond, received_of_exact s.clock m response hlen]
  exact hanswer ▸ exec_ready_answer i s m hs hwf hx

/-- Settles O59: the second of the two bytes is the device ID. -/
theorem rddevidCompletes : Obligations.RddevidCompletes := fun s hs hpd =>
  exec_ready_response .rddevid s 2 [s.part.mfrId, s.part.devId] hs rfl rfl rfl (respondRddevid_of_heard _ _ _ _ _ hpd)

/-- Settles O60: the last two of the three bytes are combined. -/
theorem rdjedecCompletes : Obligations.RdjedecCompletes := fun s hs hpd =>
  exec_ready_response .rdjedec s 3 [s.part.mfrId, s.part.memType, s.part.capacity] hs rfl rfl rfl
    (respondRdjedec_of_heard _ _ _ _ _ hpd)

end Sys2Proof.Machine
end

section
/-! The error code and the mark of a run gone wrong (R191, R192, R206; log 8, 9): nothing takes the mark away, and
S-DEASSERT, which alone ends an operation, sets it where `err` is not 0x00. -/

namespace Sys2Proof.Machine

/-! ## The mark stays (R206) -/

theorem devComplete_wrong (s : State) : (devComplete s).wrong = s.wrong := by
  rcases devComplete_cases s with ⟨_, h⟩ | ⟨_, _, h⟩ | ⟨_, _, h⟩ <;> rw [h]

/-- Of the sequencer's steps only S-DEASSERT can touch the mark, and the device leaves one that is set. -/
theorem tick_wrong_of_marked (w : GoneWrong) (s t : State) (hw : s.wrong = some w) (h : tick s = .next t) :
    t.wrong = some w := by
  rcases tick_dev_cases s t h with ⟨hst, _⟩ | ⟨_, rfl⟩
  · exact hst.trans hw
  · exact deviceActs_wrong (s.selected .high) w hw

/-- The first cause stays, although a reset in flight is one itself (log 10). -/
theorem codecReset_wrong_of_marked (w : GoneWrong) (s : State) (hw : s.wrong = some w) :
    (codecReset s).wrong = some w := by
  rw [codecReset_wrong, hw]
  exact ite_self _

theorem exec_wrong_of_marked (w : GoneWrong) (i : Instr) (s t : State) (hw : s.wrong = some w)
    (h : exec i s = .next t) : t.wrong = some w :=
  exec_keeps (fun u => u.wrong = some w)
    (hacc := fun _ _ hu _ => hu)
    (hgap := fun u hu => (gap_wrong u).trans hu)
    (htick := tick_wrong_of_marked w)
    i s t hw h

theorem step_wrong_of_marked (w : GoneWrong) (s t : State) (hw : s.wrong = some w) (h : step s = .next t) :
    t.wrong = some w :=
  step_keeps (fun u => u.wrong = some w)
    (hin := fun _ _ _ hu => hu)
    (hclock := fun _ hu => hu)
    (hwp := fun _ _ hu => hu)
    (hacc := fun _ _ hu _ => hu)
    (hgap := fun u hu => (gap_wrong u).trans hu)
    (htick := tick_wrong_of_marked w)
    (hcomplete := fun u hu => (devComplete_wrong u).trans hu)
    (hreset := codecReset_wrong_of_marked w)
    s t hw h

/-! ## The error code and the mark (R191, R192) -/

/-- The invariant speaks of the codec and the mark only. -/
theorem ErrOk.congr {s t : State} (hs : ErrOk s) (hc : t.codec = s.codec) (hw : t.wrong = s.wrong) : ErrOk t :=
  ⟨hc ▸ hs.codes, hc ▸ hw ▸ hs.marked⟩

/-- With `err` = 0x00 nothing is asked of the mark. -/
theorem ErrOk.of_errNone {s : State} (h : s.codec.err = errNone) : ErrOk s :=
  ⟨.inl h, fun _ he => absurd h he⟩

/-- While an operation is in flight nothing is asked of the mark. -/
theorem ErrOk.of_in_flight {s : State} (hcodes : s.codec.err = 0x00 ∨ s.codec.err = 0x01) (hp : s.codec.phase ≠ .idle) :
    ErrOk s :=
  ⟨hcodes, fun hidle => absurd hidle hp⟩

theorem phaseAfterFrame_ne_idle (x : Transfer) : phaseAfterFrame x ≠ .idle := by cases x <;> nofun

/-- The test of a count, made in flight, leaves `err` or sets it to 0x01 (R113, R190). -/
theorem checkCount_errOk (k req : Nat) (s : State) (hcodes : s.codec.err = 0x00 ∨ s.codec.err = 0x01)
    (hp : s.codec.phase ≠ .idle) : ErrOk (checkCount k req s) := by
  unfold checkCount
  split
  · exact .of_in_flight (.inr rfl) hp
  · exact .of_in_flight hcodes hp

/-- S-DEASSERT leaves `err` as the operation set it, and marks the run if that is not 0x00 (R192, log 9). -/
theorem deasserted_errOk (s : State) (hs : ErrOk s) : ErrOk (deasserted s) where
  codes := hs.codes
  marked := fun _ he => deviceActs_marks (s.selected .high) he

theorem tick_errOk (s t : State) (hs : ErrOk s) (h : tick s = .next t) : ErrOk t := by
  rcases tick_next_cases s t h with ⟨_, rfl⟩ | ⟨_, _, rfl⟩ | ⟨_, k, _, rfl⟩ | ⟨_, _, rfl⟩ | ⟨_, m, k, _, _, rfl⟩ |
    ⟨_, _, k, _, rfl⟩ | ⟨_, _, rfl⟩
  · exact hs
  · exact .of_in_flight hs.codes nofun
  · exact checkCount_errOk k _ _ hs.codes (phaseAfterFrame_ne_idle _)
  · exact hs
  · exact checkCount_errOk k _ _ hs.codes nofun
  · exact checkCount_errOk k _ _ hs.codes nofun
  · exact deasserted_errOk s hs

theorem devComplete_codec (s : State) : (devComplete s).codec = s.codec := by
  rcases devComplete_cases s with ⟨_, h⟩ | ⟨_, _, h⟩ | ⟨_, _, h⟩ <;> rw [h]

/-- S-ACCEPT and the codec's reset clear `err` (R102, R210); the rest of a step but the sequencer's leaves codec and mark
alone. -/
theorem step_errOk (s t : State) (hs : ErrOk s) (h : step s = .next t) : ErrOk t :=
  step_keeps ErrOk
    (hin := fun _ _ _ hu => hu.congr rfl rfl)
    (hclock := fun _ hu => hu.congr rfl rfl)
    (hwp := fun _ _ hu => hu.congr rfl rfl)
    (hacc := fun _ _ _ _ => .of_errNone rfl)
    (hgap := fun u hu => hu.congr (gap_codec u) (gap_wrong u))
    (htick := tick_errOk)
    (hcomplete := fun u hu => hu.congr (devComplete_codec u) (devComplete_wrong u))
    (hreset := fun _ _ => .of_errNone rfl)
    s t hs h

/-- Settles O28: every part of a step keeps the codes and the mark of an ended operation; and no step and no operation takes
a mark away. -/
theorem errorCodeIsMarked : Obligations.ErrorCodeIsMarked :=
  ⟨step_errOk, fun s t w hw => ⟨step_wrong_of_marked w s t hw, fun i => exec_wrong_of_marked w i s t hw⟩⟩

end Sys2Proof.Machine
end

section
/-! The codec's reset (R210, U11; log 10): what it leaves as it is, what it writes, and when it marks the run. -/

namespace Sys2Proof.Machine

/-- The transport is not called by a reset, so none of its coming answers is used up (R210). -/
@[simp] theorem codecReset_answers (s : State) : (codecReset s).answers = s.answers := by
  unfold codecReset
  split <;> rfl

/-- A reset deselects the device, whether or not it cuts an operation short (R210). -/
@[simp] theorem codecReset_dev_sel (s : State) : (codecReset s).dev.sel = none := rfl

theorem codecReset_wrong_of_idle (s : State) (hp : s.codec.phase = .idle) : (codecReset s).wrong = s.wrong :=
  (codecReset_wrong s).trans (if_pos hp)

/-- A reset that cuts an operation short leaves the run marked, by itself if by nothing before it (U11, log 10). -/
theorem codecReset_wrong_isSome_of_in_flight (s : State) (hp : s.codec.phase ≠ .idle) :
    (codecReset s).wrong.isSome = true := by
  rw [codecReset_wrong, if_neg hp, Option.isSome_or, Option.isSome_some, Bool.or_true]

/-- The input `reset` is used up, and the codec is reset (R210, log 3). -/
theorem step_reset (s : State) (rest : List Input) (hin : s.inputs = .reset :: rest) :
    step s = .next (codecReset { s with inputs := rest }) := by simp [step, hin]

/-- Settles O37: the codec's registers are those of `Codec.reset`, whatever the phase; for the device and the mark it
matters whether a selection is cut short. -/
theorem resetReachesTheCodecOnly : Obligations.ResetReachesTheCodecOnly := by
  intro s rest hin
  refine ⟨_, step_reset s rest hin, ?phase, ?cs, ?err, ?done, ?cntFrame, ?cntXfer, ?result, ?resp,
    codecReset_dev_sel _, codecReset_part _, codecReset_trace _, codecReset_port _, codecReset_inputs _,
    codecReset_answers _, codecReset_selects _, fun w hw => codecReset_wrong_of_marked w _ hw,
    fun hidle => ⟨codecReset_dev_of_idle _ hidle, codecReset_wrong_of_idle _ hidle⟩,
    fun hflight => codecReset_wrong_isSome_of_in_flight _ hflight⟩
  all_goals rw [codecReset_codec]; rfl

end Sys2Proof.Machine
end
